-- ==== Sys2Proof/Word.lean ====
section
/-! DEFINITION. The word types of UPKR-DEC: a byte of IN, OUT or PROBS, and a 32-bit register
(spec 00_scope.md R4, R6). -/

namespace Sys2Proof

/-- A byte of IN or OUT, or an entry of PROBS (R10, R30). -/
abbrev Byte := BitVec 8

/-- A 32-bit register or value: CODE (CODE_W), a cursor (AW), OFFSET or a decoded integer (VAL_W). -/
abbrev Word := BitVec 32

end Sys2Proof
end

