-- ==== Sys2Proof/Config.lean ====
section
/-! DEFINITION. What is fixed for the machine: the constants of spec 00_scope.md R4 and R6, the
configuration record of R5 and R7, and the free values an ended run leaves (60_exceptions.md R138). -/

namespace Sys2Proof

/-- UINT_BIT_ORDER: the order in which the value bits of an integer arrive (R7, R82). -/
inductive BitOrder
  | msbFirst
  | lsbFirst
  deriving DecidableEq, Repr

/-- The configuration record: the context map of R5 and the bit order of R7. -/
structure Config where
  /-- CTX_SEL: literal/match selector. -/
  ctxSel : Nat
  /-- CTX_LIT: node `n` of the literal tree uses index `ctxLit - 1 + n`. -/
  ctxLit : Nat
  /-- CTX_OFFSEL: new/repeat-offset selector. -/
  ctxOffsel : Nat
  /-- CTX_OFF: first of the 64 slots of the offset integer. -/
  ctxOff : Nat
  /-- CTX_LEN: first of the 64 slots of the length integer. -/
  ctxLen : Nat
  /-- UINT_BIT_ORDER. -/
  order : BitOrder
  deriving DecidableEq, Repr

namespace Config

/-- NPROBS: entries of the probability table. -/
abbrev nprobs : Nat := 385
/-- PROB_W: bits per probability entry, the width of `Byte`. -/
abbrev probW : Nat := 8
/-- PROB_INIT: every entry when a decode starts. -/
abbrev probInit : Byte := 128#8
/-- CODE_W: bits of the code register, the width of `Word`. -/
abbrev codeW : Nat := 32
/-- AW: bits of IN_POS, OUT_POS, IN_LEN and OUT_CAP (R6). -/
abbrev aw : Nat := 32
/-- VAL_W: bits of a decoded integer, of OFFSET and of a match length (R6). -/
abbrev valW : Nat := 32
/-- RENORM_LIMIT: CODE is refilled while it is below this. -/
abbrev renormLimit : Nat := 4096
/-- REFILL_BITS: bits shifted in per refill. -/
abbrev refillBits : Nat := 8
/-- ADAPT_SHIFT: right shift of the probability update. -/
abbrev adaptShift : Nat := 4
/-- ADAPT_UP_BIAS: constant of the update after a 1. -/
abbrev adaptUpBias : Nat := 264
/-- ADAPT_DN_BIAS: constant of the update after a 0. -/
abbrev adaptDnBias : Nat := 8
/-- N_SEL: slots for the literal/match selector. -/
abbrev nSel : Nat := 1
/-- N_LIT: slots (nodes) of the literal tree. -/
abbrev nLit : Nat := 255
/-- N_OFFSEL: slots for the new/repeat-offset selector. -/
abbrev nOffsel : Nat := 1
/-- N_INT: slots for offset- and length-integer contexts together. -/
abbrev nInt : Nat := 128
/-- LIT_DEPTH: decisions per literal byte. -/
abbrev litDepth : Nat := 8
/-- UINT_SLOTS: slots per integer region. -/
abbrev uintSlots : Nat := 64
/-- UINT_MAX_POS: bit positions an integer may have. -/
abbrev uintMaxPos : Nat := 32
/-- END_VALUE: the offset-integer value that ends the stream. -/
abbrev endValue : Nat := 1

/-- The configuration of this hardware: the map of R5, MSB_FIRST of R7 (log 14). -/
def upkr : Config :=
  { ctxSel := 0, ctxLit := 1, ctxOffsel := 256, ctxOff := 257, ctxLen := 321, order := .msbFirst }

/-- The same map with the other order R7 names; no step of the machine uses it. -/
def upkrLsb : Config := { upkr with order := .lsbFirst }

/-! Free values (log 3, log 4). After a fault everything but STATUS and CAUSE is unspecified
(R138). Each is an uninterpreted constant, applied to State's counter FREE. -/

/-- PROBS entry `i` after the `n`-th ended run. -/
opaque freeProb : Nat → Nat → Byte
/-- CODE after a fault. -/
opaque freeCode : Nat → Word
/-- IN_POS after a fault. -/
opaque freeInPos : Nat → Word
/-- OUT_POS after a fault. -/
opaque freeOutPos : Nat → Word
/-- OFFSET after a fault. -/
opaque freeOffset : Nat → Word
/-- PWM after a fault. -/
opaque freePwm : Nat → Bool
/-- OUT byte at index `a` below OUT_CAP after a fault. -/
opaque freeOutByte : Nat → Nat → Byte

end Config

end Sys2Proof
end

