-- ==== Sys2Proof/Syntax.lean ====
section
/-! DEFINITION. The instructions of UPKR-DEC (one constructor per row of the opcode table), the names of
its four faults, and the host's moves. -/

namespace Sys2Proof

/-- The four faults of spec 60_exceptions.md R130. Raising one is an exception the spec describes:
the machine goes on, in a state with STATUS = FAULT (R136). -/
inductive FaultName
  | truncatedInput
  | outputOverflow
  | invalidOffset
  | uintOverflow
  deriving DecidableEq, Repr

/-- The two bases DECODE_UINT is ever called with (R80). -/
inductive UintBase
  | off
  | len
  deriving DecidableEq, Repr

/-- One constructor per row of the opcode table. -/
inductive Instr
  /-- LIT: literal byte (R96). -/
  | lit (b : Byte)
  /-- MATCHN, row "PWM = 0": match with a new offset, flagged by a decision at CTX_OFFSEL (R98). -/
  | matchnPwm0 (offset length : Word)
  /-- MATCHN, row "PWM = 1": match with a new offset, no decision at CTX_OFFSEL (R98). -/
  | matchnPwm1 (offset length : Word)
  /-- MATCHR: match that repeats OFFSET; exists when PWM = 0 only (R100). -/
  | matchr (length : Word)
  /-- END, row "PWM = 0": three decisions (R99). -/
  | endPwm0
  /-- END, row "PWM = 1": two decisions (R99). -/
  | endPwm1
  /-- DECODE_BIT(ctx): micro-operation (R71). -/
  | decodeBit (ctx : Fin Config.nprobs)
  /-- DECODE_UINT(base): micro-operation (R80). -/
  | decodeUint (base : UintBase)
  /-- DECODE_LITERAL(): micro-operation (R90). -/
  | decodeLiteral
  /-- COPY_MATCH(offset, length): micro-operation (R110). -/
  | copyMatch (offset length : Word)
  /-- START: host command (R120). -/
  | start
  deriving DecidableEq, Repr

/-- What the host may write while STATUS is not RUN (R26, row "host, STATUS not RUN"). -/
inductive HostWrite
  | inLen (v : Word)
  | outCap (v : Word)
  | inByte (a : Word) (b : Byte)
  | outByte (a : Word) (b : Byte)
  deriving DecidableEq, Repr

/-- A move of the host that changes state: a write, or the command START (R120). -/
inductive HostCmd
  | write (w : HostWrite)
  | start
  deriving DecidableEq, Repr

/-- The registers a host can name (R21 to R23, R17, R18); the others are not host-accessible (D1). -/
inductive HostReg
  | status
  | cause
  | inLen
  | outCap
  | inPos
  | outPos
  deriving DecidableEq, Repr

end Sys2Proof
end

