-- ==== Sys2Proof/Machine/State.lean ====
section
/-! DEFINITION. The state of UPKR-DEC (spec 10_state.md), the ways a step can stop, and the state right after
power-on reset (70_reset_and_hazards.md R150). -/

namespace Sys2Proof.Machine

/-- STATUS (R21): IDLE = 0, RUN = 1, DONE = 2, FAULT = 3. -/
inductive Status
  | idle
  | run
  | done
  | fault
  deriving DecidableEq, Repr

/-- A byte space: (index, byte) pairs, indexes strictly rising, no pair whose byte is what an
unlisted index reads as. -/
abbrev Memory := List Host.Cell

/-- Why a step is stuck. The four faults of the spec are not here: they are next states (R136). -/
inductive Fault
  /-- Raised by the meaning of a stream symbol executed while PWM has the value for which that form
  does not exist (R52, R56: "the MATCHR form does not exist in that mode"). No step of the machine
  raises it, since the decoder reads the form the current PWM selects. Safe: the model stops. -/
  | formAbsentInMode
  deriving DecidableEq, Repr

/-- Why a step is refused. -/
inductive Refusal
  /-- Raised by an arm of exec whose instruction has no meaning yet. Safe: the model stops. -/
  | notModelled (mnemonic : String)
  /-- Raised by START while STATUS = RUN, which "has no meaning" and which "the model refuses"
  (R124). Safe: the model stops. -/
  | startWhileRunning
  deriving DecidableEq, Repr

/-- Everything the spec gives the machine, and three fields of the model's own (the last three). -/
structure State where
  /-- PROBS[0..384] (R10). -/
  probs : Vector Byte Config.nprobs
  /-- CODE (R13). -/
  code : Word
  /-- IN_POS (R17). -/
  inPos : Word
  /-- OUT_POS (R18). -/
  outPos : Word
  /-- OFFSET (R15). -/
  offset : Word
  /-- PWM (R19). -/
  pwm : Bool
  /-- STATUS (R21). -/
  status : Status
  /-- CAUSE (R22): none is code 0. -/
  cause : Option FaultName
  /-- IN_LEN (R23). -/
  inLen : Word
  /-- OUT_CAP (R23). -/
  outCap : Word
  /-- The IN space (R30). -/
  inMem : Memory
  /-- The OUT space (R30). -/
  outMem : Memory
  /-- RET, the model's own: what the last micro-operation executed on its own returned (log 5). -/
  ret : Word
  /-- HOSTQ, the model's own: the host's pending moves, oldest first (log 6). -/
  hostQ : List HostCmd
  /-- FREE, the model's own: how many sets of free values have been drawn (log 4). -/
  free : Nat
  deriving DecidableEq, Repr

/-- The result of a micro-operation: a value and a new state, or a raised fault and the state at
the point where it was raised (00_scope.md section 3). -/
inductive Res (σ α : Type) where
  | ok (a : α) (s : σ)
  | raise (f : FaultName) (s : σ)
  deriving DecidableEq, Repr

/-- After power-on reset STATUS = IDLE and everything else is unspecified (R150); the zeros are the
model's choice (log 1, log 2, log 4, log 5, log 6). -/
def State.reset : State :=
  { probs := Vector.replicate Config.nprobs 0#8
    code := 0#32
    inPos := 0#32
    outPos := 0#32
    offset := 0#32
    pwm := false
    status := .idle
    cause := none
    inLen := 0#32
    outCap := 0#32
    inMem := []
    outMem := []
    ret := 0#32
    hostQ := []
    free := 0 }

end Sys2Proof.Machine
end

