-- ==== Sys2Proof/Machine/Ops.lean ====
section
/-! DEFINITION. The named operations over registers and memory: the byte spaces (spec 20_memory.md), the
register updates, NextByte and Emit, taking a fault (60_exceptions.md R136, R138) and the
start-of-call initialisation (70_reset_and_hazards.md R151). -/

namespace Sys2Proof.Machine

/-! ### Results -/

/-- Go on with `f` after a value; a raised fault ends everything (R136: no statement after a raise executes). -/
def Res.andThen {σ α β : Type} (r : Res σ α) (f : α → σ → Res σ β) : Res σ β :=
  match r with
  | .ok a s => f a s
  | .raise e s => .raise e s

/-! ### The byte spaces -/

/-- What an index that nothing has written reads as, in IN and in OUT (log 2). -/
def Memory.unlisted : Byte := 0#8

/-- MemRead: the byte at index `a` (R32). -/
def Memory.read : Memory → Nat → Byte
  | [], _ => Memory.unlisted
  | (k, v) :: m, a => if a = k then v else Memory.read m a

/-- MemWrite: store byte `b` at index `a`, keeping the canonical form (R32). -/
def Memory.write : Memory → Nat → Byte → Memory
  | [], a, b => if b = Memory.unlisted then [] else [(a, b)]
  | (k, v) :: m, a, b =>
    if a < k then
      if b = Memory.unlisted then (k, v) :: m else (a, b) :: (k, v) :: m
    else if a = k then
      if b = Memory.unlisted then m else (a, b) :: m
    else (k, v) :: Memory.write m a b

/-- The canonical form: indexes inside the 32-bit index space (R6), strictly rising, no unlisted byte listed. -/
def Memory.wf : Memory → Bool
  | [] => true
  | (k, v) :: m => decide (k < 2 ^ 32) && (v != Memory.unlisted) && m.all (fun c => decide (k < c.1)) && Memory.wf m

/-- Store `f 0`, …, `f (n-1)` at indexes 0 to n-1. -/
def Memory.fill (f : Nat → Byte) : Nat → Memory → Memory
  | 0, m => m
  | n + 1, m => Memory.write (Memory.fill f n m) n (f n)

/-- Store the bytes one after another from index `a` on. -/
def Memory.writeList : List Byte → Nat → Memory → Memory
  | [], _, m => m
  | b :: bs, a, m => Memory.writeList bs (a + 1) (Memory.write m a b)

namespace State

/-! ### Register reads and writes -/

/-- PROBS[i]. No index outside 0 to 384 occurs (00_scope.md section 3); there it would read 0 (log 16). -/
def getProb (s : State) (i : Nat) : Byte :=
  if h : i < Config.nprobs then s.probs[i] else 0#8

/-- PROBS[i] <- p; outside 0 to 384 nothing would be written (log 16). -/
def setProb (s : State) (i : Nat) (p : Byte) : State :=
  if h : i < Config.nprobs then { s with probs := s.probs.set i p h } else s

/-- PROBS <- v, the whole table. -/
def setProbs (s : State) (v : Vector Byte Config.nprobs) : State := { s with probs := v }

/-- CODE <- v. -/
def setCode (s : State) (v : Word) : State := { s with code := v }

/-- IN_POS <- v. -/
def setInPos (s : State) (v : Word) : State := { s with inPos := v }

/-- OUT_POS <- v. -/
def setOutPos (s : State) (v : Word) : State := { s with outPos := v }

/-- OFFSET <- v. -/
def setOffset (s : State) (v : Word) : State := { s with offset := v }

/-- PWM <- v. -/
def setPwm (s : State) (v : Bool) : State := { s with pwm := v }

/-- STATUS <- v. -/
def setStatus (s : State) (v : Status) : State := { s with status := v }

/-- CAUSE <- v. -/
def setCause (s : State) (v : Option FaultName) : State := { s with cause := v }

/-- IN_LEN <- v. -/
def setInLen (s : State) (v : Word) : State := { s with inLen := v }

/-- OUT_CAP <- v. -/
def setOutCap (s : State) (v : Word) : State := { s with outCap := v }

/-- IN <- m, the whole space. -/
def setInMem (s : State) (m : Memory) : State := { s with inMem := m }

/-- OUT <- m, the whole space. -/
def setOutMem (s : State) (m : Memory) : State := { s with outMem := m }

/-- RET <- v (log 5). -/
def setRet (s : State) (v : Word) : State := { s with ret := v }

/-- HOSTQ <- q (log 6). -/
def setHostQ (s : State) (q : List HostCmd) : State := { s with hostQ := q }

/-- FREE <- n (log 4). -/
def setFree (s : State) (n : Nat) : State := { s with free := n }

/-- MemRead(IN, a, 1). -/
def readIn (s : State) (a : Nat) : Byte := Memory.read s.inMem a

/-- MemRead(OUT, a, 1). -/
def readOut (s : State) (a : Nat) : Byte := Memory.read s.outMem a

/-- MemWrite(OUT, a, 1, b). -/
def writeOut (s : State) (a : Nat) (b : Byte) : State := s.setOutMem (Memory.write s.outMem a b)

/-- IN_POS <- IN_POS + 1. -/
def bumpInPos (s : State) : State := s.setInPos (BitVec.ofNat 32 (s.inPos.toNat + 1))

/-- OUT_POS <- OUT_POS + 1. -/
def bumpOutPos (s : State) : State := s.setOutPos (BitVec.ofNat 32 (s.outPos.toNat + 1))

end State

/-! ### The two checked accesses -/

/-- NextByte() (R33): the check comes before the read. -/
def nextByte (s : State) : Res State Byte :=
  if s.inLen.toNat ≤ s.inPos.toNat then .raise .truncatedInput s
  else .ok (s.readIn s.inPos.toNat) s.bumpInPos

/-- MemWrite(OUT, OUT_POS, 1, v); OUT_POS <- OUT_POS + 1. -/
def putByte (v : Byte) (s : State) : State := (s.writeOut s.outPos.toNat v).bumpOutPos

/-- Emit(v) (R34). -/
def emit (v : Byte) (s : State) : Res State Unit :=
  if s.outCap.toNat ≤ s.outPos.toNat then .raise .outputOverflow s
  else .ok () (putByte v s)

/-! ### Taking a fault -/

/-- What R138 leaves unspecified after a fault (PROBS, CODE, IN_POS, OUT_POS, OFFSET, PWM and OUT
bytes 0 to OUT_CAP - 1) takes free values (log 3). IN, IN_LEN, OUT_CAP and OUT from OUT_CAP on keep theirs. -/
def forgetAfterFault (s : State) : State :=
  s.setProbs (Vector.ofFn fun i => Config.freeProb s.free i.val)
    |>.setCode (Config.freeCode s.free)
    |>.setInPos (Config.freeInPos s.free)
    |>.setOutPos (Config.freeOutPos s.free)
    |>.setOffset (Config.freeOffset s.free)
    |>.setPwm (Config.freePwm s.free)
    |>.setOutMem (Memory.fill (Config.freeOutByte s.free) s.outCap.toNat s.outMem)
    |>.setFree (s.free + 1)

/-- Fault entry, `raise F` (R136): CAUSE <- code(F), STATUS <- FAULT, the run ends. There is no
return from a fault (R137): the only way out of FAULT is START. -/
def takeFault (f : FaultName) (s : State) : State :=
  (forgetAfterFault s).setCause (some f) |>.setStatus .fault

/-- The end of an operation that returns nothing: go on, or take the fault it raised. -/
def settle (r : Res State Unit) : Host.Outcome State Fault Refusal :=
  match r with
  | .ok _ s => .next s
  | .raise f s => .next (takeFault f s)

/-- The end of a micro-operation executed on its own: its value goes to RET (log 5). -/
def settleValue (r : Res State Nat) : Host.Outcome State Fault Refusal :=
  match r with
  | .ok v s => .next (s.setRet (BitVec.ofNat 32 v))
  | .raise f s => .next (takeFault f s)

/-! ### Start of a call -/

/-- The initialisation START performs (R120, R151); RET is cleared with it (log 22). -/
def startCall (s : State) : State :=
  { s with
    probs := Vector.replicate Config.nprobs Config.probInit
    code := 0#32
    inPos := 0#32
    outPos := 0#32
    offset := 0#32
    pwm := false
    cause := none
    status := .run
    ret := 0#32 }

end Sys2Proof.Machine
end

