-- ==== Sys2Proof/Machine/Flags.lean ====
section
/-! DEFINITION. The flag PWM (spec 10_state.md R19), the guards the control loop and the mode put before a meaning
(43_symbol_grammar.md R95, 30_encoding.md R56), and the codes of STATUS and CAUSE (R21, R22, R130). -/

namespace Sys2Proof.Machine

/-- LIT clears PWM (R96). -/
def clearPwm (s : State) : State := s.setPwm false

/-- A completed match sets PWM (R101). -/
def raisePwm (s : State) : State := s.setPwm true

/-- The decoder executes only while STATUS = RUN (R95) and does nothing otherwise (R150; log 12). -/
def whileRunning (s : State) (k : Host.Outcome State Fault Refusal) : Host.Outcome State Fault Refusal :=
  if s.status = .run then k else .next s

/-- A form that exists only when PWM = `mode` (R52, R56; log 11). -/
def inMode (mode : Bool) (s : State) (k : Host.Outcome State Fault Refusal) : Host.Outcome State Fault Refusal :=
  if s.pwm = mode then k else .fault .formAbsentInMode

/-- The two bits of STATUS (R21). -/
def statusBits : Status → BitVec 2
  | .idle => 0#2
  | .run => 1#2
  | .done => 2#2
  | .fault => 3#2

/-- The code of a fault (R130). -/
def faultCode : FaultName → BitVec 3
  | .truncatedInput => 1#3
  | .outputOverflow => 2#3
  | .invalidOffset => 3#3
  | .uintOverflow => 4#3

/-- The three bits of CAUSE (R22): 0 is none, 5 to 7 never occur. -/
def causeBits : Option FaultName → BitVec 3
  | none => 0#3
  | some f => faultCode f

end Sys2Proof.Machine
end

