-- ==== Sys2Proof/Machine/HostInterface.lean ====
section
/-! DEFINITION. The host interface (spec 45_host_interface.md): START, the host's writes, and what it reads. -/

namespace Sys2Proof.Machine

/-- START (R120): accepted when STATUS is IDLE, DONE or FAULT; refused while STATUS = RUN (R124). -/
def execStart (s : State) : Host.Outcome State Fault Refusal :=
  if s.status = .run then .refused .startWhileRunning else .next (startCall s)

/-- A write of the host, made while STATUS is not RUN (R23, R26, R123). -/
def hostWrite (w : HostWrite) (s : State) : State :=
  match w with
  | .inLen v => s.setInLen v
  | .outCap v => s.setOutCap v
  | .inByte a b => s.setInMem (Memory.write s.inMem a.toNat b)
  | .outByte a b => s.setOutMem (Memory.write s.outMem a.toNat b)

/-- What a host reads in a register (R17, R18, R21 to R23, R122, R138): STATUS always; the others
only while STATUS is not RUN, when a run has no observer (R104, R123; log 23). -/
def hostRead (r : HostReg) (s : State) : Option Word :=
  match r with
  | .status => some ((statusBits s.status).setWidth 32)
  | .cause => if s.status = .run then none else some ((causeBits s.cause).setWidth 32)
  | .inLen => if s.status = .run then none else some s.inLen
  | .outCap => if s.status = .run then none else some s.outCap
  | .inPos => if s.status = .run then none else some s.inPos
  | .outPos => if s.status = .run then none else some s.outPos

/-- What a host reads in a byte of OUT (R122, R123). -/
def hostReadOut (a : Word) (s : State) : Option Byte :=
  if s.status = .run then none else some (s.readOut a.toNat)

/-- The result of a call that reached END (R122): OUT bytes 0 to OUT_POS - 1, whose number is the
byte count; none when STATUS is not DONE. -/
def resultBytes (s : State) : Option (List Byte) :=
  if s.status = .done then some ((List.range s.outPos.toNat).map s.readOut) else none

end Sys2Proof.Machine
end

