-- ==== Sys2Proof/Machine/BitPredictor.lean ====
section
/-! DEFINITION. The Bit Predictor (spec 40_bit_predictor.md): renormalisation (R70), the split of CODE and the
probability update (R71, R72), and the meaning of the table's row DECODE_BIT. The arithmetic is exact,
on naturals, and narrowed once (R73; log 15). -/

namespace Sys2Proof.Machine

/-- The update after a 1: p + ((264 - p) >> 4) (R72). -/
def probUp (p : Byte) : Byte :=
  BitVec.ofNat 8 (p.toNat + ((Config.adaptUpBias - p.toNat) >>> Config.adaptShift))

/-- The update after a 0: p - ((p + 8) >> 4) (R72). -/
def probDown (p : Byte) : Byte :=
  BitVec.ofNat 8 (p.toNat - ((p.toNat + Config.adaptDnBias) >>> Config.adaptShift))

/-- The entry after a decision (R71 steps 4, 5). -/
def adapt (p : Byte) (bit : Bool) : Byte := if bit then probUp p else probDown p

/-- high = CODE >> 8 (R13). -/
def codeHigh (code : Word) : Nat := code.toNat >>> 8

/-- low = CODE & 0xFF (R13). -/
def codeLow (code : Word) : Nat := code.toNat &&& 255

/-- The decision: 1 exactly when low < prob (R71). -/
def decision (code : Word) (p : Byte) : Bool := decide (codeLow code < p.toNat)

/-- CODE after the decision (R71 steps 4, 5). -/
def codeAfter (code : Word) (p : Byte) : Word :=
  if decision code p then BitVec.ofNat 32 (codeLow code + codeHigh code * p.toNat)
  else BitVec.ofNat 32 (code.toNat - p.toNat * (codeHigh code + 1))

/-- One refill: CODE <- (CODE << 8) | byte (R31, R70). -/
def refill (b : Byte) (s : State) : State :=
  s.setCode (BitVec.ofNat 32 ((s.code.toNat <<< Config.refillBits) ||| b.toNat))

/-- The renormalise loop with at most `n` refills; with none left no byte of IN is left either (log 19). -/
def renormaliseWithin : Nat → State → Res State Unit
  | 0, s =>
    if s.code.toNat < Config.renormLimit then .raise .truncatedInput s else .ok () s
  | n + 1, s =>
    if s.code.toNat < Config.renormLimit then
      (nextByte s).andThen fun b s1 => renormaliseWithin n (refill b s1)
    else .ok () s

/-- while CODE < 4096 do CODE <- (CODE << 8) | NextByte() (R70). -/
def renormalise (s : State) : Res State Unit :=
  renormaliseWithin (s.inLen.toNat - s.inPos.toNat) s

/-- Steps 2 to 6 of R71: the state after a decision at `ctx`. -/
def decide1 (ctx : Nat) (s : State) : State :=
  (s.setCode (codeAfter s.code (s.getProb ctx))).setProb ctx
    (adapt (s.getProb ctx) (decision s.code (s.getProb ctx)))

/-- DECODE_BIT(ctx) (R71). -/
def decodeBit (ctx : Nat) (s : State) : Res State Bool :=
  (renormalise s).andThen fun _ s1 =>
    .ok (decision s1.code (s1.getProb ctx)) (decide1 ctx s1)

/-- The table's row DECODE_BIT, executed on its own. -/
def execDecodeBit (ctx : Fin Config.nprobs) (s : State) : Host.Outcome State Fault Refusal :=
  whileRunning s <|
    settleValue ((decodeBit ctx.val s).andThen fun b s1 => .ok b.toNat s1)

end Sys2Proof.Machine
end

