-- ==== Sys2Proof/Machine/Operands.lean ====
section
/-! DEFINITION. Operand forms: the context of each decision (spec 30_encoding.md R53, R54; 41_integer_decoder.md R81;
42_literal_tree.md R91) and the assembly of operands from decisions (R55). -/

namespace Sys2Proof.Machine

/-- Context of the continue bit of position `i`: base + 2i (R81). -/
def continueCtx (base i : Nat) : Nat := base + 2 * i

/-- Context of the value bit of position `i`: base + 2i + 1 (R81). -/
def valueCtx (base i : Nat) : Nat := base + 2 * i + 1

/-- Context of node `n` of the literal tree: CTX_LIT - 1 + n (R91). -/
def nodeCtx (cfg : Config) (n : Nat) : Nat := cfg.ctxLit - 1 + n

/-- The child of a tree node, "doubling-and-adding" (R90). -/
def childNode (node : Nat) (b : Bool) : Nat := (node <<< 1) ||| b.toNat

/-- Drop the leading 1 of a leaf: node & 0xFF (R90). -/
def leafByte (node : Nat) : Byte := BitVec.ofNat 8 (node &&& 255)

/-- Fold value bit `d` of position `pos` into the magnitude, in either order (R80, R82). -/
def foldValueBit (order : BitOrder) (magnitude pos : Nat) (d : Bool) : Nat :=
  match order with
  | .msbFirst => (magnitude <<< 1) ||| d.toNat
  | .lsbFirst => magnitude ||| (d.toNat <<< pos)

/-- The decoded value: (1 << n) | magnitude (R55, R80). -/
def uintValue (pos magnitude : Nat) : Nat := (1 <<< pos) ||| magnitude

/-- OFFSET <- value - 1 (R55, R98). -/
def offsetOfValue (v : Nat) : Word := BitVec.ofNat 32 (v - 1)

/-- The length is the decoded value, no bias (R55, R101). -/
def lengthOfValue (v : Nat) : Word := BitVec.ofNat 32 v

/-- The base of an integer region (R5, R80). -/
def uintBase (cfg : Config) (b : UintBase) : Nat :=
  match b with
  | .off => cfg.ctxOff
  | .len => cfg.ctxLen

end Sys2Proof.Machine
end

