-- ==== Sys2Proof/WellFormed.lean ====
section
/-! DEFINITION. Which instructions are well formed (operand ranges of spec 30_encoding.md R55 and
44_copy_engine.md R110) and in which mode a symbol form exists (R52, R56). -/

namespace Sys2Proof

namespace Instr

/-- A new offset is 1 to 2^32 - 2 (R55). -/
def offsetOk (offset : Word) : Bool := 1 ≤ offset.toNat && offset.toNat ≤ 2 ^ 32 - 2

/-- A length is 1 to 2^32 - 1 (R55). -/
def lengthOk (length : Word) : Bool := 1 ≤ length.toNat

/-- The operands are in the ranges the spec gives them. COPY_MATCH may be handed offset 0, the
START value of OFFSET (R110, R111). -/
def wf : Instr → Bool
  | lit _ => true
  | matchnPwm0 offset length => offsetOk offset && lengthOk length
  | matchnPwm1 offset length => offsetOk offset && lengthOk length
  | matchr length => lengthOk length
  | endPwm0 => true
  | endPwm1 => true
  | decodeBit _ => true
  | decodeUint _ => true
  | decodeLiteral => true
  | copyMatch offset length => offset.toNat ≤ 2 ^ 32 - 2 && lengthOk length
  | start => true

/-- The stream symbols, column "when" of R52: does this form exist when PWM has this value?
False of the micro-operations and of START, which are not stream symbols. -/
def existsInMode : Instr → Bool → Bool
  | lit _, _ => true
  | matchnPwm0 _ _, pwm => !pwm
  | matchnPwm1 _ _, pwm => pwm
  | matchr _, pwm => !pwm
  | endPwm0, pwm => !pwm
  | endPwm1, pwm => pwm
  | decodeBit _, _ => false
  | decodeUint _, _ => false
  | decodeLiteral, _ => false
  | copyMatch _ _, _ => false
  | start, _ => false

end Instr

end Sys2Proof
end

