-- ==== Sys2Proof/Decode.lean ====
section
/-! DEFINITION. The decoder of the compressed stream and its encoder (spec 30_encoding.md). The grammar is written
once, over any source of decisions: a decision string (the decision layer of R50), or the machine's
Bit Predictor (the byte layer). -/

namespace Sys2Proof

open Machine

/-! ### The grammar, over any source of decisions -/

/-- A source of decisions: `bit ctx` is the decision at context `ctx`; `newOffset` is told a new
offset as soon as it is decoded, before the length (R98). -/
structure Source (σ : Type) where
  bit : Nat → σ → Res σ Bool
  newOffset : Word → σ → σ

/-- DECODE_UINT from position `pos` on, with `left` positions left; UintOverflow when none is (R80, R83). -/
def readUintFrom {σ : Type} (order : BitOrder) (src : Source σ) (base : Nat) :
    (left pos magnitude : Nat) → σ → Res σ Nat
  | 0, _, _, s => .raise .uintOverflow s
  | left + 1, pos, magnitude, s =>
    (src.bit (continueCtx base pos) s).andThen fun c s1 =>
      if c then
        (src.bit (valueCtx base pos) s1).andThen fun d s2 =>
          readUintFrom order src base left (pos + 1) (foldValueBit order magnitude pos d) s2
      else .ok (uintValue pos magnitude) s1

/-- DECODE_UINT(base): the integer code U(base) (R53, R80). -/
def readUint {σ : Type} (order : BitOrder) (src : Source σ) (base : Nat) (s : σ) : Res σ Nat :=
  readUintFrom order src base Config.uintMaxPos 0 0 s

/-- `k` more levels of the literal tree from `node` (R90). -/
def readTree {σ : Type} (cfg : Config) (src : Source σ) : (k node : Nat) → σ → Res σ Nat
  | 0, node, s => .ok node s
  | k + 1, node, s =>
    (src.bit (nodeCtx cfg node) s).andThen fun b s1 => readTree cfg src k (childNode node b) s1

/-- DECODE_LITERAL(): the tree-coded byte T (R54, R90). -/
def readLiteral {σ : Type} (cfg : Config) (src : Source σ) (s : σ) : Res σ Byte :=
  (readTree cfg src Config.litDepth 1 s).andThen fun node s1 => .ok (leafByte node) s1

/-- The length of a match (R101). -/
def readLength {σ : Type} (cfg : Config) (src : Source σ) (s : σ) : Res σ Word :=
  (readUint cfg.order src cfg.ctxLen s).andThen fun v s1 => .ok (lengthOfValue v) s1

/-- NEW_OFFSET (R98, R99): END on the value 1, else a new offset and a length. -/
def readNewOffset {σ : Type} (cfg : Config) (src : Source σ) (pwm : Bool) (s : σ) : Res σ Instr :=
  (readUint cfg.order src cfg.ctxOff s).andThen fun v s1 =>
    if v = Config.endValue then .ok (if pwm then .endPwm1 else .endPwm0) s1
    else
      (readLength cfg src (src.newOffset (offsetOfValue v) s1)).andThen fun l s2 =>
        .ok (if pwm then .matchnPwm1 (offsetOfValue v) l else .matchnPwm0 (offsetOfValue v) l) s2

/-- The match group after the selector (R97): with PWM = 1 a new offset is mandatory and no decision
is read; with PWM = 0 the decision at CTX_OFFSEL chooses. -/
def readMatch {σ : Type} (cfg : Config) (src : Source σ) (pwm : Bool) (s : σ) : Res σ Instr :=
  if pwm then readNewOffset cfg src pwm s
  else
    (src.bit cfg.ctxOffsel s).andThen fun new s1 =>
      if new then readNewOffset cfg src pwm s1
      else (readLength cfg src s1).andThen fun l s2 => .ok (.matchr l) s2

/-- One symbol, from SELECT (R52, R95). -/
def readSymbol {σ : Type} (cfg : Config) (src : Source σ) (pwm : Bool) (s : σ) : Res σ Instr :=
  (src.bit cfg.ctxSel s).andThen fun sel s1 =>
    if sel then readMatch cfg src pwm s1
    else (readLiteral cfg src s1).andThen fun b s2 => .ok (.lit b) s2

/-! ### The decision layer -/

/-- A decision: its context and its bit (R50). -/
abbrev Decision := Nat × Bool

/-- A decision string being read: the bits left, and the decisions made so far, oldest first. -/
structure DecString where
  left : List Bool
  made : List Decision
  deriving DecidableEq, Repr

/-- Reading a decision string; a string that ends inside a symbol is rejected as TruncatedInput. -/
def stringSource : Source DecString where
  bit ctx s :=
    match s.left with
    | [] => .raise .truncatedInput s
    | b :: r => .ok b { left := r, made := s.made ++ [(ctx, b)] }
  newOffset _ s := s

/-- The decoder at the decision layer, total on any string of bits: the symbol at its head with the
contexts of its decisions and the rest of the string, or a rejection by name. -/
def decodeString (cfg : Config) (pwm : Bool) (bits : List Bool) : Res DecString Instr :=
  readSymbol cfg stringSource pwm { left := bits, made := [] }

/-! ### The byte layer -/

/-- The machine's Bit Predictor as a source of decisions (R50, R71). -/
def machineSource : Source State where
  bit := decodeBit
  newOffset o s := s.setOffset o

/-- A state at the start of a call whose IN holds these bytes from index 0 (R37, R120). -/
def freshCall (bytes : List Byte) (s : State) : State :=
  startCall ((s.setInMem (Memory.writeList bytes 0 [])).setInLen (BitVec.ofNat 32 bytes.length))

/-- The decoder at the byte layer, total on any bytes: the first symbol of a stream, or a rejection by name. -/
def decodeBytes (bytes : List Byte) : Res State Instr :=
  readSymbol Config.upkr machineSource false (freshCall bytes State.reset)

/-- Zero bytes laid after the given ones: at least as many as the longest symbol reads at the start
of a call (128 decisions of at most one bit each and the priming bytes; log 10). -/
def padBytes : Nat := 32

/-- The bytes of `w`, least significant first, then zeros. -/
def tableBytes (nbits w : Nat) : List Byte :=
  (List.range (nbits / 8 + padBytes)).map fun i => BitVec.ofNat 8 (w >>> (8 * i))

/-- What the decoder reads from those bytes, as the first symbol of a stream (log 10). -/
def decodeTableWord (nbits w : Nat) : Option Instr :=
  match decodeBytes (tableBytes nbits w) with
  | .ok i _ => some i
  | .raise _ _ => none

/-! ### The encoder: the decision string of a symbol -/

/-- Value bit `i` of an `n`-bit tail of `v` (R53). -/
def valueBit (order : BitOrder) (v n i : Nat) : Bool :=
  match order with
  | .msbFirst => v.testBit (n - 1 - i)
  | .lsbFirst => v.testBit i

/-- The pairs (continue bit 1, value bit) of positions `i`, …, `i + k - 1` (R53). -/
def uintPairs (order : BitOrder) (base v n : Nat) : (k i : Nat) → List Decision
  | 0, _ => []
  | k + 1, i =>
    (continueCtx base i, true) :: (valueCtx base i, valueBit order v n i) :: uintPairs order base v n k (i + 1)

/-- U(base) of `v` (R53): n pairs and a final continue bit 0, with n = floor(log2 v). -/
def encodeUint (order : BitOrder) (base v : Nat) : List Decision :=
  uintPairs order base v v.log2 v.log2 0 ++ [(continueCtx base v.log2, false)]

/-- T of `b` (R54): decision k at node (1 << k) | (b >> (8 - k)), bit 7 first. -/
def encodeLiteral (cfg : Config) (b : Byte) : List Decision :=
  (List.range Config.litDepth).map fun k =>
    (nodeCtx cfg ((1 <<< k) ||| (b.toNat >>> (8 - k))), b.toNat.testBit (7 - k))

/-- The decision string of a stream symbol (R52); none for the rows without a stream encoding. -/
def encodeSymbol (cfg : Config) : Instr → Option (List Decision)
  | .lit b => some ((cfg.ctxSel, false) :: encodeLiteral cfg b)
  | .matchnPwm0 o l =>
    some ((cfg.ctxSel, true) :: (cfg.ctxOffsel, true) ::
      (encodeUint cfg.order cfg.ctxOff (o.toNat + 1) ++ encodeUint cfg.order cfg.ctxLen l.toNat))
  | .matchnPwm1 o l =>
    some ((cfg.ctxSel, true) ::
      (encodeUint cfg.order cfg.ctxOff (o.toNat + 1) ++ encodeUint cfg.order cfg.ctxLen l.toNat))
  | .matchr l =>
    some ((cfg.ctxSel, true) :: (cfg.ctxOffsel, false) :: encodeUint cfg.order cfg.ctxLen l.toNat)
  | .endPwm0 =>
    some ((cfg.ctxSel, true) :: (cfg.ctxOffsel, true) :: encodeUint cfg.order cfg.ctxOff Config.endValue)
  | .endPwm1 => some ((cfg.ctxSel, true) :: encodeUint cfg.order cfg.ctxOff Config.endValue)
  | .decodeBit _ => none
  | .decodeUint _ => none
  | .decodeLiteral => none
  | .copyMatch _ _ => none
  | .start => none

/-- `encode`: the words of a well-formed instruction, on this hardware its decision string. -/
def encode (i : Instr) : Option (List Decision) := encodeSymbol Config.upkr i

/-! ### The encoder at the byte layer (95_test_vectors.md section 7, informative; log 21) -/

/-- The inverse of the split of CODE: the value whose decision at `p` is `bit` and leaves `x` (R75). -/
def unsplit (x p : Nat) (bit : Bool) : Nat :=
  if bit then (x / p) * 256 + x % p
  else (x / (256 - p)) * 256 + x % (256 - p) + p

/-- The share of 256 that `bit` has at probability `p`. -/
def bitShare (p : Nat) (bit : Bool) : Nat := if bit then p else 256 - p

/-- The coder's state before a decision and the bytes shifted out for it and for those after it. -/
def encodeFrom (probs : Nat → Byte) : List Decision → Nat × List Byte
  | [] => (Config.renormLimit, [])
  | (c, b) :: ds =>
    let p := probs c
    let rest := encodeFrom (fun i => if i = c then adapt p b else probs i) ds
    if Config.renormLimit * bitShare p.toNat b ≤ rest.1 then
      (unsplit (rest.1 >>> 8) p.toNat b, BitVec.ofNat 8 rest.1 :: rest.2)
    else (unsplit rest.1 p.toNat b, rest.2)

/-- The coder's state, big-endian, in two or three bytes. -/
def flushBytes (x : Nat) : List Byte :=
  if x < 65536 then [BitVec.ofNat 8 (x >>> 8), BitVec.ofNat 8 x]
  else [BitVec.ofNat 8 (x >>> 16), BitVec.ofNat 8 (x >>> 8), BitVec.ofNat 8 x]

/-- Bytes of IN that the machine, started on them, reads as these decisions. -/
def encodeBytes (ds : List Decision) : List Byte :=
  let r := encodeFrom (fun _ => Config.probInit) ds
  flushBytes r.1 ++ r.2

end Sys2Proof
end

