-- ==== Sys2Proof/Machine/IntegerDecoder.lean ====
section
/-! DEFINITION. The Integer Decoder (spec 41_integer_decoder.md): DECODE_UINT on the machine and the meaning of the table's row. -/

namespace Sys2Proof.Machine

/-- DECODE_UINT(base) (R80). -/
def decodeUint (base : UintBase) (s : State) : Res State Nat :=
  readUint Config.upkr.order machineSource (uintBase Config.upkr base) s

/-- The table's row DECODE_UINT, executed on its own. -/
def execDecodeUint (base : UintBase) (s : State) : Host.Outcome State Fault Refusal :=
  whileRunning s <| settleValue (decodeUint base s)

end Sys2Proof.Machine
end

