-- ==== Sys2Proof/Machine/LiteralTree.lean ====
section
/-! DEFINITION. The Literal Tree Decoder (spec 42_literal_tree.md): DECODE_LITERAL on the machine and the meaning of the table's row. -/

namespace Sys2Proof.Machine

/-- DECODE_LITERAL() (R90). -/
def decodeLiteral (s : State) : Res State Byte := readLiteral Config.upkr machineSource s

/-- The table's row DECODE_LITERAL, executed on its own. -/
def execDecodeLiteral (s : State) : Host.Outcome State Fault Refusal :=
  whileRunning s <| settleValue ((decodeLiteral s).andThen fun b s1 => .ok b.toNat s1)

end Sys2Proof.Machine
end

