-- ==== Sys2Proof/Machine/CopyEngine.lean ====
section
/-! DEFINITION. The Copy Engine (spec 44_copy_engine.md). -/

namespace Sys2Proof.Machine

/-- `n` iterations of the copy, one byte at a time in increasing index order (R110, R112). -/
def copyBytes (offset : Word) : Nat → State → State
  | 0, s => s
  | n + 1, s => copyBytes offset n (putByte (s.readOut (s.outPos.toNat - offset.toNat)) s)

/-- COPY_MATCH(offset, length) (R110): both checks, in this order, before any byte moves (R111). -/
def copyMatch (offset length : Word) (s : State) : Res State Unit :=
  if offset.toNat = 0 ∨ s.outPos.toNat < offset.toNat then .raise .invalidOffset s
  else if s.outCap.toNat < s.outPos.toNat + length.toNat then .raise .outputOverflow s
  else .ok () (copyBytes offset length.toNat s)

/-- The table's row COPY_MATCH, executed on its own. -/
def execCopyMatch (offset length : Word) (s : State) : Host.Outcome State Fault Refusal :=
  whileRunning s <| settle (copyMatch offset length s)

end Sys2Proof.Machine
end

