-- ==== Sys2Proof/Machine/SymbolGrammar.lean ====
section
/-! DEFINITION. The symbols (spec 43_symbol_grammar.md): fetching one from the stream, and what each does once its
decisions have been read. The decisions themselves are read by the fetch (log 9). -/

namespace Sys2Proof.Machine

/-- Fetch: read the decisions of the next symbol from IN, in the mode PWM selects (R95 to R101). -/
def fetchSymbol (s : State) : Res State Instr := readSymbol Config.upkr machineSource s.pwm s

/-- The common tail of the matches: COPY_MATCH(OFFSET, length); PWM <- 1 (R101). -/
def matchTail (length : Word) (s : State) : Res State Unit :=
  (copyMatch s.offset length s).andThen fun _ s1 => .ok () (raisePwm s1)

/-- A match with a new offset: OFFSET <- offset, then the tail (R98, R101). -/
def newMatch (offset length : Word) (s : State) : Res State Unit :=
  matchTail length (s.setOffset offset)

/-- LIT: Emit(byte); PWM <- 0 (R96). -/
def execLit (b : Byte) (s : State) : Host.Outcome State Fault Refusal :=
  whileRunning s <| settle ((emit b s).andThen fun _ s1 => .ok () (clearPwm s1))

/-- MATCHN when PWM = 0 (R98, R101). -/
def execMatchnPwm0 (offset length : Word) (s : State) : Host.Outcome State Fault Refusal :=
  whileRunning s <| inMode false s <| settle (newMatch offset length s)

/-- MATCHN when PWM = 1 (R98, R101). -/
def execMatchnPwm1 (offset length : Word) (s : State) : Host.Outcome State Fault Refusal :=
  whileRunning s <| inMode true s <| settle (newMatch offset length s)

/-- MATCHR: the offset is "reused verbatim" (R100, R101). -/
def execMatchr (length : Word) (s : State) : Host.Outcome State Fault Refusal :=
  whileRunning s <| inMode false s <| settle (matchTail length s)

/-- END when PWM = 0: STATUS <- DONE (R99). -/
def execEndPwm0 (s : State) : Host.Outcome State Fault Refusal :=
  whileRunning s <| inMode false s <| .next (s.setStatus .done)

/-- END when PWM = 1: STATUS <- DONE (R99). -/
def execEndPwm1 (s : State) : Host.Outcome State Fault Refusal :=
  whileRunning s <| inMode true s <| .next (s.setStatus .done)

end Sys2Proof.Machine
end

