-- ==== Sys2Proof/Machine/Dispatch.lean ====
section
/-! DEFINITION. One arm per row of the opcode table. -/

namespace Sys2Proof.Machine

def exec (i : Instr) (s : State) : Host.Outcome State Fault Refusal :=
  match i with
  | .lit b => Sys2Proof.Machine.execLit b s
  | .matchnPwm0 offset length => Sys2Proof.Machine.execMatchnPwm0 offset length s
  | .matchnPwm1 offset length => Sys2Proof.Machine.execMatchnPwm1 offset length s
  | .matchr length => Sys2Proof.Machine.execMatchr length s
  | .endPwm0 => Sys2Proof.Machine.execEndPwm0 s
  | .endPwm1 => Sys2Proof.Machine.execEndPwm1 s
  | .decodeBit ctx => Sys2Proof.Machine.execDecodeBit ctx s
  | .decodeUint base => Sys2Proof.Machine.execDecodeUint base s
  | .decodeLiteral => Sys2Proof.Machine.execDecodeLiteral s
  | .copyMatch offset length => Sys2Proof.Machine.execCopyMatch offset length s
  | .start => Sys2Proof.Machine.execStart s

end Sys2Proof.Machine
end

