-- ==== Sys2Proof/Machine/Step.lean ====
section
/-! DEFINITION. One step of the machine (spec 43_symbol_grammar.md R95, R104; 45_host_interface.md). -/

namespace Sys2Proof.Machine

/-- While STATUS = RUN one symbol is executed: its decisions are read from IN, then its effect
happens, or the fault its reading raised is taken (R104, R136). Otherwise the decoder does nothing
(R150) and the oldest pending move of the host lands, if there is one (R120, R123; log 6). -/
def step (s : State) : Host.Outcome State Fault Refusal :=
  if s.status = .run then
    match fetchSymbol s with
    | .ok i s1 => exec i s1
    | .raise f s1 => .next (takeFault f s1)
  else
    match s.hostQ with
    | [] => .next s
    | .start :: q => exec .start (s.setHostQ q)
    | .write w :: q => .next (hostWrite w (s.setHostQ q))

/-- `s` at the start of a call whose IN holds the bytes of `w` from index 0, then zeros: the load of
a stream and START (log 7, log 10). OUT_CAP, OUT and the host's moves stay as they are. -/
def State.withFetchWord (s : State) (nbits w : Nat) : State := freshCall (tableBytes nbits w) s

end Sys2Proof.Machine
end

