-- ==== Sys2Proof/Safety.lean ====
section
/-! DEFINITION. The terms claims use: the invariant of the machine, the decisions a state goes through, runs, and
when two calls look the same. -/

namespace Sys2Proof.Machine

/-- From START on and not ended by a fault: the states in which the decoder's registers mean
something (spec 10_state.md R12, R14; 60_exceptions.md R138). -/
def Live (s : State) : Prop := s.status = .run ∨ s.status = .done

/-- The invariant every step keeps. -/
structure Inv (s : State) : Prop where
  /-- IN is in canonical form. -/
  inMem : Memory.wf s.inMem = true
  /-- OUT is in canonical form. -/
  outMem : Memory.wf s.outMem = true
  /-- Every entry of PROBS is one of 7 to 249 (R12). -/
  probs : Live s → ∀ i, i < Config.nprobs → 7 ≤ (s.getProb i).toNat ∧ (s.getProb i).toNat ≤ 249
  /-- CODE is below 2^20 (R14). -/
  code : Live s → s.code.toNat < 2 ^ 20
  /-- OFFSET is 0 to 2^32 - 2 (R15, R98). -/
  offset : Live s → s.offset.toNat ≤ 2 ^ 32 - 2
  /-- After a completed match OFFSET reaches back into the bytes already written (R101, R111). -/
  match_offset : Live s → s.pwm = true → 1 ≤ s.offset.toNat ∧ s.offset.toNat ≤ s.outPos.toNat
  /-- IN_POS is bounded by IN_LEN during a run (R17). -/
  inPos : s.status = .run → s.inPos.toNat ≤ s.inLen.toNat
  /-- OUT_POS never exceeds OUT_CAP during a run (R18). -/
  outPos : s.status = .run → s.outPos.toNat ≤ s.outCap.toNat
  /-- CAUSE is none from START on (R22). -/
  cause_live : Live s → s.cause = none
  /-- CAUSE names the fault that ended the call (R22). -/
  cause_fault : s.status = .fault → s.cause ≠ none

/-- DECODE_BIT at each of these contexts in turn gives these bits: the state after them, if so. -/
def follow : List Decision → State → Option State
  | [], s => some s
  | (c, b) :: ds, s =>
    match decodeBit c s with
    | .ok b' s1 => if b' = b then follow ds s1 else none
    | .raise _ _ => none

/-- Where the fetch leaves the machine after a symbol's decisions: a new offset is in OFFSET (R98). -/
def afterFetch (i : Instr) (s : State) : State :=
  match i with
  | .matchnPwm0 o _ => s.setOffset o
  | .matchnPwm1 o _ => s.setOffset o
  | .lit _ => s
  | .matchr _ => s
  | .endPwm0 => s
  | .endPwm1 => s
  | .decodeBit _ => s
  | .decodeUint _ => s
  | .decodeLiteral => s
  | .copyMatch _ _ => s
  | .start => s

/-- At most `n` symbols of a run: it stops as soon as STATUS leaves RUN (R95). -/
def runSymbols : Nat → State → State
  | 0, s => s
  | n + 1, s =>
    if s.status = .run then
      match step s with
      | .next t => runSymbols n t
      | .fault _ => s
      | .refused _ => s
    else s

/-- The next `n` bytes of IN exist and none of them is 0. -/
def NonzeroInput (n : Nat) (s : State) : Prop :=
  s.inPos.toNat + n ≤ s.inLen.toNat ∧ ∀ j, j < n → s.readIn (s.inPos.toNat + j) ≠ 0#8

/-- Two states of calls that nothing told so far can tell apart: the same STATUS and CAUSE, and, unless
a fault has ended them (R138), the same registers and the same bytes written. -/
def SameCall (s t : State) : Prop :=
  s.status = t.status ∧ s.cause = t.cause ∧
  (s.status ≠ .fault →
    s.probs = t.probs ∧ s.code = t.code ∧ s.inPos = t.inPos ∧ s.outPos = t.outPos ∧
    s.offset = t.offset ∧ s.pwm = t.pwm ∧
    ∀ a, a < s.outPos.toNat → s.readOut a = t.readOut a)

end Sys2Proof.Machine
end

