-- ==== Sys2Proof/Certificates/Slice0/Obligations.lean ====
section
/-! DEFINITION. The statements for the provers, from the numbered rules of the spec. -/

open Sys2Proof Sys2Proof.Machine

/-! ### Reset, the host and START -/

/-- 70_reset_and_hazards.md section 1: STATUS = IDLE after power-on reset, and the machine stays there
until the host moves. -/
def Obligations.ResetIsIdle : Prop :=
  State.reset.status = .idle ∧ statusBits State.reset.status = 0#2 ∧ step State.reset = .next State.reset

/-- The invariant holds at reset; it claims nothing of the reset values the model chose (log 1) but that the two
empty memories are in canonical form. -/
def Obligations.InvariantHoldsAtReset : Prop := Inv State.reset

/-- "The decoder does nothing while STATUS is not RUN" (R150). That an instruction other than START,
executed then, leaves the state unchanged is the model's reading of it (log 12). -/
def Obligations.NothingActsOutsideRun : Prop :=
  ∀ s : State, s.status ≠ .run →
    (s.hostQ = [] → step s = .next s) ∧ ∀ i : Instr, i ≠ .start → exec i s = .next s

/-- The host's writes, made while STATUS is not RUN (R23, R26): each changes what it names and nothing
else. The queue they come from is the model's own (log 6). -/
def Obligations.HostMovesLandOutsideRun : Prop :=
  ∀ (s : State) (q : List HostCmd), s.status ≠ .run →
    (∀ v, s.hostQ = .write (.inLen v) :: q → step s = .next { s with hostQ := q, inLen := v }) ∧
    (∀ v, s.hostQ = .write (.outCap v) :: q → step s = .next { s with hostQ := q, outCap := v }) ∧
    (∀ a b, s.hostQ = .write (.inByte a b) :: q → Memory.wf s.inMem = true →
      ∃ t, step s = .next t ∧ t = { s with hostQ := q, inMem := t.inMem } ∧
        ∀ x, t.readIn x = if x = a.toNat then b else s.readIn x) ∧
    (∀ a b, s.hostQ = .write (.outByte a b) :: q → Memory.wf s.outMem = true →
      ∃ t, step s = .next t ∧ t = { s with hostQ := q, outMem := t.outMem } ∧
        ∀ x, t.readOut x = if x = a.toNat then b else s.readOut x) ∧
    (s.hostQ = .start :: q → step s = exec .start { s with hostQ := q })

/-- R151: what START leaves; IN_LEN, OUT_CAP and both memories are as the host left them. RET is the model's own
(log 22) and nothing is said of it. -/
def Obligations.StartInitialisesTheCall : Prop :=
  ∀ s : State, s.status ≠ .run →
    ∃ t, exec .start s = .next t ∧
      (∀ i, i < 385 → t.getProb i = 128#8) ∧
      t = { s with probs := t.probs, code := 0#32, inPos := 0#32, outPos := 0#32, offset := 0#32,
                   pwm := false, cause := none, status := .run, ret := t.ret }

/-- R124 (the spec's decision D17): START while STATUS = RUN is refused, and no step of the machine gets there. -/
def Obligations.StartWhileRunningIsRefused : Prop :=
  (∀ s : State, s.status = .run → exec .start s = .refused .startWhileRunning) ∧
  ∀ s r, step s ≠ .refused r

/-! ### The Bit Predictor -/

/-- R72: the two update laws, their ranges and fixed points, the selected values, and the two sequences from
128: strictly monotone for 42 updates, by one a step from the 28th on, and constant after. -/
def Obligations.ProbabilityUpdateLaws : Prop :=
  (∀ p : Byte, 1 ≤ p.toNat →
    9 ≤ 264 - p.toNat ∧ 264 - p.toNat ≤ 263 ∧
    (probUp p).toNat = p.toNat + (264 - p.toNat) / 16 ∧ (probDown p).toNat = p.toNat - (p.toNat + 8) / 16 ∧
    p.toNat ≤ (probUp p).toNat ∧ 1 ≤ (probDown p).toNat ∧ (probDown p).toNat ≤ p.toNat ∧
    (probUp p = p ↔ 249 ≤ p.toNat) ∧ (probDown p = p ↔ p.toNat ≤ 7)) ∧
  (∀ p q : Byte, p.toNat ≤ q.toNat →
    (probUp p).toNat ≤ (probUp q).toNat ∧ (probDown p).toNat ≤ (probDown q).toNat) ∧
  [1#8, 7#8, 8#8, 120#8, 127#8, 128#8, 136#8, 248#8, 249#8, 255#8].map probUp =
    [17#8, 23#8, 24#8, 129#8, 135#8, 136#8, 144#8, 249#8, 249#8, 255#8] ∧
  [1#8, 7#8, 8#8, 120#8, 127#8, 128#8, 136#8, 248#8, 249#8, 255#8].map probDown =
    [1#8, 7#8, 7#8, 112#8, 119#8, 120#8, 127#8, 232#8, 233#8, 239#8] ∧
  (List.range 29).map (fun n => (probUp^[n] 128#8).toNat) =
    [128, 136, 144, 151, 158, 164, 170, 175, 180, 185, 189, 193, 197, 201, 204, 207, 210, 213, 216, 219, 221,
      223, 225, 227, 229, 231, 233, 234, 235] ∧
  (List.range 29).map (fun n => (probDown^[n] 128#8).toNat) =
    [128, 120, 112, 105, 98, 92, 86, 81, 76, 71, 67, 63, 59, 55, 52, 49, 46, 43, 40, 37, 35, 33, 31, 29, 27, 25,
      23, 22, 21] ∧
  (∀ n, (n < 42 → (probUp^[n] 128#8).toNat < (probUp^[n + 1] 128#8).toNat) ∧
    (28 ≤ n → n < 42 → (probUp^[n + 1] 128#8).toNat = (probUp^[n] 128#8).toNat + 1) ∧
    (42 ≤ n → probUp^[n] 128#8 = 249#8)) ∧
  (∀ n, (n < 42 → (probDown^[n + 1] 128#8).toNat < (probDown^[n] 128#8).toNat) ∧
    (28 ≤ n → n < 42 → (probDown^[n + 1] 128#8).toNat + 1 = (probDown^[n] 128#8).toNat) ∧
    (42 ≤ n → probDown^[n] 128#8 = 7#8))

/-- R73 (derived in the spec from R71 and R12): after renormalisation no product, sum or difference overflows
or borrows. -/
def Obligations.DecisionArithmeticIsExact : Prop :=
  ∀ (c : Word) (p : Byte), 4096 ≤ c.toNat → c.toNat < 2 ^ 20 → 1 ≤ p.toNat →
    codeHigh c = c.toNat / 256 ∧ codeLow c = c.toNat % 256 ∧
    16 ≤ c.toNat / 256 ∧ c.toNat / 256 ≤ 4095 ∧
    c.toNat / 256 * p.toNat ≤ 1044225 ∧ p.toNat * (c.toNat / 256 + 1) ≤ 1044480 ∧
    (c.toNat % 256 < p.toNat →
      decision c p = true ∧ (codeAfter c p).toNat = c.toNat % 256 + c.toNat / 256 * p.toNat ∧
      (codeAfter c p).toNat < 2 ^ 20) ∧
    (p.toNat ≤ c.toNat % 256 →
      decision c p = false ∧ p.toNat * (c.toNat / 256 + 1) ≤ c.toNat ∧
      (codeAfter c p).toNat = c.toNat - p.toNat * (c.toNat / 256 + 1) ∧
      (codeAfter c p).toNat = c.toNat / 256 * (256 - p.toNat) + (c.toNat % 256 - p.toNat))

/-- R74 (derived in the spec from R71): every decision strictly decreases CODE, so no more decisions than CODE's value follow one another
without a refill. -/
def Obligations.EveryDecisionShrinksCode : Prop :=
  (∀ (c : Word) (p : Byte), 4096 ≤ c.toNat → 1 ≤ p.toNat →
    (codeAfter c p).toNat < c.toNat ∧
    (decision c p = true → c.toNat / 256 * p.toNat ≤ (codeAfter c p).toNat ∧ 16 ≤ (codeAfter c p).toNat) ∧
    (decision c p = false →
      (codeAfter c p).toNat + p.toNat * (c.toNat / 256 + 1) = c.toNat ∧ 17 ≤ p.toNat * (c.toNat / 256 + 1))) ∧
  ∀ (ds : List Decision) (s t : State), (∀ i, i < 385 → 1 ≤ (s.getProb i).toNat) → (∀ d ∈ ds, d.1 < 385) →
    follow ds s = some t → t.inPos = s.inPos → ds.length ≤ s.code.toNat

/-- R75: for each bit the map of CODE is injective, and together the two maps cover the naturals once. -/
def Obligations.SplitIsReversible : Prop :=
  ∀ p : Byte, 1 ≤ p.toNat →
    (∀ c d : Word, decision c p = decision d p → codeAfter c p = codeAfter d p → c = d) ∧
    ∀ (bit : Bool) (x : Nat), x < 2 ^ 24 → ∃ c : Word, decision c p = bit ∧ (codeAfter c p).toNat = x

/-- R71: DECODE_BIT. With CODE renormalised it decides at once; below 4096 it first takes a byte, or
raises TruncatedInput when there is none, with nothing changed by this call. RET is where the model
puts the bit returned (log 5). -/
def Obligations.DecodeBitDecides : Prop :=
  ∀ (s : State) (ctx : Fin 385), s.status = .run →
    (4096 ≤ s.code.toNat → s.code.toNat % 256 < (s.probs[ctx]).toNat →
      exec (.decodeBit ctx) s = .next { s with
        code := BitVec.ofNat 32 (s.code.toNat % 256 + s.code.toNat / 256 * (s.probs[ctx]).toNat)
        probs := s.probs.set ctx
          (BitVec.ofNat 8 ((s.probs[ctx]).toNat + (264 - (s.probs[ctx]).toNat) / 16))
        ret := 1#32 }) ∧
    (4096 ≤ s.code.toNat → (s.probs[ctx]).toNat ≤ s.code.toNat % 256 →
      exec (.decodeBit ctx) s = .next { s with
        code := BitVec.ofNat 32 (s.code.toNat - (s.probs[ctx]).toNat * (s.code.toNat / 256 + 1))
        probs := s.probs.set ctx
          (BitVec.ofNat 8 ((s.probs[ctx]).toNat - ((s.probs[ctx]).toNat + 8) / 16))
        ret := 0#32 }) ∧
    (s.code.toNat < 4096 → s.inPos.toNat < s.inLen.toNat →
      exec (.decodeBit ctx) s = exec (.decodeBit ctx) { s with
        code := BitVec.ofNat 32 (s.code.toNat * 256 + (s.readIn s.inPos.toNat).toNat)
        inPos := BitVec.ofNat 32 (s.inPos.toNat + 1) }) ∧
    (s.code.toNat < 4096 → s.inLen.toNat ≤ s.inPos.toNat →
      exec (.decodeBit ctx) s = .next (takeFault .truncatedInput s))

/-- R70: how many bytes the renormalise loop takes, by the value of CODE on entry, and that a CODE of 0
with only zero bytes left ends in TruncatedInput. -/
def Obligations.RefillCounts : Prop :=
  ∀ s : State,
    (∀ t, renormalise s = .ok () t →
      t = { s with code := t.code, inPos := t.inPos } ∧ 4096 ≤ t.code.toNat ∧
      (4096 ≤ s.code.toNat → t = s) ∧
      (16 ≤ s.code.toNat → s.code.toNat < 4096 → t.inPos.toNat = s.inPos.toNat + 1) ∧
      (1 ≤ s.code.toNat → s.code.toNat < 16 → t.inPos.toNat = s.inPos.toNat + 2) ∧
      (s.code.toNat = 0 → ∃ k, (∀ j, j < k → s.readIn (s.inPos.toNat + j) = 0#8) ∧
        s.readIn (s.inPos.toNat + k) ≠ 0#8 ∧
        t.inPos.toNat = s.inPos.toNat + k + (if 16 ≤ (s.readIn (s.inPos.toNat + k)).toNat then 2 else 3))) ∧
    (s.code.toNat = 0 → (∀ a, s.inPos.toNat ≤ a → a < s.inLen.toNat → s.readIn a = 0#8) →
      ∃ t, renormalise s = .raise .truncatedInput t)

/-- R14 (derived in the spec from R70 and R74): CODE is below 2^20 at all times from START on (no claim is made after a fault, R138), no refill is
truncated, no decision increases CODE, and 4096 <= CODE < 2^20 directly after the renormalise loop. -/
def Obligations.CodeStaysBelowTwentyBits : Prop :=
  (∀ s t, exec .start s = .next t → t.code.toNat < 2 ^ 20) ∧
  (∀ s t, Live s → s.code.toNat < 2 ^ 20 → step s = .next t → Live t → t.code.toNat < 2 ^ 20) ∧
  (∀ b s, s.code.toNat < 4096 →
    (refill b s).code.toNat = s.code.toNat * 256 + b.toNat ∧ (refill b s).code.toNat < 2 ^ 20) ∧
  (∀ (c : Word) (p : Byte), (codeAfter c p).toNat ≤ c.toNat) ∧
  ∀ s t, s.code.toNat < 2 ^ 20 → renormalise s = .ok () t → 4096 ≤ t.code.toNat ∧ t.code.toNat < 2 ^ 20

/-- R12: every entry of PROBS is in 1 to 255 at all times from START on, and, tighter, in 7 to 249 (derived in the
spec from R72 and R25; no claim is made after a fault, R138); the two updates keep both ranges and move an entry by at most 16. -/
def Obligations.ProbabilitiesStayInRange : Prop :=
  (∀ (p : Byte) (b : Bool), 1 ≤ p.toNat →
    1 ≤ (adapt p b).toNat ∧ (adapt p b).toNat ≤ p.toNat + 16 ∧ p.toNat ≤ (adapt p b).toNat + 16 ∧
    (7 ≤ p.toNat → p.toNat ≤ 249 → 7 ≤ (adapt p b).toNat ∧ (adapt p b).toNat ≤ 249) ∧
    (adapt p true = p ↔ 249 ≤ p.toNat) ∧ (adapt p false = p ↔ p.toNat ≤ 7)) ∧
  (∀ s t, exec .start s = .next t → ∀ i, i < 385 → 7 ≤ (t.getProb i).toNat ∧ (t.getProb i).toNat ≤ 249) ∧
  (∀ s t, Live s → (∀ i, i < 385 → 1 ≤ (s.getProb i).toNat) → step s = .next t → Live t →
    ∀ i, i < 385 → 1 ≤ (t.getProb i).toNat ∧ (t.getProb i).toNat ≤ 255) ∧
  ∀ s t, Live s → (∀ i, i < 385 → 7 ≤ (s.getProb i).toNat ∧ (s.getProb i).toNat ≤ 249) → step s = .next t →
    Live t → ∀ i, i < 385 → 7 ≤ (t.getProb i).toNat ∧ (t.getProb i).toNat ≤ 249

/-! ### DECODE_UINT and DECODE_LITERAL -/

/-- R53, R80: when the decisions to come are U(base) of `v`, DECODE_UINT returns `v`, for every `v` from 1 to
2^32 - 1, under UINT_BIT_ORDER = MSB_FIRST. -/
def Obligations.UintReadsItsCode : Prop :=
  ∀ (b : UintBase) (v : Nat) (s t : State), s.status = .run → 1 ≤ v → v < 2 ^ 32 →
    follow (encodeUint .msbFirst (uintBase Config.upkr b) v) s = some t →
    exec (.decodeUint b) s = .next { t with ret := BitVec.ofNat 32 v }

/-- 41_integer_decoder.md R84: the value is 1, after one decision, when the first continue bit is 0; when that
bit is 1 a value returned is at least 2. RET is where the model puts the value (log 5). -/
def Obligations.UintIsOneOnAFirstZero : Prop :=
  ∀ (b : UintBase) (s : State), s.status = .run → 4096 ≤ s.code.toNat →
    ((s.getProb (uintBase Config.upkr b)).toNat ≤ s.code.toNat % 256 →
      exec (.decodeUint b) s = .next { (decide1 (uintBase Config.upkr b) s) with ret := 1#32 }) ∧
    (s.code.toNat % 256 < (s.getProb (uintBase Config.upkr b)).toNat →
      ∃ t, exec (.decodeUint b) s = .next t ∧ (t.status = .run → 2 ≤ t.ret.toNat))

/-- R83 (the spec's decision D7): an integer has at most 32 bit positions: 32 continue bits of 1 raise UintOverflow before a 65th
decision, whatever the value bits; a value returned fits 32 bits, no context outside the 64 slots has changed,
and 2^32 - 1 is returned for 31 pairs with every value bit 1 and a 0. -/
def Obligations.UintStaysInItsRegion : Prop :=
  (∀ (b : UintBase) (ds : List Decision) (s t : State), s.status = .run → ds.length = 64 →
    (∀ i, i < 32 → ds[2 * i]? = some (uintBase Config.upkr b + 2 * i, true) ∧
      ∃ d, ds[2 * i + 1]? = some (uintBase Config.upkr b + 2 * i + 1, d)) →
    follow ds s = some t →
    decodeUint b s = .raise .uintOverflow t ∧ exec (.decodeUint b) s = .next (takeFault .uintOverflow t)) ∧
  (∀ (b : UintBase) (v : Nat) (s t : State), decodeUint b s = .ok v t →
    (1 ≤ v ∧ v ≤ 2 ^ 32 - 1) ∧
    ∀ i, (i < uintBase Config.upkr b ∨ uintBase Config.upkr b + 64 ≤ i) → t.getProb i = s.getProb i) ∧
  ∀ (b : UintBase) (s t : State),
    follow ((List.range 62).map (fun k => (uintBase Config.upkr b + k, true)) ++
      [(uintBase Config.upkr b + 62, false)]) s = some t →
    decodeUint b s = .ok (2 ^ 32 - 1) t

/-- R90, R54: when the decisions to come are T of `b`, DECODE_LITERAL returns `b`. -/
def Obligations.LiteralReadsItsCode : Prop :=
  ∀ (b : Byte) (s t : State), s.status = .run → follow (encodeLiteral Config.upkr b) s = some t →
    exec .decodeLiteral s = .next { t with ret := b.setWidth 32 }

/-- What the micro-operations that decode leave unchanged, in every outcome (R26, R71, R80, R90): a value
and nothing but PROBS, CODE, IN_POS (and the model's RET) changed, or one of their faults. -/
def Obligations.DecodersOutcomes : Prop :=
  ∀ s : State, s.status = .run →
    (∀ ctx : Fin 385, ∃ t, exec (.decodeBit ctx) s = .next t ∧
      ((t = { s with probs := t.probs, code := t.code, inPos := t.inPos, ret := t.ret } ∧ t.ret.toNat ≤ 1 ∧
        ∀ i, i ≠ ctx.val → t.getProb i = s.getProb i) ∨
       (t.status = .fault ∧ t.cause = some .truncatedInput))) ∧
    (∀ b, ∃ t, exec (.decodeUint b) s = .next t ∧
      ((t = { s with probs := t.probs, code := t.code, inPos := t.inPos, ret := t.ret } ∧ 1 ≤ t.ret.toNat ∧
        ∀ i, (i < uintBase Config.upkr b ∨ uintBase Config.upkr b + 64 ≤ i) → t.getProb i = s.getProb i) ∨
       (t.status = .fault ∧ (t.cause = some .truncatedInput ∨ t.cause = some .uintOverflow)))) ∧
    ∃ t, exec .decodeLiteral s = .next t ∧
      ((t = { s with probs := t.probs, code := t.code, inPos := t.inPos, ret := t.ret } ∧ t.ret.toNat < 256 ∧
        ∀ i, (i = 0 ∨ 256 ≤ i) → t.getProb i = s.getProb i) ∨
       (t.status = .fault ∧ t.cause = some .truncatedInput))

/-- Where the micro-operations that decode complete whatever the stream says: a decision reads at most three
nonzero bytes (R70), so with enough of them none is truncated. -/
def Obligations.DecodersCompleteOnNonzeroInput : Prop :=
  ∀ s : State, s.status = .run →
    (∀ ctx : Fin 385, NonzeroInput 3 s →
      ∃ t, exec (.decodeBit ctx) s = .next t ∧ t.status = .run ∧ t.ret.toNat ≤ 1) ∧
    (NonzeroInput 24 s → ∃ t, exec .decodeLiteral s = .next t ∧ t.status = .run ∧ t.ret.toNat < 256) ∧
    ∀ b, NonzeroInput 192 s →
      ∃ t, exec (.decodeUint b) s = .next t ∧
        ((t.status = .run ∧ 1 ≤ t.ret.toNat) ∨ t.cause = some .uintOverflow)

/-! ### COPY_MATCH -/

/-- R112 (the closed form is derived in the spec from R110): the copy repeats the last `offset` bytes periodically, writes `length` bytes from OUT_POS on and
no other, and changes nothing but OUT and OUT_POS. -/
def Obligations.CopyRepeatsThePattern : Prop :=
  ∀ (s : State) (o l : Word), s.status = .run → Memory.wf s.outMem = true → 1 ≤ o.toNat →
    o.toNat ≤ s.outPos.toNat → s.outPos.toNat + l.toNat ≤ s.outCap.toNat →
    ∃ t, exec (.copyMatch o l) s = .next t ∧
      t = { s with outPos := t.outPos, outMem := t.outMem } ∧
      t.outPos.toNat = s.outPos.toNat + l.toNat ∧
      (∀ a, a < s.outPos.toNat ∨ s.outPos.toNat + l.toNat ≤ a → t.readOut a = s.readOut a) ∧
      (∀ i, i < l.toNat →
        t.readOut (s.outPos.toNat + i) = s.readOut (s.outPos.toNat - o.toNat + i % o.toNat)) ∧
      ∀ j, s.outPos.toNat ≤ j → j < s.outPos.toNat + l.toNat → t.readOut j = t.readOut (j - o.toNat)

/-- R111 (the spec's decisions D9 and D13): the checks of COPY_MATCH and their order, in the micro-operation and
in the three matches: each is raised in a state in which no byte of OUT has moved, the sums are sums of
naturals, and a copy that passes both writes only below OUT_CAP. -/
def Obligations.CopyChecksInOrder : Prop :=
  ∀ (s : State) (o l : Word), s.status = .run →
    ((o.toNat = 0 ∨ s.outPos.toNat < o.toNat) →
      exec (.copyMatch o l) s = .next (takeFault .invalidOffset s) ∧
      (s.pwm = false → exec (.matchnPwm0 o l) s = .next (takeFault .invalidOffset { s with offset := o })) ∧
      (s.pwm = true → exec (.matchnPwm1 o l) s = .next (takeFault .invalidOffset { s with offset := o })) ∧
      (s.pwm = false → s.offset = o → exec (.matchr l) s = .next (takeFault .invalidOffset s))) ∧
    (1 ≤ o.toNat → o.toNat ≤ s.outPos.toNat → s.outCap.toNat < s.outPos.toNat + l.toNat →
      exec (.copyMatch o l) s = .next (takeFault .outputOverflow s) ∧
      (s.pwm = false → exec (.matchnPwm0 o l) s = .next (takeFault .outputOverflow { s with offset := o })) ∧
      (s.pwm = true → exec (.matchnPwm1 o l) s = .next (takeFault .outputOverflow { s with offset := o })) ∧
      (s.pwm = false → s.offset = o → exec (.matchr l) s = .next (takeFault .outputOverflow s))) ∧
    (1 ≤ o.toNat → o.toNat ≤ s.outPos.toNat → s.outPos.toNat + l.toNat ≤ s.outCap.toNat →
      ∃ t, exec (.copyMatch o l) s = .next t ∧ t.status = .run ∧ t.outPos.toNat = s.outPos.toNat + l.toNat ∧
        (Memory.wf s.outMem = true → ∀ a, s.outCap.toNat ≤ a → t.readOut a = s.readOut a))

/-! ### The symbols -/

/-- R96, R34: LIT writes its byte at OUT_POS and clears PWM; with no room it raises OutputOverflow. -/
def Obligations.LitEmitsItsByte : Prop :=
  ∀ (s : State) (b : Byte), s.status = .run →
    (Memory.wf s.outMem = true → s.outPos.toNat < s.outCap.toNat →
      ∃ t, exec (.lit b) s = .next t ∧
        t = { s with outPos := t.outPos, outMem := t.outMem, pwm := false } ∧
        t.outPos.toNat = s.outPos.toNat + 1 ∧
        ∀ a, t.readOut a = if a = s.outPos.toNat then b else s.readOut a) ∧
    (s.outCap.toNat ≤ s.outPos.toNat → exec (.lit b) s = .next (takeFault .outputOverflow s))

/-- R98, R101: a match with a new offset, in either mode: OFFSET, the copy, PWM, and nothing else. -/
def Obligations.NewOffsetMatchCopies : Prop :=
  ∀ (s : State) (i : Instr) (o l : Word), s.status = .run →
    ((i = .matchnPwm0 o l ∧ s.pwm = false) ∨ (i = .matchnPwm1 o l ∧ s.pwm = true)) →
    Memory.wf s.outMem = true → 1 ≤ o.toNat → o.toNat ≤ s.outPos.toNat →
    s.outPos.toNat + l.toNat ≤ s.outCap.toNat →
    ∃ t, exec i s = .next t ∧
      t = { s with offset := o, outPos := t.outPos, outMem := t.outMem, pwm := true } ∧
      t.outPos.toNat = s.outPos.toNat + l.toNat ∧
      (∀ a, a < s.outPos.toNat ∨ s.outPos.toNat + l.toNat ≤ a → t.readOut a = s.readOut a) ∧
      ∀ k, k < l.toNat →
        t.readOut (s.outPos.toNat + k) = s.readOut (s.outPos.toNat - o.toNat + k % o.toNat)

/-- R100, R101: a match that repeats the offset: OFFSET is reused and kept. -/
def Obligations.RepeatMatchReusesOffset : Prop :=
  ∀ (s : State) (l : Word), s.status = .run → s.pwm = false → Memory.wf s.outMem = true →
    1 ≤ s.offset.toNat → s.offset.toNat ≤ s.outPos.toNat →
    s.outPos.toNat + l.toNat ≤ s.outCap.toNat →
    ∃ t, exec (.matchr l) s = .next t ∧
      t = { s with outPos := t.outPos, outMem := t.outMem, pwm := true } ∧
      t.outPos.toNat = s.outPos.toNat + l.toNat ∧
      (∀ a, a < s.outPos.toNat ∨ s.outPos.toNat + l.toNat ≤ a → t.readOut a = s.readOut a) ∧
      ∀ k, k < l.toNat →
        t.readOut (s.outPos.toNat + k) = s.readOut (s.outPos.toNat - s.offset.toNat + k % s.offset.toNat)

/-- R99: END writes STATUS only, in either mode and whatever OUT_CAP; in the stream it is the decisions
1 1 0 when PWM = 0 and 1 0 when PWM = 1. -/
def Obligations.EndFinishesTheRun : Prop :=
  (∀ s : State, s.status = .run →
    (s.pwm = false → exec .endPwm0 s = .next { s with status := .done }) ∧
    (s.pwm = true → exec .endPwm1 s = .next { s with status := .done })) ∧
  ∀ s t : State, s.status = .run →
    (s.pwm = false → follow [(0, true), (256, true), (257, false)] s = some t →
      step s = .next { t with status := .done }) ∧
    (s.pwm = true → follow [(0, true), (257, false)] s = some t → step s = .next { t with status := .done })

/-- A form executed in a mode in which it does not exist is stuck: the model's choice (log 11), where R52
and R56 say that the form does not exist; the fetch never gives such a form. -/
def Obligations.FormsExistOnlyInTheirMode : Prop :=
  (∀ (s : State) (o l : Word), s.status = .run →
    (s.pwm = true → exec (.matchnPwm0 o l) s = .fault .formAbsentInMode ∧
      exec (.matchr l) s = .fault .formAbsentInMode ∧ exec .endPwm0 s = .fault .formAbsentInMode) ∧
    (s.pwm = false → exec (.matchnPwm1 o l) s = .fault .formAbsentInMode ∧
      exec .endPwm1 s = .fault .formAbsentInMode)) ∧
  ∀ s i t, fetchSymbol s = .ok i t → i.existsInMode s.pwm = true

/-! ### The fetch and the step -/

/-- A step in RUN runs the symbol that is fetched, or takes the fault its reading raised (R95, R104, R136). -/
def Obligations.StepRunsTheFetchedSymbol : Prop :=
  ∀ s : State, s.status = .run →
    (∀ i t, fetchSymbol s = .ok i t → step s = exec i t) ∧
    (∀ f t, fetchSymbol s = .raise f t → step s = .next (takeFault f t))

/-- R52, R95: when the decisions to come are a well-formed symbol's decision string in the current mode, the
fetch gives that symbol, and the step executes it where its decisions end. -/
def Obligations.StreamRunsTheEncodedSymbol : Prop :=
  ∀ (s t : State) (i : Instr) (ds : List Decision), s.status = .run → i.wf = true →
    i.existsInMode s.pwm = true → encode i = some ds → follow ds s = some t →
    fetchSymbol s = .ok i (afterFetch i t) ∧ step s = exec i (afterFetch i t)

/-- Decode of encode, at the decision layer: in any configuration and either bit order, the decoder reads a
well-formed symbol's string back, at exactly its contexts, and leaves the rest. -/
def Obligations.DecodeOfEncode : Prop :=
  ∀ (cfg : Config) (i : Instr) (pwm : Bool) (ds : List Decision) (rest : List Bool), i.wf = true →
    i.existsInMode pwm = true → encodeSymbol cfg i = some ds →
    decodeString cfg pwm (ds.map Prod.snd ++ rest) = .ok i { left := rest, made := ds }

/-- Encode of decode (R58, R59, derived in the spec from R52 and R53): what the decoder reads from a string is a well-formed symbol of the mode,
the string begins with that symbol's encoding, and nothing more is used. -/
def Obligations.EncodeOfDecode : Prop :=
  ∀ (cfg : Config) (pwm : Bool) (bits : List Bool) (i : Instr) (st : DecString),
    decodeString cfg pwm bits = .ok i st →
    i.wf = true ∧ i.existsInMode pwm = true ∧ encodeSymbol cfg i = some st.made ∧
    bits = st.made.map Prod.snd ++ st.left

/-- R63 (derived in the spec from R52 to R54): the decision counts. -/
def Obligations.DecisionCounts : Prop :=
  (∀ (order : BitOrder) (base v : Nat), (encodeUint order base v).length = 2 * Nat.log2 v + 1) ∧
  (∀ b ds, encode (.lit b) = some ds → ds.length = 9) ∧
  (∀ o l ds, encode (.matchnPwm0 o l) = some ds →
    ds.length = 2 + (2 * Nat.log2 (o.toNat + 1) + 1) + (2 * Nat.log2 l.toNat + 1)) ∧
  (∀ o l ds, encode (.matchnPwm1 o l) = some ds →
    ds.length = 1 + (2 * Nat.log2 (o.toNat + 1) + 1) + (2 * Nat.log2 l.toNat + 1)) ∧
  (∀ l ds, encode (.matchr l) = some ds → ds.length = 2 + (2 * Nat.log2 l.toNat + 1)) ∧
  (∀ ds, encode .endPwm0 = some ds → ds.length = 3) ∧
  (∀ ds, encode .endPwm1 = some ds → ds.length = 2) ∧
  ∀ v : Nat, (v = 1 → 2 * Nat.log2 v + 1 = 1) ∧ (2 ^ 31 ≤ v → v < 2 ^ 32 → 2 * Nat.log2 v + 1 = 63)

/-- 42_literal_tree.md, "Literal purity": when the decisions to come are those of N literals, a run of N symbols
emits exactly those N bytes, in order, and leaves the predictor where their decisions do. -/
def Obligations.LiteralPurity : Prop :=
  ∀ (bs : List Byte) (s t : State), s.status = .run → Memory.wf s.outMem = true →
    s.outPos.toNat + bs.length ≤ s.outCap.toNat →
    follow (bs.flatMap fun b => (0, false) :: encodeLiteral Config.upkr b) s = some t →
    ∃ u, runSymbols bs.length s = u ∧ u.status = .run ∧
      u.probs = t.probs ∧ u.code = t.code ∧ u.inPos = t.inPos ∧ u.offset = s.offset ∧
      u.outPos.toNat = s.outPos.toNat + bs.length ∧
      (∀ a, a < s.outPos.toNat ∨ s.outPos.toNat + bs.length ≤ a → u.readOut a = s.readOut a) ∧
      ∀ i, i < bs.length → bs[i]? = some (u.readOut (s.outPos.toNat + i))

/-- R26: the fetch of a symbol changes PROBS, CODE and IN_POS, and OFFSET when it is a MATCHN; nothing else. -/
def Obligations.FetchTouchesOnlyThePredictor : Prop :=
  ∀ s i t, fetchSymbol s = .ok i t →
    i.wf = true ∧
    t = { s with probs := t.probs, code := t.code, inPos := t.inPos, offset := t.offset } ∧
    s.inPos.toNat ≤ t.inPos.toNat ∧
    ((∃ o l, (i = .matchnPwm0 o l ∨ i = .matchnPwm1 o l) ∧ t.offset = o) ∨
      ((∀ o l, i ≠ .matchnPwm0 o l ∧ i ≠ .matchnPwm1 o l) ∧ t.offset = s.offset))

/-- R97: when PWM = 1 the entry at CTX_OFFSEL is neither read nor adapted: with any other value there the
same symbol is fetched, and that value is kept. -/
def Obligations.OffsetChoiceIsSkippedAfterAMatch : Prop :=
  ∀ (s t : State) (i : Instr) (p : Byte), s.pwm = true → fetchSymbol s = .ok i t →
    t.getProb 256 = s.getProb 256 ∧ fetchSymbol (s.setProb 256 p) = .ok i (t.setProb 256 p)

/-- R102 (derived in the spec from R97 and R101): after a match PWM = 1, so that the symbol after it is never MATCHR. -/
def Obligations.RepeatMatchesAreNeverAdjacent : Prop :=
  ∀ (s s1 t u : State) (i j : Instr) (l : Word), s.status = .run → fetchSymbol s = .ok i s1 →
    ((∃ o l, i = .matchnPwm0 o l ∨ i = .matchnPwm1 o l) ∨ ∃ l, i = .matchr l) →
    step s = .next t → t.status = .run → fetchSymbol t = .ok j u → t.pwm = true ∧ j ≠ .matchr l

/-- R130, R131: reading a symbol raises TruncatedInput exactly where a byte is needed and absent, and
otherwise only UintOverflow. -/
def Obligations.ReadingRaisesOnlyWhenItMust : Prop :=
  ∀ s f t, fetchSymbol s = .raise f t →
    (f = .truncatedInput ∧ t.code.toNat < 4096 ∧ t.inLen.toNat ≤ t.inPos.toNat) ∨ f = .uintOverflow

/-! ### The whole machine -/

/-- R58, R103: every step, from every state, gives a next state. -/
def Obligations.StepAlwaysAnswers : Prop := ∀ s : State, ∃ t, step s = .next t

/-- R103 (derived in the spec): a run ends within OUT_CAP + 1 symbols, and no symbol that completes has more than 128 decisions. -/
def Obligations.EveryRunEnds : Prop :=
  (∀ s : State, s.status = .run →
    (runSymbols (s.outCap.toNat + 1) s).status = .done ∨ (runSymbols (s.outCap.toNat + 1) s).status = .fault) ∧
  ∀ i ds, i.wf = true → encode i = some ds → ds.length ≤ 128

/-- Every step keeps the invariant. -/
def Obligations.StepKeepsInvariant : Prop := ∀ s t : State, Inv s → step s = .next t → Inv t

/-- So does every well-formed instruction executed on its own. -/
def Obligations.ExecKeepsInvariant : Prop :=
  ∀ (i : Instr) (s t : State), i.wf = true → Inv s → exec i s = .next t → Inv t

/-- R132, with the guarantees of R138: in no run, faulting or not, is a byte of OUT written outside 0 to
OUT_CAP - 1, or a byte of IN, or IN_LEN or OUT_CAP; nor by any instruction executed on its own. -/
def Obligations.NoByteOutsideTheBuffer : Prop :=
  ∀ s t : State, s.status = .run → Memory.wf s.outMem = true →
    (step s = .next t ∨ ∃ i, exec i s = .next t) →
    t.inMem = s.inMem ∧ t.inLen = s.inLen ∧ t.outCap = s.outCap ∧
    ∀ a, s.outCap.toNat ≤ a → t.readOut a = s.readOut a

/-- R17, R18: the cursors never move back, OUT_POS never exceeds OUT_CAP, and the bytes already decoded
stay, unless the step ends in a fault. -/
def Obligations.OutputOnlyGrows : Prop :=
  ∀ s t : State, Inv s → s.status = .run → step s = .next t → t.status ≠ .fault →
    s.inPos.toNat ≤ t.inPos.toNat ∧ t.inPos.toNat ≤ t.inLen.toNat ∧
    s.outPos.toNat ≤ t.outPos.toNat ∧ t.outPos.toNat ≤ t.outCap.toNat ∧
    ∀ a, a < s.outPos.toNat → t.readOut a = s.readOut a

/-- R125, with R35: two calls with the same stream, IN_LEN and OUT_CAP go the same way whatever happened
before them, and whatever OUT held. -/
def Obligations.CallsDependOnlyOnTheirInput : Prop :=
  ∀ (n : Nat) (s t s' t' : State), Memory.wf s.outMem = true → Memory.wf t.outMem = true →
    s.inLen = t.inLen → s.outCap = t.outCap → (∀ a, a < s.inLen.toNat → s.readIn a = t.readIn a) →
    exec .start s = .next s' → exec .start t = .next t' → SameCall (runSymbols n s') (runSymbols n t')

/-- R44: bytes of IN at or beyond the final IN_POS have no effect on a run that does not fault, nor has IN_LEN
beyond them: with any other bytes there, and any IN_LEN that covers those taken, the run is the same. -/
def Obligations.UnreadInputNeverMatters : Prop :=
  ∀ (k : Nat) (s : State) (m : Memory) (n : Word), s.status = .run → (runSymbols k s).status ≠ .fault →
    (runSymbols k s).inPos.toNat ≤ n.toNat →
    (∀ a, a < (runSymbols k s).inPos.toNat → Memory.read m a = s.readIn a) →
    runSymbols k { s with inMem := m, inLen := n } = { (runSymbols k s) with inMem := m, inLen := n }

/-! ### Faults and the result -/

/-- R136, R130: a fault sets STATUS and CAUSE; R138: IN, IN_LEN, OUT_CAP and OUT from OUT_CAP on are kept.
Nothing is said of what R138 leaves unspecified. -/
def Obligations.FaultEntry : Prop :=
  (∀ (f : FaultName) (s : State),
    (takeFault f s).status = .fault ∧ (takeFault f s).cause = some f ∧
    (takeFault f s).inMem = s.inMem ∧ (takeFault f s).inLen = s.inLen ∧ (takeFault f s).outCap = s.outCap ∧
    (Memory.wf s.outMem = true → ∀ a, s.outCap.toNat ≤ a → (takeFault f s).readOut a = s.readOut a)) ∧
  causeBits none = 0#3 ∧ causeBits (some .truncatedInput) = 1#3 ∧ causeBits (some .outputOverflow) = 2#3 ∧
  causeBits (some .invalidOffset) = 3#3 ∧ causeBits (some .uintOverflow) = 4#3 ∧
  statusBits .idle = 0#2 ∧ statusBits .run = 1#2 ∧ statusBits .done = 2#2 ∧ statusBits .fault = 3#2

/-- R137: the only way out of FAULT is START, which discards everything (R151), and CAUSE keeps its value until
then: no step returns from a fault and none raises a second one. -/
def Obligations.OnlyStartLeavesFault : Prop :=
  ∀ s t : State, s.status = .fault → step s = .next t →
    (t.status = .fault ∧ t.cause = s.cause) ∨
    (∃ q, s.hostQ = .start :: q ∧ t.status = .run ∧ t.cause = none ∧ exec .start { s with hostQ := q } = .next t)

/-- R122: after END the host reads DONE, the byte count in OUT_POS and that many bytes of OUT. -/
def Obligations.ResultAfterEnd : Prop :=
  ∀ s t : State, s.status = .run → step s = .next t → t.status = .done →
    hostRead .status t = some 2#32 ∧ hostRead .outPos t = some t.outPos ∧ hostRead .inPos t = some t.inPos ∧
    t.outPos = s.outPos ∧ t.outMem = s.outMem ∧
    ∃ bs, resultBytes t = some bs ∧ bs.length = t.outPos.toNat ∧
      ∀ a, a < t.outPos.toNat → bs[a]? = some (s.readOut a)

/-! ### Words -/

/-- Decision strings and bytes written out from the spec (30_encoding.md R52 to R54; 95_test_vectors.md
P1, P2, P4), and what they decode to. -/
def Obligations.WordsDecode : Prop :=
  decodeString Config.upkr false [false, false, true, false, false, false, false, false, true] =
    .ok (.lit 0x41#8) ⟨[], [(0, false), (1, false), (2, true), (5, false), (10, false), (20, false), (40, false),
      (80, false), (160, true)]⟩ ∧
  decodeString Config.upkr false [true, true, false] = .ok .endPwm0 ⟨[], [(0, true), (256, true), (257, false)]⟩ ∧
  decodeString Config.upkr true [true, false] = .ok .endPwm1 ⟨[], [(0, true), (257, false)]⟩ ∧
  decodeString Config.upkr false [true, false, true, true, false] =
    .ok (.matchr 3#32) ⟨[], [(0, true), (256, false), (321, true), (322, true), (323, false)]⟩ ∧
  decodeTableWord 16 0x0082 = some .endPwm0 ∧ decodeTableWord 40 0x5481f95d02 = some (.lit 0x41#8)

/-- The byte layer (95_test_vectors.md section 7, informative; log 21): bytes built for a string of decisions
are read back as those decisions, to the last byte, and CODE ends at 4096. -/
def Obligations.BytesOfDecisionsAreReadBack : Prop :=
  ∀ (ds : List Decision) (s : State), (∀ d ∈ ds, d.1 < 385) → (encodeBytes ds).length < 2 ^ 32 → ds ≠ [] →
    ∃ t, follow ds (freshCall (encodeBytes ds) s) = some t ∧ t.code = 4096#32 ∧
      t.inPos.toNat = (encodeBytes ds).length
end

