-- ==== Sys2Proof/Laws/State.lean ====
section
/-! SUPPORT. One lemma per field per register update, so that no proof unfolds a record update. -/

set_option Elab.async false -- one theorem at a time, for the memory limit of the build

namespace Sys2Proof.Machine.State

section setProbsFields
variable (s : State) (v : Vector Byte Config.nprobs)
@[simp] theorem setProbs_probs : (s.setProbs v).probs = v := rfl
@[simp] theorem setProbs_code : (s.setProbs v).code = s.code := rfl
@[simp] theorem setProbs_inPos : (s.setProbs v).inPos = s.inPos := rfl
@[simp] theorem setProbs_outPos : (s.setProbs v).outPos = s.outPos := rfl
@[simp] theorem setProbs_offset : (s.setProbs v).offset = s.offset := rfl
@[simp] theorem setProbs_pwm : (s.setProbs v).pwm = s.pwm := rfl
@[simp] theorem setProbs_status : (s.setProbs v).status = s.status := rfl
@[simp] theorem setProbs_cause : (s.setProbs v).cause = s.cause := rfl
@[simp] theorem setProbs_inLen : (s.setProbs v).inLen = s.inLen := rfl
@[simp] theorem setProbs_outCap : (s.setProbs v).outCap = s.outCap := rfl
@[simp] theorem setProbs_inMem : (s.setProbs v).inMem = s.inMem := rfl
@[simp] theorem setProbs_outMem : (s.setProbs v).outMem = s.outMem := rfl
@[simp] theorem setProbs_ret : (s.setProbs v).ret = s.ret := rfl
@[simp] theorem setProbs_hostQ : (s.setProbs v).hostQ = s.hostQ := rfl
@[simp] theorem setProbs_free : (s.setProbs v).free = s.free := rfl
end setProbsFields

section setCodeFields
variable (s : State) (v : Word)
@[simp] theorem setCode_probs : (s.setCode v).probs = s.probs := rfl
@[simp] theorem setCode_code : (s.setCode v).code = v := rfl
@[simp] theorem setCode_inPos : (s.setCode v).inPos = s.inPos := rfl
@[simp] theorem setCode_outPos : (s.setCode v).outPos = s.outPos := rfl
@[simp] theorem setCode_offset : (s.setCode v).offset = s.offset := rfl
@[simp] theorem setCode_pwm : (s.setCode v).pwm = s.pwm := rfl
@[simp] theorem setCode_status : (s.setCode v).status = s.status := rfl
@[simp] theorem setCode_cause : (s.setCode v).cause = s.cause := rfl
@[simp] theorem setCode_inLen : (s.setCode v).inLen = s.inLen := rfl
@[simp] theorem setCode_outCap : (s.setCode v).outCap = s.outCap := rfl
@[simp] theorem setCode_inMem : (s.setCode v).inMem = s.inMem := rfl
@[simp] theorem setCode_outMem : (s.setCode v).outMem = s.outMem := rfl
@[simp] theorem setCode_ret : (s.setCode v).ret = s.ret := rfl
@[simp] theorem setCode_hostQ : (s.setCode v).hostQ = s.hostQ := rfl
@[simp] theorem setCode_free : (s.setCode v).free = s.free := rfl
end setCodeFields

section setInPosFields
variable (s : State) (v : Word)
@[simp] theorem setInPos_probs : (s.setInPos v).probs = s.probs := rfl
@[simp] theorem setInPos_code : (s.setInPos v).code = s.code := rfl
@[simp] theorem setInPos_inPos : (s.setInPos v).inPos = v := rfl
@[simp] theorem setInPos_outPos : (s.setInPos v).outPos = s.outPos := rfl
@[simp] theorem setInPos_offset : (s.setInPos v).offset = s.offset := rfl
@[simp] theorem setInPos_pwm : (s.setInPos v).pwm = s.pwm := rfl
@[simp] theorem setInPos_status : (s.setInPos v).status = s.status := rfl
@[simp] theorem setInPos_cause : (s.setInPos v).cause = s.cause := rfl
@[simp] theorem setInPos_inLen : (s.setInPos v).inLen = s.inLen := rfl
@[simp] theorem setInPos_outCap : (s.setInPos v).outCap = s.outCap := rfl
@[simp] theorem setInPos_inMem : (s.setInPos v).inMem = s.inMem := rfl
@[simp] theorem setInPos_outMem : (s.setInPos v).outMem = s.outMem := rfl
@[simp] theorem setInPos_ret : (s.setInPos v).ret = s.ret := rfl
@[simp] theorem setInPos_hostQ : (s.setInPos v).hostQ = s.hostQ := rfl
@[simp] theorem setInPos_free : (s.setInPos v).free = s.free := rfl
end setInPosFields

section setOutPosFields
variable (s : State) (v : Word)
@[simp] theorem setOutPos_probs : (s.setOutPos v).probs = s.probs := rfl
@[simp] theorem setOutPos_code : (s.setOutPos v).code = s.code := rfl
@[simp] theorem setOutPos_inPos : (s.setOutPos v).inPos = s.inPos := rfl
@[simp] theorem setOutPos_outPos : (s.setOutPos v).outPos = v := rfl
@[simp] theorem setOutPos_offset : (s.setOutPos v).offset = s.offset := rfl
@[simp] theorem setOutPos_pwm : (s.setOutPos v).pwm = s.pwm := rfl
@[simp] theorem setOutPos_status : (s.setOutPos v).status = s.status := rfl
@[simp] theorem setOutPos_cause : (s.setOutPos v).cause = s.cause := rfl
@[simp] theorem setOutPos_inLen : (s.setOutPos v).inLen = s.inLen := rfl
@[simp] theorem setOutPos_outCap : (s.setOutPos v).outCap = s.outCap := rfl
@[simp] theorem setOutPos_inMem : (s.setOutPos v).inMem = s.inMem := rfl
@[simp] theorem setOutPos_outMem : (s.setOutPos v).outMem = s.outMem := rfl
@[simp] theorem setOutPos_ret : (s.setOutPos v).ret = s.ret := rfl
@[simp] theorem setOutPos_hostQ : (s.setOutPos v).hostQ = s.hostQ := rfl
@[simp] theorem setOutPos_free : (s.setOutPos v).free = s.free := rfl
end setOutPosFields

section setOffsetFields
variable (s : State) (v : Word)
@[simp] theorem setOffset_probs : (s.setOffset v).probs = s.probs := rfl
@[simp] theorem setOffset_code : (s.setOffset v).code = s.code := rfl
@[simp] theorem setOffset_inPos : (s.setOffset v).inPos = s.inPos := rfl
@[simp] theorem setOffset_outPos : (s.setOffset v).outPos = s.outPos := rfl
@[simp] theorem setOffset_offset : (s.setOffset v).offset = v := rfl
@[simp] theorem setOffset_pwm : (s.setOffset v).pwm = s.pwm := rfl
@[simp] theorem setOffset_status : (s.setOffset v).status = s.status := rfl
@[simp] theorem setOffset_cause : (s.setOffset v).cause = s.cause := rfl
@[simp] theorem setOffset_inLen : (s.setOffset v).inLen = s.inLen := rfl
@[simp] theorem setOffset_outCap : (s.setOffset v).outCap = s.outCap := rfl
@[simp] theorem setOffset_inMem : (s.setOffset v).inMem = s.inMem := rfl
@[simp] theorem setOffset_outMem : (s.setOffset v).outMem = s.outMem := rfl
@[simp] theorem setOffset_ret : (s.setOffset v).ret = s.ret := rfl
@[simp] theorem setOffset_hostQ : (s.setOffset v).hostQ = s.hostQ := rfl
@[simp] theorem setOffset_free : (s.setOffset v).free = s.free := rfl
end setOffsetFields

section setPwmFields
variable (s : State) (v : Bool)
@[simp] theorem setPwm_probs : (s.setPwm v).probs = s.probs := rfl
@[simp] theorem setPwm_code : (s.setPwm v).code = s.code := rfl
@[simp] theorem setPwm_inPos : (s.setPwm v).inPos = s.inPos := rfl
@[simp] theorem setPwm_outPos : (s.setPwm v).outPos = s.outPos := rfl
@[simp] theorem setPwm_offset : (s.setPwm v).offset = s.offset := rfl
@[simp] theorem setPwm_pwm : (s.setPwm v).pwm = v := rfl
@[simp] theorem setPwm_status : (s.setPwm v).status = s.status := rfl
@[simp] theorem setPwm_cause : (s.setPwm v).cause = s.cause := rfl
@[simp] theorem setPwm_inLen : (s.setPwm v).inLen = s.inLen := rfl
@[simp] theorem setPwm_outCap : (s.setPwm v).outCap = s.outCap := rfl
@[simp] theorem setPwm_inMem : (s.setPwm v).inMem = s.inMem := rfl
@[simp] theorem setPwm_outMem : (s.setPwm v).outMem = s.outMem := rfl
@[simp] theorem setPwm_ret : (s.setPwm v).ret = s.ret := rfl
@[simp] theorem setPwm_hostQ : (s.setPwm v).hostQ = s.hostQ := rfl
@[simp] theorem setPwm_free : (s.setPwm v).free = s.free := rfl
end setPwmFields

section setStatusFields
variable (s : State) (v : Status)
@[simp] theorem setStatus_probs : (s.setStatus v).probs = s.probs := rfl
@[simp] theorem setStatus_code : (s.setStatus v).code = s.code := rfl
@[simp] theorem setStatus_inPos : (s.setStatus v).inPos = s.inPos := rfl
@[simp] theorem setStatus_outPos : (s.setStatus v).outPos = s.outPos := rfl
@[simp] theorem setStatus_offset : (s.setStatus v).offset = s.offset := rfl
@[simp] theorem setStatus_pwm : (s.setStatus v).pwm = s.pwm := rfl
@[simp] theorem setStatus_status : (s.setStatus v).status = v := rfl
@[simp] theorem setStatus_cause : (s.setStatus v).cause = s.cause := rfl
@[simp] theorem setStatus_inLen : (s.setStatus v).inLen = s.inLen := rfl
@[simp] theorem setStatus_outCap : (s.setStatus v).outCap = s.outCap := rfl
@[simp] theorem setStatus_inMem : (s.setStatus v).inMem = s.inMem := rfl
@[simp] theorem setStatus_outMem : (s.setStatus v).outMem = s.outMem := rfl
@[simp] theorem setStatus_ret : (s.setStatus v).ret = s.ret := rfl
@[simp] theorem setStatus_hostQ : (s.setStatus v).hostQ = s.hostQ := rfl
@[simp] theorem setStatus_free : (s.setStatus v).free = s.free := rfl
end setStatusFields

section setCauseFields
variable (s : State) (v : Option FaultName)
@[simp] theorem setCause_probs : (s.setCause v).probs = s.probs := rfl
@[simp] theorem setCause_code : (s.setCause v).code = s.code := rfl
@[simp] theorem setCause_inPos : (s.setCause v).inPos = s.inPos := rfl
@[simp] theorem setCause_outPos : (s.setCause v).outPos = s.outPos := rfl
@[simp] theorem setCause_offset : (s.setCause v).offset = s.offset := rfl
@[simp] theorem setCause_pwm : (s.setCause v).pwm = s.pwm := rfl
@[simp] theorem setCause_status : (s.setCause v).status = s.status := rfl
@[simp] theorem setCause_cause : (s.setCause v).cause = v := rfl
@[simp] theorem setCause_inLen : (s.setCause v).inLen = s.inLen := rfl
@[simp] theorem setCause_outCap : (s.setCause v).outCap = s.outCap := rfl
@[simp] theorem setCause_inMem : (s.setCause v).inMem = s.inMem := rfl
@[simp] theorem setCause_outMem : (s.setCause v).outMem = s.outMem := rfl
@[simp] theorem setCause_ret : (s.setCause v).ret = s.ret := rfl
@[simp] theorem setCause_hostQ : (s.setCause v).hostQ = s.hostQ := rfl
@[simp] theorem setCause_free : (s.setCause v).free = s.free := rfl
end setCauseFields

section setInLenFields
variable (s : State) (v : Word)
@[simp] theorem setInLen_probs : (s.setInLen v).probs = s.probs := rfl
@[simp] theorem setInLen_code : (s.setInLen v).code = s.code := rfl
@[simp] theorem setInLen_inPos : (s.setInLen v).inPos = s.inPos := rfl
@[simp] theorem setInLen_outPos : (s.setInLen v).outPos = s.outPos := rfl
@[simp] theorem setInLen_offset : (s.setInLen v).offset = s.offset := rfl
@[simp] theorem setInLen_pwm : (s.setInLen v).pwm = s.pwm := rfl
@[simp] theorem setInLen_status : (s.setInLen v).status = s.status := rfl
@[simp] theorem setInLen_cause : (s.setInLen v).cause = s.cause := rfl
@[simp] theorem setInLen_inLen : (s.setInLen v).inLen = v := rfl
@[simp] theorem setInLen_outCap : (s.setInLen v).outCap = s.outCap := rfl
@[simp] theorem setInLen_inMem : (s.setInLen v).inMem = s.inMem := rfl
@[simp] theorem setInLen_outMem : (s.setInLen v).outMem = s.outMem := rfl
@[simp] theorem setInLen_ret : (s.setInLen v).ret = s.ret := rfl
@[simp] theorem setInLen_hostQ : (s.setInLen v).hostQ = s.hostQ := rfl
@[simp] theorem setInLen_free : (s.setInLen v).free = s.free := rfl
end setInLenFields

section setOutCapFields
variable (s : State) (v : Word)
@[simp] theorem setOutCap_probs : (s.setOutCap v).probs = s.probs := rfl
@[simp] theorem setOutCap_code : (s.setOutCap v).code = s.code := rfl
@[simp] theorem setOutCap_inPos : (s.setOutCap v).inPos = s.inPos := rfl
@[simp] theorem setOutCap_outPos : (s.setOutCap v).outPos = s.outPos := rfl
@[simp] theorem setOutCap_offset : (s.setOutCap v).offset = s.offset := rfl
@[simp] theorem setOutCap_pwm : (s.setOutCap v).pwm = s.pwm := rfl
@[simp] theorem setOutCap_status : (s.setOutCap v).status = s.status := rfl
@[simp] theorem setOutCap_cause : (s.setOutCap v).cause = s.cause := rfl
@[simp] theorem setOutCap_inLen : (s.setOutCap v).inLen = s.inLen := rfl
@[simp] theorem setOutCap_outCap : (s.setOutCap v).outCap = v := rfl
@[simp] theorem setOutCap_inMem : (s.setOutCap v).inMem = s.inMem := rfl
@[simp] theorem setOutCap_outMem : (s.setOutCap v).outMem = s.outMem := rfl
@[simp] theorem setOutCap_ret : (s.setOutCap v).ret = s.ret := rfl
@[simp] theorem setOutCap_hostQ : (s.setOutCap v).hostQ = s.hostQ := rfl
@[simp] theorem setOutCap_free : (s.setOutCap v).free = s.free := rfl
end setOutCapFields

section setInMemFields
variable (s : State) (v : Memory)
@[simp] theorem setInMem_probs : (s.setInMem v).probs = s.probs := rfl
@[simp] theorem setInMem_code : (s.setInMem v).code = s.code := rfl
@[simp] theorem setInMem_inPos : (s.setInMem v).inPos = s.inPos := rfl
@[simp] theorem setInMem_outPos : (s.setInMem v).outPos = s.outPos := rfl
@[simp] theorem setInMem_offset : (s.setInMem v).offset = s.offset := rfl
@[simp] theorem setInMem_pwm : (s.setInMem v).pwm = s.pwm := rfl
@[simp] theorem setInMem_status : (s.setInMem v).status = s.status := rfl
@[simp] theorem setInMem_cause : (s.setInMem v).cause = s.cause := rfl
@[simp] theorem setInMem_inLen : (s.setInMem v).inLen = s.inLen := rfl
@[simp] theorem setInMem_outCap : (s.setInMem v).outCap = s.outCap := rfl
@[simp] theorem setInMem_inMem : (s.setInMem v).inMem = v := rfl
@[simp] theorem setInMem_outMem : (s.setInMem v).outMem = s.outMem := rfl
@[simp] theorem setInMem_ret : (s.setInMem v).ret = s.ret := rfl
@[simp] theorem setInMem_hostQ : (s.setInMem v).hostQ = s.hostQ := rfl
@[simp] theorem setInMem_free : (s.setInMem v).free = s.free := rfl
end setInMemFields

section setOutMemFields
variable (s : State) (v : Memory)
@[simp] theorem setOutMem_probs : (s.setOutMem v).probs = s.probs := rfl
@[simp] theorem setOutMem_code : (s.setOutMem v).code = s.code := rfl
@[simp] theorem setOutMem_inPos : (s.setOutMem v).inPos = s.inPos := rfl
@[simp] theorem setOutMem_outPos : (s.setOutMem v).outPos = s.outPos := rfl
@[simp] theorem setOutMem_offset : (s.setOutMem v).offset = s.offset := rfl
@[simp] theorem setOutMem_pwm : (s.setOutMem v).pwm = s.pwm := rfl
@[simp] theorem setOutMem_status : (s.setOutMem v).status = s.status := rfl
@[simp] theorem setOutMem_cause : (s.setOutMem v).cause = s.cause := rfl
@[simp] theorem setOutMem_inLen : (s.setOutMem v).inLen = s.inLen := rfl
@[simp] theorem setOutMem_outCap : (s.setOutMem v).outCap = s.outCap := rfl
@[simp] theorem setOutMem_inMem : (s.setOutMem v).inMem = s.inMem := rfl
@[simp] theorem setOutMem_outMem : (s.setOutMem v).outMem = v := rfl
@[simp] theorem setOutMem_ret : (s.setOutMem v).ret = s.ret := rfl
@[simp] theorem setOutMem_hostQ : (s.setOutMem v).hostQ = s.hostQ := rfl
@[simp] theorem setOutMem_free : (s.setOutMem v).free = s.free := rfl
end setOutMemFields

section setRetFields
variable (s : State) (v : Word)
@[simp] theorem setRet_probs : (s.setRet v).probs = s.probs := rfl
@[simp] theorem setRet_code : (s.setRet v).code = s.code := rfl
@[simp] theorem setRet_inPos : (s.setRet v).inPos = s.inPos := rfl
@[simp] theorem setRet_outPos : (s.setRet v).outPos = s.outPos := rfl
@[simp] theorem setRet_offset : (s.setRet v).offset = s.offset := rfl
@[simp] theorem setRet_pwm : (s.setRet v).pwm = s.pwm := rfl
@[simp] theorem setRet_status : (s.setRet v).status = s.status := rfl
@[simp] theorem setRet_cause : (s.setRet v).cause = s.cause := rfl
@[simp] theorem setRet_inLen : (s.setRet v).inLen = s.inLen := rfl
@[simp] theorem setRet_outCap : (s.setRet v).outCap = s.outCap := rfl
@[simp] theorem setRet_inMem : (s.setRet v).inMem = s.inMem := rfl
@[simp] theorem setRet_outMem : (s.setRet v).outMem = s.outMem := rfl
@[simp] theorem setRet_ret : (s.setRet v).ret = v := rfl
@[simp] theorem setRet_hostQ : (s.setRet v).hostQ = s.hostQ := rfl
@[simp] theorem setRet_free : (s.setRet v).free = s.free := rfl
end setRetFields

section setHostQFields
variable (s : State) (v : List HostCmd)
@[simp] theorem setHostQ_probs : (s.setHostQ v).probs = s.probs := rfl
@[simp] theorem setHostQ_code : (s.setHostQ v).code = s.code := rfl
@[simp] theorem setHostQ_inPos : (s.setHostQ v).inPos = s.inPos := rfl
@[simp] theorem setHostQ_outPos : (s.setHostQ v).outPos = s.outPos := rfl
@[simp] theorem setHostQ_offset : (s.setHostQ v).offset = s.offset := rfl
@[simp] theorem setHostQ_pwm : (s.setHostQ v).pwm = s.pwm := rfl
@[simp] theorem setHostQ_status : (s.setHostQ v).status = s.status := rfl
@[simp] theorem setHostQ_cause : (s.setHostQ v).cause = s.cause := rfl
@[simp] theorem setHostQ_inLen : (s.setHostQ v).inLen = s.inLen := rfl
@[simp] theorem setHostQ_outCap : (s.setHostQ v).outCap = s.outCap := rfl
@[simp] theorem setHostQ_inMem : (s.setHostQ v).inMem = s.inMem := rfl
@[simp] theorem setHostQ_outMem : (s.setHostQ v).outMem = s.outMem := rfl
@[simp] theorem setHostQ_ret : (s.setHostQ v).ret = s.ret := rfl
@[simp] theorem setHostQ_hostQ : (s.setHostQ v).hostQ = v := rfl
@[simp] theorem setHostQ_free : (s.setHostQ v).free = s.free := rfl
end setHostQFields

section setFreeFields
variable (s : State) (v : Nat)
@[simp] theorem setFree_probs : (s.setFree v).probs = s.probs := rfl
@[simp] theorem setFree_code : (s.setFree v).code = s.code := rfl
@[simp] theorem setFree_inPos : (s.setFree v).inPos = s.inPos := rfl
@[simp] theorem setFree_outPos : (s.setFree v).outPos = s.outPos := rfl
@[simp] theorem setFree_offset : (s.setFree v).offset = s.offset := rfl
@[simp] theorem setFree_pwm : (s.setFree v).pwm = s.pwm := rfl
@[simp] theorem setFree_status : (s.setFree v).status = s.status := rfl
@[simp] theorem setFree_cause : (s.setFree v).cause = s.cause := rfl
@[simp] theorem setFree_inLen : (s.setFree v).inLen = s.inLen := rfl
@[simp] theorem setFree_outCap : (s.setFree v).outCap = s.outCap := rfl
@[simp] theorem setFree_inMem : (s.setFree v).inMem = s.inMem := rfl
@[simp] theorem setFree_outMem : (s.setFree v).outMem = s.outMem := rfl
@[simp] theorem setFree_ret : (s.setFree v).ret = s.ret := rfl
@[simp] theorem setFree_hostQ : (s.setFree v).hostQ = s.hostQ := rfl
@[simp] theorem setFree_free : (s.setFree v).free = v := rfl
end setFreeFields

section setProbFields
variable (s : State) (i : Nat) (p : Byte)
@[simp] theorem setProb_code : (s.setProb i p).code = s.code := by unfold setProb; split <;> rfl
@[simp] theorem setProb_inPos : (s.setProb i p).inPos = s.inPos := by unfold setProb; split <;> rfl
@[simp] theorem setProb_outPos : (s.setProb i p).outPos = s.outPos := by unfold setProb; split <;> rfl
@[simp] theorem setProb_offset : (s.setProb i p).offset = s.offset := by unfold setProb; split <;> rfl
@[simp] theorem setProb_pwm : (s.setProb i p).pwm = s.pwm := by unfold setProb; split <;> rfl
@[simp] theorem setProb_status : (s.setProb i p).status = s.status := by unfold setProb; split <;> rfl
@[simp] theorem setProb_cause : (s.setProb i p).cause = s.cause := by unfold setProb; split <;> rfl
@[simp] theorem setProb_inLen : (s.setProb i p).inLen = s.inLen := by unfold setProb; split <;> rfl
@[simp] theorem setProb_outCap : (s.setProb i p).outCap = s.outCap := by unfold setProb; split <;> rfl
@[simp] theorem setProb_inMem : (s.setProb i p).inMem = s.inMem := by unfold setProb; split <;> rfl
@[simp] theorem setProb_outMem : (s.setProb i p).outMem = s.outMem := by unfold setProb; split <;> rfl
@[simp] theorem setProb_ret : (s.setProb i p).ret = s.ret := by unfold setProb; split <;> rfl
@[simp] theorem setProb_hostQ : (s.setProb i p).hostQ = s.hostQ := by unfold setProb; split <;> rfl
@[simp] theorem setProb_free : (s.setProb i p).free = s.free := by unfold setProb; split <;> rfl
end setProbFields

section bumpInPosFields
variable (s : State)
@[simp] theorem bumpInPos_probs : s.bumpInPos.probs = s.probs := rfl
@[simp] theorem bumpInPos_code : s.bumpInPos.code = s.code := rfl
@[simp] theorem bumpInPos_outPos : s.bumpInPos.outPos = s.outPos := rfl
@[simp] theorem bumpInPos_offset : s.bumpInPos.offset = s.offset := rfl
@[simp] theorem bumpInPos_pwm : s.bumpInPos.pwm = s.pwm := rfl
@[simp] theorem bumpInPos_status : s.bumpInPos.status = s.status := rfl
@[simp] theorem bumpInPos_cause : s.bumpInPos.cause = s.cause := rfl
@[simp] theorem bumpInPos_inLen : s.bumpInPos.inLen = s.inLen := rfl
@[simp] theorem bumpInPos_outCap : s.bumpInPos.outCap = s.outCap := rfl
@[simp] theorem bumpInPos_inMem : s.bumpInPos.inMem = s.inMem := rfl
@[simp] theorem bumpInPos_outMem : s.bumpInPos.outMem = s.outMem := rfl
@[simp] theorem bumpInPos_ret : s.bumpInPos.ret = s.ret := rfl
@[simp] theorem bumpInPos_hostQ : s.bumpInPos.hostQ = s.hostQ := rfl
@[simp] theorem bumpInPos_free : s.bumpInPos.free = s.free := rfl
@[simp] theorem bumpInPos_inPos : s.bumpInPos.inPos = BitVec.ofNat 32 (s.inPos.toNat + 1) := rfl
end bumpInPosFields

section bumpOutPosFields
variable (s : State)
@[simp] theorem bumpOutPos_probs : s.bumpOutPos.probs = s.probs := rfl
@[simp] theorem bumpOutPos_code : s.bumpOutPos.code = s.code := rfl
@[simp] theorem bumpOutPos_inPos : s.bumpOutPos.inPos = s.inPos := rfl
@[simp] theorem bumpOutPos_offset : s.bumpOutPos.offset = s.offset := rfl
@[simp] theorem bumpOutPos_pwm : s.bumpOutPos.pwm = s.pwm := rfl
@[simp] theorem bumpOutPos_status : s.bumpOutPos.status = s.status := rfl
@[simp] theorem bumpOutPos_cause : s.bumpOutPos.cause = s.cause := rfl
@[simp] theorem bumpOutPos_inLen : s.bumpOutPos.inLen = s.inLen := rfl
@[simp] theorem bumpOutPos_outCap : s.bumpOutPos.outCap = s.outCap := rfl
@[simp] theorem bumpOutPos_inMem : s.bumpOutPos.inMem = s.inMem := rfl
@[simp] theorem bumpOutPos_outMem : s.bumpOutPos.outMem = s.outMem := rfl
@[simp] theorem bumpOutPos_ret : s.bumpOutPos.ret = s.ret := rfl
@[simp] theorem bumpOutPos_hostQ : s.bumpOutPos.hostQ = s.hostQ := rfl
@[simp] theorem bumpOutPos_free : s.bumpOutPos.free = s.free := rfl
@[simp] theorem bumpOutPos_outPos : s.bumpOutPos.outPos = BitVec.ofNat 32 (s.outPos.toNat + 1) := rfl
end bumpOutPosFields

section writeOutFields
variable (s : State) (a : Nat) (b : Byte)
@[simp] theorem writeOut_probs : (s.writeOut a b).probs = s.probs := rfl
@[simp] theorem writeOut_code : (s.writeOut a b).code = s.code := rfl
@[simp] theorem writeOut_inPos : (s.writeOut a b).inPos = s.inPos := rfl
@[simp] theorem writeOut_outPos : (s.writeOut a b).outPos = s.outPos := rfl
@[simp] theorem writeOut_offset : (s.writeOut a b).offset = s.offset := rfl
@[simp] theorem writeOut_pwm : (s.writeOut a b).pwm = s.pwm := rfl
@[simp] theorem writeOut_status : (s.writeOut a b).status = s.status := rfl
@[simp] theorem writeOut_cause : (s.writeOut a b).cause = s.cause := rfl
@[simp] theorem writeOut_inLen : (s.writeOut a b).inLen = s.inLen := rfl
@[simp] theorem writeOut_outCap : (s.writeOut a b).outCap = s.outCap := rfl
@[simp] theorem writeOut_inMem : (s.writeOut a b).inMem = s.inMem := rfl
@[simp] theorem writeOut_ret : (s.writeOut a b).ret = s.ret := rfl
@[simp] theorem writeOut_hostQ : (s.writeOut a b).hostQ = s.hostQ := rfl
@[simp] theorem writeOut_free : (s.writeOut a b).free = s.free := rfl
@[simp] theorem writeOut_outMem : (s.writeOut a b).outMem = Memory.write s.outMem a b := rfl
end writeOutFields

/-- Reading an entry of PROBS after a write of one. -/
theorem getProb_setProb (s : State) (i j : Nat) (p : Byte) :
    (s.setProb i p).getProb j = if i = j ∧ i < Config.nprobs then p else s.getProb j := by
  unfold setProb getProb
  by_cases hi : i < Config.nprobs
  · by_cases hj : j < Config.nprobs
    · by_cases hij : i = j
      · subst hij; simp [hi]
      · simp [hi, hj, hij]
    · have : i ≠ j := by omega
      simp [hi, hj, this]
  · simp [hi]

/-- PROBS is determined by its entries. -/
theorem probs_ext {s t : State} (h : ∀ i, i < Config.nprobs → s.getProb i = t.getProb i) : s.probs = t.probs := by
  apply Vector.ext
  intro i hi
  simpa [getProb, hi] using h i hi

/-- An entry of PROBS is a function of the table. -/
theorem getProb_congr {s t : State} (h : s.probs = t.probs) (i : Nat) : s.getProb i = t.getProb i := by
  simp [getProb, h]

end Sys2Proof.Machine.State
end

