-- ==== Sys2Proof/Laws/Memory.lean ====
section
/-! SUPPORT. The byte spaces: reading after a write, and that every memory operation keeps the canonical form. -/

set_option Elab.async false -- one theorem at a time, for the memory limit of the build

namespace Sys2Proof.Machine.Memory

theorem read_eq_unlisted_of_lt {m : Memory} {a : Nat} (h : m.all (fun c => decide (a < c.1)) = true) :
    read m a = unlisted := by
  induction m with
  | nil => rfl
  | cons c m ih =>
    obtain ⟨k, v⟩ := c
    simp only [List.all_cons, Bool.and_eq_true, decide_eq_true_eq] at h
    have : a ≠ k := by omega
    simp [read, this, ih h.2]

theorem wf_cons {k : Nat} {v : Byte} {m : Memory} :
    wf ((k, v) :: m) = true ↔
      k < 2 ^ 32 ∧ v ≠ unlisted ∧ m.all (fun c => decide (k < c.1)) = true ∧ wf m = true := by
  simp [wf, and_assoc]

/-- A write changes the byte written and no other. -/
theorem read_write {m : Memory} (h : wf m = true) (a b' : Nat) (b : Byte) :
    read (write m a b) b' = if b' = a then b else read m b' := by
  induction m with
  | nil =>
    by_cases hb : b = unlisted
    · simp [write, hb, read]
    · simp [write, hb, read]
  | cons c m ih =>
    obtain ⟨k, v⟩ := c
    obtain ⟨-, -, hall, hm⟩ := wf_cons.1 h
    unfold write
    by_cases h1 : a < k
    · have hk : read ((k, v) :: m) a = unlisted := by
        apply read_eq_unlisted_of_lt
        simp only [List.all_cons, Bool.and_eq_true, decide_eq_true_eq]
        refine ⟨h1, ?_⟩
        rw [List.all_eq_true] at hall ⊢
        intro x hx
        have := hall x hx
        simp only [decide_eq_true_eq] at this ⊢
        omega
      by_cases hb : b = unlisted
      · simp only [h1, hb, if_true]
        by_cases e : b' = a
        · simp [e, hk]
        · simp [e]
      · simp only [h1, hb, if_true, if_false]
        rw [read]
    · by_cases h2 : a = k
      · subst h2
        by_cases hb : b = unlisted
        · simp only [lt_irrefl, if_false, if_true, hb]
          by_cases e : b' = a
          · simp [e, read_eq_unlisted_of_lt hall]
          · simp [e, read]
        · simp only [lt_irrefl, if_false, if_true, hb]
          by_cases e : b' = a
          · simp [e, read]
          · simp [e, read]
      · simp only [h1, h2, if_false]
        by_cases e : b' = k
        · have : b' ≠ a := by omega
          simp [read, e, Ne.symm h2]
        · simp [read, e, ih hm]

theorem all_lt_write {k : Nat} {m : Memory} {a : Nat} {b : Byte} (hk : k < a)
    (h : m.all (fun c => decide (k < c.1)) = true) :
    (write m a b).all (fun c => decide (k < c.1)) = true := by
  induction m with
  | nil => by_cases hb : b = unlisted <;> simp [write, hb, hk]
  | cons c m ih =>
    obtain ⟨k', v⟩ := c
    simp only [List.all_cons, Bool.and_eq_true, decide_eq_true_eq] at h
    unfold write
    split_ifs <;>
      try simp only [List.all_cons, Bool.and_eq_true, decide_eq_true_eq]
    all_goals
      first
        | exact h
        | exact ⟨hk, h⟩
        | exact h.2
        | exact ⟨hk, h.2⟩
        | exact ⟨h.1, ih h.2⟩

/-- A write at an index of the space keeps the canonical form. -/
theorem wf_write {m : Memory} (h : wf m = true) {a : Nat} (ha : a < 2 ^ 32) (b : Byte) :
    wf (write m a b) = true := by
  induction m with
  | nil =>
    by_cases hb : b = unlisted
    · simp [write, hb, wf]
    · simp only [write, hb, if_false]
      exact wf_cons.2 ⟨ha, hb, rfl, rfl⟩
  | cons c m ih =>
    obtain ⟨k, v⟩ := c
    obtain ⟨hk, hv, hall, hm⟩ := wf_cons.1 h
    unfold write
    by_cases h1 : a < k
    · by_cases hb : b = unlisted
      · simpa [h1, hb] using h
      · simp only [h1, hb, if_true, if_false]
        refine wf_cons.2 ⟨ha, hb, ?_, h⟩
        simp only [List.all_cons, Bool.and_eq_true, decide_eq_true_eq]
        refine ⟨h1, ?_⟩
        rw [List.all_eq_true] at hall ⊢
        intro x hx
        have := hall x hx
        simp only [decide_eq_true_eq] at this ⊢
        omega
    · by_cases h2 : a = k
      · subst h2
        by_cases hb : b = unlisted
        · simpa [hb] using hm
        · simp only [lt_irrefl, hb, if_false, if_true]
          exact wf_cons.2 ⟨ha, hb, hall, hm⟩
      · simp only [h1, h2, if_false]
        exact wf_cons.2 ⟨hk, hv, all_lt_write (by omega) hall, ih hm⟩

theorem wf_fill {m : Memory} (h : wf m = true) (f : Nat → Byte) {n : Nat} (hn : n ≤ 2 ^ 32) :
    wf (fill f n m) = true := by
  induction n with
  | zero => exact h
  | succ n ih => exact wf_write (ih (by omega)) (by omega) _

/-- Filling from 0 changes the indexes filled and no other. -/
theorem read_fill {m : Memory} (h : wf m = true) (f : Nat → Byte) {n : Nat} (hn : n ≤ 2 ^ 32) (a : Nat) :
    read (fill f n m) a = if a < n then f a else read m a := by
  induction n with
  | zero => simp [fill]
  | succ n ih =>
    rw [fill, read_write (wf_fill h f (by omega)), ih (by omega)]
    by_cases e : a = n
    · simp [e]
    · have : a < n + 1 ↔ a < n := by omega
      simp [e, this]

theorem wf_writeList {bs : List Byte} {m : Memory} (h : wf m = true) {a : Nat} (ha : a + bs.length ≤ 2 ^ 32) :
    wf (writeList bs a m) = true := by
  induction bs generalizing a m with
  | nil => exact h
  | cons b bs ih =>
    simp only [List.length_cons] at ha
    exact ih (wf_write h (by omega) b) (by omega)

/-- The bytes of a list stored from index `a` on, and nothing else. -/
theorem read_writeList {bs : List Byte} {m : Memory} (h : wf m = true) {a : Nat}
    (ha : a + bs.length ≤ 2 ^ 32) (x : Nat) :
    read (writeList bs a m) x = if a ≤ x then bs[x - a]?.getD (read m x) else read m x := by
  induction bs generalizing a m with
  | nil => simp [writeList]
  | cons b bs ih =>
    simp only [List.length_cons] at ha
    rw [writeList, ih (wf_write h (by omega) b) (by omega), read_write h]
    by_cases e : x = a
    · subst e; simp
    · by_cases h1 : a + 1 ≤ x
      · obtain ⟨d, rfl⟩ := Nat.exists_eq_add_of_le h1
        have h2 : a ≤ a + 1 + d := by omega
        have h3 : a + 1 + d - (a + 1) = d := by omega
        have h4 : a + 1 + d - a = d + 1 := by omega
        have h5 : a + 1 + d ≠ a := by omega
        simp [h2, h3, h4, h5]
      · have h2 : ¬ a ≤ x := by omega
        simp [h1, h2, e]

end Sys2Proof.Machine.Memory
end

