-- ==== Sys2Proof/Laws/Ops.lean ====
section
/-! SUPPORT. What each shared operation can do: results, NextByte, Emit, taking a fault, starting a call. -/

set_option Elab.async false -- one theorem at a time, for the memory limit of the build

namespace Sys2Proof.Machine

/-! ### Results -/

namespace Res

variable {σ α β : Type}

@[simp] theorem andThen_ok (a : α) (s : σ) (f : α → σ → Res σ β) : (ok a s).andThen f = f a s := rfl

@[simp] theorem andThen_raise (e : FaultName) (s : σ) (f : α → σ → Res σ β) :
    (raise e s : Res σ α).andThen f = raise e s := rfl

/-- What came first gave a value when the whole does. -/
theorem andThen_eq_ok {r : Res σ α} {f : α → σ → Res σ β} {b : β} {t : σ} :
    r.andThen f = ok b t ↔ ∃ a s, r = ok a s ∧ f a s = ok b t := by
  cases r <;> simp

/-- A raised fault was raised by what came first or by what came next. -/
theorem andThen_eq_raise {r : Res σ α} {f : α → σ → Res σ β} {e : FaultName} {t : σ} :
    r.andThen f = raise e t ↔ r = raise e t ∨ ∃ a s, r = ok a s ∧ f a s = raise e t := by
  cases r <;> simp

/-- `P` of the value and state, or `E` of the fault and the state at the raise. -/
def Post (P : α → σ → Prop) (E : FaultName → σ → Prop) : Res σ α → Prop
  | ok a s => P a s
  | raise e s => E e s

@[simp] theorem post_ok (P : α → σ → Prop) (E : FaultName → σ → Prop) (a : α) (s : σ) :
    (ok a s).Post P E ↔ P a s := Iff.rfl

@[simp] theorem post_raise (P : α → σ → Prop) (E : FaultName → σ → Prop) (e : FaultName) (s : σ) :
    (raise e s : Res σ α).Post P E ↔ E e s := Iff.rfl

theorem Post.andThen {P : α → σ → Prop} {Q : β → σ → Prop} {E : FaultName → σ → Prop} {r : Res σ α}
    {f : α → σ → Res σ β} (hr : r.Post P E) (hf : ∀ a s, P a s → (f a s).Post Q E) :
    (r.andThen f).Post Q E := by
  cases r with
  | ok a s => exact hf a s hr
  | raise e s => exact hr

theorem Post.mono {P P' : α → σ → Prop} {E E' : FaultName → σ → Prop} {r : Res σ α} (hr : r.Post P E)
    (hP : ∀ a s, P a s → P' a s) (hE : ∀ e s, E e s → E' e s) : r.Post P' E' := by
  cases r with
  | ok a s => exact hP a s hr
  | raise e s => exact hE e s hr

theorem Post.ok_of {P : α → σ → Prop} {E : FaultName → σ → Prop} {r : Res σ α} (hr : r.Post P E) {a : α} {s : σ}
    (h : r = ok a s) : P a s := by subst h; exact hr

theorem Post.raise_of {P : α → σ → Prop} {E : FaultName → σ → Prop} {r : Res σ α} (hr : r.Post P E)
    {e : FaultName} {s : σ} (h : r = raise e s) : E e s := by subst h; exact hr

end Res

@[simp] theorem settle_ok (s : State) : settle (.ok () s) = .next s := rfl

@[simp] theorem settle_raise (f : FaultName) (s : State) : settle (.raise f s) = .next (takeFault f s) := rfl

@[simp] theorem settleValue_ok (v : Nat) (s : State) :
    settleValue (.ok v s) = .next (s.setRet (BitVec.ofNat 32 v)) := rfl

@[simp] theorem settleValue_raise (f : FaultName) (s : State) :
    settleValue (.raise f s) = .next (takeFault f s) := rfl

/-- An operation that returns nothing always gives a next state. -/
theorem settle_next (r : Res State Unit) :
    (∃ s, r = .ok () s ∧ settle r = .next s) ∨ ∃ f s, r = .raise f s ∧ settle r = .next (takeFault f s) := by
  cases r with
  | ok a s => exact .inl ⟨s, rfl, rfl⟩
  | raise f s => exact .inr ⟨f, s, rfl, rfl⟩

/-- A micro-operation executed on its own always gives a next state. -/
theorem settleValue_next (r : Res State Nat) :
    (∃ v s, r = .ok v s ∧ settleValue r = .next (s.setRet (BitVec.ofNat 32 v))) ∨
      ∃ f s, r = .raise f s ∧ settleValue r = .next (takeFault f s) := by
  cases r with
  | ok v s => exact .inl ⟨v, s, rfl, rfl⟩
  | raise f s => exact .inr ⟨f, s, rfl, rfl⟩

/-! ### Guards -/

theorem whileRunning_run {s : State} (h : s.status = .run) (k : Host.Outcome State Fault Refusal) :
    whileRunning s k = k := by simp [whileRunning, h]

theorem whileRunning_not_run {s : State} (h : s.status ≠ .run) (k : Host.Outcome State Fault Refusal) :
    whileRunning s k = .next s := by simp [whileRunning, h]

theorem inMode_eq {s : State} {m : Bool} (h : s.pwm = m) (k : Host.Outcome State Fault Refusal) :
    inMode m s k = k := by simp [inMode, h]

theorem inMode_ne {s : State} {m : Bool} (h : s.pwm ≠ m) (k : Host.Outcome State Fault Refusal) :
    inMode m s k = .fault .formAbsentInMode := by simp [inMode, h]

/-! ### Taking a fault -/

section TakeFault
variable (f : FaultName) (s : State)
@[simp] theorem takeFault_status : (takeFault f s).status = .fault := by
  simp [takeFault, forgetAfterFault]
@[simp] theorem takeFault_cause : (takeFault f s).cause = some f := by
  simp [takeFault, forgetAfterFault]
@[simp] theorem takeFault_inLen : (takeFault f s).inLen = s.inLen := by
  simp [takeFault, forgetAfterFault]
@[simp] theorem takeFault_outCap : (takeFault f s).outCap = s.outCap := by
  simp [takeFault, forgetAfterFault]
@[simp] theorem takeFault_inMem : (takeFault f s).inMem = s.inMem := by
  simp [takeFault, forgetAfterFault]
@[simp] theorem takeFault_ret : (takeFault f s).ret = s.ret := by
  simp [takeFault, forgetAfterFault]
@[simp] theorem takeFault_hostQ : (takeFault f s).hostQ = s.hostQ := by
  simp [takeFault, forgetAfterFault]
@[simp] theorem takeFault_free : (takeFault f s).free = s.free + 1 := by
  simp [takeFault, forgetAfterFault]
theorem takeFault_outMem :
    (takeFault f s).outMem = Memory.fill (Config.freeOutByte s.free) s.outCap.toNat s.outMem := by
  simp [takeFault, forgetAfterFault]
end TakeFault

/-- No fault writes OUT at or above OUT_CAP (R138). -/
theorem takeFault_readOut {f : FaultName} {s : State} (h : Memory.wf s.outMem = true) {a : Nat}
    (ha : s.outCap.toNat ≤ a) : (takeFault f s).readOut a = s.readOut a := by
  have hc : ¬ a < s.outCap.toNat := by omega
  have := s.outCap.isLt
  simp only [State.readOut, takeFault_outMem]
  rw [Memory.read_fill h _ (by omega), if_neg hc]

theorem takeFault_wf {f : FaultName} {s : State} (h : Memory.wf s.outMem = true) :
    Memory.wf (takeFault f s).outMem = true := by
  have := s.outCap.isLt
  exact Memory.wf_fill h _ (by omega)

/-! ### Starting a call -/

section StartCall
variable (s : State)
@[simp] theorem startCall_code : (startCall s).code = 0#32 := rfl
@[simp] theorem startCall_inPos : (startCall s).inPos = 0#32 := rfl
@[simp] theorem startCall_outPos : (startCall s).outPos = 0#32 := rfl
@[simp] theorem startCall_offset : (startCall s).offset = 0#32 := rfl
@[simp] theorem startCall_pwm : (startCall s).pwm = false := rfl
@[simp] theorem startCall_status : (startCall s).status = .run := rfl
@[simp] theorem startCall_cause : (startCall s).cause = none := rfl
@[simp] theorem startCall_inLen : (startCall s).inLen = s.inLen := rfl
@[simp] theorem startCall_outCap : (startCall s).outCap = s.outCap := rfl
@[simp] theorem startCall_inMem : (startCall s).inMem = s.inMem := rfl
@[simp] theorem startCall_outMem : (startCall s).outMem = s.outMem := rfl
@[simp] theorem startCall_ret : (startCall s).ret = 0#32 := rfl
@[simp] theorem startCall_hostQ : (startCall s).hostQ = s.hostQ := rfl
@[simp] theorem startCall_free : (startCall s).free = s.free := rfl
theorem startCall_probs : (startCall s).probs = Vector.replicate Config.nprobs Config.probInit := rfl
end StartCall

theorem startCall_getProb (s : State) {i : Nat} (h : i < Config.nprobs) :
    (startCall s).getProb i = Config.probInit := by
  simp [State.getProb, h, startCall_probs]

/-! ### NextByte and Emit -/

/-- NextByte answers exactly when IN_POS is below IN_LEN (R33). -/
theorem nextByte_of_lt {s : State} (h : s.inPos.toNat < s.inLen.toNat) :
    nextByte s = .ok (s.readIn s.inPos.toNat) s.bumpInPos := by
  simp [nextByte, Nat.not_le.2 h]

theorem nextByte_of_le {s : State} (h : s.inLen.toNat ≤ s.inPos.toNat) :
    nextByte s = .raise .truncatedInput s := by
  simp [nextByte, h]

/-- No cursor wraps: IN_POS is below IN_LEN, a 32-bit value, before it advances. -/
theorem bumpInPos_toNat {s : State} (h : s.inPos.toNat < s.inLen.toNat) :
    s.bumpInPos.inPos.toNat = s.inPos.toNat + 1 := by
  have := s.inLen.isLt
  simp only [State.bumpInPos_inPos, BitVec.toNat_ofNat]
  omega

section PutByte
variable (v : Byte) (s : State)
@[simp] theorem putByte_probs : (putByte v s).probs = s.probs := rfl
@[simp] theorem putByte_code : (putByte v s).code = s.code := rfl
@[simp] theorem putByte_inPos : (putByte v s).inPos = s.inPos := rfl
@[simp] theorem putByte_outPos : (putByte v s).outPos = BitVec.ofNat 32 (s.outPos.toNat + 1) := rfl
@[simp] theorem putByte_offset : (putByte v s).offset = s.offset := rfl
@[simp] theorem putByte_pwm : (putByte v s).pwm = s.pwm := rfl
@[simp] theorem putByte_status : (putByte v s).status = s.status := rfl
@[simp] theorem putByte_cause : (putByte v s).cause = s.cause := rfl
@[simp] theorem putByte_inLen : (putByte v s).inLen = s.inLen := rfl
@[simp] theorem putByte_outCap : (putByte v s).outCap = s.outCap := rfl
@[simp] theorem putByte_inMem : (putByte v s).inMem = s.inMem := rfl
@[simp] theorem putByte_outMem : (putByte v s).outMem = Memory.write s.outMem s.outPos.toNat v := rfl
@[simp] theorem putByte_ret : (putByte v s).ret = s.ret := rfl
@[simp] theorem putByte_hostQ : (putByte v s).hostQ = s.hostQ := rfl
@[simp] theorem putByte_free : (putByte v s).free = s.free := rfl
end PutByte

theorem putByte_outPos_toNat {v : Byte} {s : State} (h : s.outPos.toNat < s.outCap.toNat) :
    (putByte v s).outPos.toNat = s.outPos.toNat + 1 := by
  have := s.outCap.isLt
  simp only [putByte_outPos, BitVec.toNat_ofNat]
  omega

theorem putByte_wf {v : Byte} {s : State} (h : Memory.wf s.outMem = true) :
    Memory.wf (putByte v s).outMem = true :=
  Memory.wf_write h s.outPos.isLt v

/-- One byte is written, at OUT_POS (R34). -/
theorem putByte_readOut {v : Byte} {s : State} (h : Memory.wf s.outMem = true) (a : Nat) :
    (putByte v s).readOut a = if a = s.outPos.toNat then v else s.readOut a := by
  simp [State.readOut, Memory.read_write h]

theorem emit_of_lt {v : Byte} {s : State} (h : s.outPos.toNat < s.outCap.toNat) :
    emit v s = .ok () (putByte v s) := by
  simp [emit, Nat.not_le.2 h]

theorem emit_of_le {v : Byte} {s : State} (h : s.outCap.toNat ≤ s.outPos.toNat) :
    emit v s = .raise .outputOverflow s := by
  simp [emit, h]

end Sys2Proof.Machine
end

