-- ==== Sys2Proof/Laws/BitPredictor.lean ====
section
/-! SUPPORT. The Bit Predictor: its arithmetic is exact (spec 40_bit_predictor.md R72 to R74), what the renormalise
loop does (R70), and what one decision can do (R71). -/

set_option Elab.async false -- one theorem at a time, for the memory limit of the build

namespace Sys2Proof.Machine

/-! ### Arithmetic -/

theorem codeHigh_eq (c : Word) : codeHigh c = c.toNat / 256 := by
  simp [codeHigh, Nat.shiftRight_eq_div_pow]

theorem codeLow_eq (c : Word) : codeLow c = c.toNat % 256 := by
  have := Nat.and_two_pow_sub_one_eq_mod c.toNat 8
  simpa [codeLow] using this

theorem decision_iff (c : Word) (p : Byte) : decision c p = true ↔ c.toNat % 256 < p.toNat := by
  simp [decision, codeLow_eq]

/-- The product high * prob is below high * 256 (R73). -/
theorem high_mul_le (c : Word) (p : Byte) : c.toNat / 256 * p.toNat ≤ c.toNat / 256 * 255 :=
  Nat.mul_le_mul_left _ (by have := p.isLt; omega)

/-- CODE after a 1, exactly (R71, R73). -/
theorem codeAfter_one {c : Word} {p : Byte} (h : c.toNat % 256 < p.toNat) :
    (codeAfter c p).toNat = c.toNat % 256 + c.toNat / 256 * p.toNat := by
  have hd : decision c p = true := (decision_iff c p).2 h
  have := high_mul_le c p
  have := c.isLt
  simp only [codeAfter, hd, if_true, codeLow_eq, codeHigh_eq, BitVec.toNat_ofNat]
  omega

/-- CODE after a 0, exactly: the subtraction never borrows (R71, R73). -/
theorem codeAfter_zero {c : Word} {p : Byte} (h : p.toNat ≤ c.toNat % 256) :
    (codeAfter c p).toNat = c.toNat - p.toNat * (c.toNat / 256 + 1) ∧
      p.toNat * (c.toNat / 256 + 1) ≤ c.toNat := by
  have hd : ¬ decision c p = true := by rw [decision_iff]; omega
  have h1 := high_mul_le c p
  have h2 : p.toNat * (c.toNat / 256 + 1) = c.toNat / 256 * p.toNat + p.toNat := by ring
  have := c.isLt
  simp only [codeAfter, hd, codeHigh_eq]
  constructor
  · simp only [Bool.false_eq_true, if_false, BitVec.toNat_ofNat]; omega
  · omega

/-- A decision never increases CODE (R14). -/
theorem codeAfter_le (c : Word) (p : Byte) : (codeAfter c p).toNat ≤ c.toNat := by
  by_cases h : c.toNat % 256 < p.toNat
  · rw [codeAfter_one h]
    have := high_mul_le c p
    omega
  · rw [(codeAfter_zero (Nat.not_lt.1 h)).1]; omega

theorem probUp_toNat : ∀ p : Byte, (probUp p).toNat = p.toNat + (264 - p.toNat) / 16 := by decide

theorem probDown_toNat : ∀ p : Byte, (probDown p).toNat = p.toNat - (p.toNat + 8) / 16 := by decide

/-- Both updates keep an entry in 7 to 249 (R12). -/
theorem adapt_range {p : Byte} (h : 7 ≤ p.toNat ∧ p.toNat ≤ 249) (b : Bool) :
    7 ≤ (adapt p b).toNat ∧ (adapt p b).toNat ≤ 249 := by
  cases b
  · simp only [adapt, Bool.false_eq_true, if_false, probDown_toNat]; omega
  · simp only [adapt, if_true, probUp_toNat]; omega

/-- Neither update takes an entry to 0 (R12, R72). -/
theorem adapt_pos {p : Byte} (h : 1 ≤ p.toNat) (b : Bool) : 1 ≤ (adapt p b).toNat := by
  cases b
  · simp only [adapt, Bool.false_eq_true, if_false, probDown_toNat]; omega
  · simp only [adapt, if_true, probUp_toNat]; omega

/-! ### The refill -/

section Refill
variable (b : Byte) (s : State)
@[simp] theorem refill_probs : (refill b s).probs = s.probs := rfl
@[simp] theorem refill_inPos : (refill b s).inPos = s.inPos := rfl
@[simp] theorem refill_outPos : (refill b s).outPos = s.outPos := rfl
@[simp] theorem refill_offset : (refill b s).offset = s.offset := rfl
@[simp] theorem refill_pwm : (refill b s).pwm = s.pwm := rfl
@[simp] theorem refill_status : (refill b s).status = s.status := rfl
@[simp] theorem refill_cause : (refill b s).cause = s.cause := rfl
@[simp] theorem refill_inLen : (refill b s).inLen = s.inLen := rfl
@[simp] theorem refill_outCap : (refill b s).outCap = s.outCap := rfl
@[simp] theorem refill_inMem : (refill b s).inMem = s.inMem := rfl
@[simp] theorem refill_outMem : (refill b s).outMem = s.outMem := rfl
@[simp] theorem refill_ret : (refill b s).ret = s.ret := rfl
@[simp] theorem refill_hostQ : (refill b s).hostQ = s.hostQ := rfl
@[simp] theorem refill_free : (refill b s).free = s.free := rfl
end Refill

/-- A refill multiplies CODE by 256 and adds the byte (R31, R70). -/
theorem refill_code_toNat {b : Byte} {s : State} (h : s.code.toNat < 4096) :
    (refill b s).code.toNat = s.code.toNat * 256 + b.toNat := by
  have hb := b.isLt
  have : s.code.toNat <<< 8 ||| b.toNat = s.code.toNat * 256 + b.toNat := by
    rw [Nat.shiftLeft_eq, Nat.mul_comm, ← Nat.two_pow_add_eq_or_of_lt (by simpa using hb)]
  simp only [refill, Config.refillBits, State.setCode_code, this, BitVec.toNat_ofNat]
  omega

/-- Only CODE and IN_POS may differ. -/
def OnlyCursor (s t : State) : Prop := t = { s with code := t.code, inPos := t.inPos }

theorem OnlyCursor.refl (s : State) : OnlyCursor s s := rfl

theorem OnlyCursor.trans {s t u : State} (h : OnlyCursor s t) (h' : OnlyCursor t u) : OnlyCursor s u := by
  unfold OnlyCursor at *; rw [h'] ; rw [h]

/-- The state after one iteration of the renormalise loop. -/
def refilled (s : State) : State := refill (s.readIn s.inPos.toNat) s.bumpInPos

theorem refilled_onlyCursor (s : State) : OnlyCursor s (refilled s) := rfl

theorem refilled_inPos_toNat {s : State} (h : s.inPos.toNat < s.inLen.toNat) :
    (refilled s).inPos.toNat = s.inPos.toNat + 1 := bumpInPos_toNat h

theorem refilled_code_toNat {s : State} (h : s.code.toNat < 4096) :
    (refilled s).code.toNat = s.code.toNat * 256 + (s.readIn s.inPos.toNat).toNat :=
  refill_code_toNat h

@[simp] theorem refilled_inLen (s : State) : (refilled s).inLen = s.inLen := rfl

@[simp] theorem refilled_inMem (s : State) : (refilled s).inMem = s.inMem := rfl

/-! ### The renormalise loop -/

theorem renormalise_of_ge {s : State} (h : 4096 ≤ s.code.toNat) : renormalise s = .ok () s := by
  unfold renormalise
  cases s.inLen.toNat - s.inPos.toNat <;> simp [renormaliseWithin, Nat.not_lt.2 h]

theorem renormalise_truncated {s : State} (h : s.code.toNat < 4096) (h' : s.inLen.toNat ≤ s.inPos.toNat) :
    renormalise s = .raise .truncatedInput s := by
  have : s.inLen.toNat - s.inPos.toNat = 0 := by omega
  simp [renormalise, this, renormaliseWithin, h]

theorem renormalise_refill {s : State} (h : s.code.toNat < 4096) (h' : s.inPos.toNat < s.inLen.toNat) :
    renormalise s = renormalise (refilled s) := by
  obtain ⟨k, hk⟩ : ∃ k, s.inLen.toNat - s.inPos.toNat = k + 1 := ⟨s.inLen.toNat - s.inPos.toNat - 1, by omega⟩
  have hk' : (refilled s).inLen.toNat - (refilled s).inPos.toNat = k := by
    rw [refilled_inPos_toNat h', refilled_inLen]; omega
  unfold renormalise
  rw [hk, hk']
  simp only [renormaliseWithin, Config.renormLimit, h, if_true, nextByte_of_lt h', Res.andThen_ok]
  rfl

/-- The loop of R70, as an induction: what holds when CODE is renormalised, or when no byte is left,
and is carried back over a refill, holds of every state. -/
theorem renormalise_induction {P : State → Prop} (done : ∀ s, 4096 ≤ s.code.toNat → P s)
    (dry : ∀ s, s.code.toNat < 4096 → s.inLen.toNat ≤ s.inPos.toNat → P s)
    (more : ∀ s, s.code.toNat < 4096 → s.inPos.toNat < s.inLen.toNat → P (refilled s) → P s) (s : State) : P s := by
  induction hn : s.inLen.toNat - s.inPos.toNat using Nat.strong_induction_on generalizing s with
  | _ n ih =>
    by_cases h : 4096 ≤ s.code.toNat
    · exact done s h
    · by_cases h' : s.inPos.toNat < s.inLen.toNat
      · refine more s (by omega) h' (ih _ ?_ (refilled s) rfl)
        rw [refilled_inPos_toNat h', refilled_inLen]; omega
      · exact dry s (by omega) (by omega)

/-- All that the renormalise loop can do (R14, R17, R70). -/
theorem renormalise_post (s : State) :
    (renormalise s).Post
      (fun _ t => OnlyCursor s t ∧ 4096 ≤ t.code.toNat ∧ s.inPos.toNat ≤ t.inPos.toNat ∧
        (s.code.toNat < 2 ^ 20 → t.code.toNat < 2 ^ 20) ∧
        (s.inPos.toNat ≤ s.inLen.toNat → t.inPos.toNat ≤ t.inLen.toNat))
      (fun f t => f = .truncatedInput ∧ OnlyCursor s t ∧ t.code.toNat < 4096 ∧ t.inLen.toNat ≤ t.inPos.toNat) := by
  induction s using renormalise_induction with
  | done s h =>
    rw [renormalise_of_ge h]
    exact ⟨.refl s, h, le_rfl, id, id⟩
  | dry s h h' =>
    rw [renormalise_truncated h h']
    exact ⟨rfl, .refl s, h, h'⟩
  | more s h h' ih =>
    rw [renormalise_refill h h']
    refine ih.mono ?_ ?_
    · rintro _ t ⟨h1, h2, h3, h4, h5⟩
      have hb := (s.readIn s.inPos.toNat).isLt
      rw [refilled_inPos_toNat h'] at h3 h5
      rw [refilled_code_toNat h] at h4
      rw [refilled_inLen] at h5
      exact ⟨(refilled_onlyCursor s).trans h1, h2, by omega, fun _ => h4 (by omega), fun _ => h5 (by omega)⟩
    · rintro f t ⟨h1, h2, h3⟩
      exact ⟨h1, (refilled_onlyCursor s).trans h2, h3⟩

/-! ### One decision -/

section Decide1
variable (c : Nat) (s : State)
@[simp] theorem decide1_inPos : (decide1 c s).inPos = s.inPos := by simp [decide1]
@[simp] theorem decide1_code : (decide1 c s).code = codeAfter s.code (s.getProb c) := by simp [decide1]
@[simp] theorem decide1_outPos : (decide1 c s).outPos = s.outPos := by simp [decide1]
@[simp] theorem decide1_offset : (decide1 c s).offset = s.offset := by simp [decide1]
@[simp] theorem decide1_pwm : (decide1 c s).pwm = s.pwm := by simp [decide1]
@[simp] theorem decide1_status : (decide1 c s).status = s.status := by simp [decide1]
@[simp] theorem decide1_cause : (decide1 c s).cause = s.cause := by simp [decide1]
@[simp] theorem decide1_inLen : (decide1 c s).inLen = s.inLen := by simp [decide1]
@[simp] theorem decide1_outCap : (decide1 c s).outCap = s.outCap := by simp [decide1]
@[simp] theorem decide1_inMem : (decide1 c s).inMem = s.inMem := by simp [decide1]
@[simp] theorem decide1_outMem : (decide1 c s).outMem = s.outMem := by simp [decide1]
@[simp] theorem decide1_ret : (decide1 c s).ret = s.ret := by simp [decide1]
@[simp] theorem decide1_hostQ : (decide1 c s).hostQ = s.hostQ := by simp [decide1]
@[simp] theorem decide1_free : (decide1 c s).free = s.free := by simp [decide1]
end Decide1

/-- One entry of PROBS is written, the one read (R10). -/
theorem decide1_getProb (c : Nat) (s : State) (i : Nat) :
    (decide1 c s).getProb i =
      if c = i ∧ c < Config.nprobs then adapt (s.getProb c) (decision s.code (s.getProb c)) else s.getProb i := by
  unfold decide1
  rw [State.getProb_setProb]
  rfl

/-- Only CODE, IN_POS and PROBS may differ: the row DECODE_BIT of the access matrix (R26). -/
def OnlyPredictor (s t : State) : Prop := t = { s with probs := t.probs, code := t.code, inPos := t.inPos }

theorem OnlyPredictor.refl (s : State) : OnlyPredictor s s := rfl

theorem OnlyPredictor.trans {s t u : State} (h : OnlyPredictor s t) (h' : OnlyPredictor t u) :
    OnlyPredictor s u := by
  unfold OnlyPredictor at *; rw [h'] ; rw [h]

theorem OnlyCursor.toPredictor {s t : State} (h : OnlyCursor s t) : OnlyPredictor s t := by
  unfold OnlyCursor at h; unfold OnlyPredictor; rw [h]

theorem decide1_onlyPredictor (c : Nat) (s : State) : OnlyPredictor s (decide1 c s) := by
  unfold OnlyPredictor decide1 State.setProb
  split <;> rfl

theorem OnlyPredictor.fields {s t : State} (h : OnlyPredictor s t) :
    t.outPos = s.outPos ∧ t.offset = s.offset ∧ t.pwm = s.pwm ∧ t.status = s.status ∧ t.cause = s.cause ∧
    t.inLen = s.inLen ∧ t.outCap = s.outCap ∧ t.inMem = s.inMem ∧ t.outMem = s.outMem ∧ t.ret = s.ret ∧
    t.hostQ = s.hostQ ∧ t.free = s.free := by
  unfold OnlyPredictor at h
  rw [h]
  simp

theorem OnlyCursor.getProb {s t : State} (h : OnlyCursor s t) (i : Nat) : t.getProb i = s.getProb i := by
  unfold OnlyCursor at h; rw [h]; rfl

theorem OnlyCursor.inLen {s t : State} (h : OnlyCursor s t) : t.inLen = s.inLen := by
  unfold OnlyCursor at h; rw [h]

/-- DECODE_BIT gives a decision exactly when the renormalise loop ends (R71). -/
theorem decodeBit_eq_ok {c : Nat} {s t : State} {b : Bool} :
    decodeBit c s = .ok b t ↔
      ∃ u, renormalise s = .ok () u ∧ b = decision u.code (u.getProb c) ∧ t = decide1 c u := by
  simp only [decodeBit, Res.andThen_eq_ok, Res.ok.injEq]
  constructor
  · rintro ⟨_, u, h, rfl, rfl⟩; exact ⟨u, h, rfl, rfl⟩
  · rintro ⟨u, h, rfl, rfl⟩; exact ⟨(), u, h, rfl, rfl⟩

theorem decodeBit_of_ge {c : Nat} {s : State} (h : 4096 ≤ s.code.toNat) :
    decodeBit c s = .ok (decision s.code (s.getProb c)) (decide1 c s) := by
  simp [decodeBit, renormalise_of_ge h]

theorem decodeBit_refill {c : Nat} {s : State} (h : s.code.toNat < 4096) (h' : s.inPos.toNat < s.inLen.toNat) :
    decodeBit c s = decodeBit c (refilled s) := by
  simp [decodeBit, renormalise_refill h h']

theorem decodeBit_truncated {c : Nat} {s : State} (h : s.code.toNat < 4096) (h' : s.inLen.toNat ≤ s.inPos.toNat) :
    decodeBit c s = .raise .truncatedInput s := by
  simp [decodeBit, renormalise_truncated h h']

/-- All that one DECODE_BIT can do (R71, R26). -/
theorem decodeBit_post (c : Nat) (s : State) :
    (decodeBit c s).Post
      (fun b t => OnlyPredictor s t ∧ s.inPos.toNat ≤ t.inPos.toNat ∧
        (∀ i, i ≠ c → t.getProb i = s.getProb i) ∧
        (c < Config.nprobs → t.getProb c = adapt (s.getProb c) b) ∧
        (s.code.toNat < 2 ^ 20 → t.code.toNat < 2 ^ 20) ∧
        (s.inPos.toNat ≤ s.inLen.toNat → t.inPos.toNat ≤ t.inLen.toNat))
      (fun f t => f = .truncatedInput ∧ OnlyCursor s t ∧ t.code.toNat < 4096 ∧ t.inLen.toNat ≤ t.inPos.toNat) := by
  refine Res.Post.andThen (renormalise_post s) ?_
  rintro _ u ⟨h1, -, h3, h4, h5⟩
  have hl := codeAfter_le u.code (u.getProb c)
  simp only [Res.post_ok, decide1_inPos, decide1_code, decide1_inLen, decide1_getProb]
  refine ⟨h1.toPredictor.trans (decide1_onlyPredictor c u), h3, ?_, ?_, fun h => by have := h4 h; omega, h5⟩
  · intro i hi
    rw [if_neg (fun h => hi h.1.symm)]
    exact h1.getProb i
  · intro hc
    rw [if_pos ⟨trivial, hc⟩, h1.getProb]

end Sys2Proof.Machine
end

