-- ==== Sys2Proof/Laws/ByteCoder.lean ====
section
/-! SUPPORT. The byte-layer coder of 95_test_vectors.md section 7: it undoes the split of CODE, and its state stays
between 4096 and 2^20 (spec 40_bit_predictor.md R75; log 21). -/

set_option Elab.async false -- one theorem at a time, for the memory limit of the build

namespace Sys2Proof

open Machine

/-- The two parts of the coder's value: what DECODE_BIT will split it into (R71, R75). -/
theorem unsplit_parts {y p : Nat} {b : Bool} (h1 : 1 ≤ p) (h2 : p ≤ 255) :
    unsplit y p b / 256 = y / bitShare p b ∧
      unsplit y p b % 256 = y % bitShare p b + (if b then 0 else p) := by
  cases b
  · have := Nat.mod_lt y (show 0 < 256 - p by omega)
    simp only [unsplit, bitShare, Bool.false_eq_true, if_false]; omega
  · have := Nat.mod_lt y h1
    simp only [unsplit, bitShare, if_true]; omega

/-- The coder's state is renormalised, with every probability in the range R12 gives. -/
theorem encodeFrom_range (ds : List Decision) (probs : Nat → Byte)
    (hp : ∀ i, 7 ≤ (probs i).toNat ∧ (probs i).toNat ≤ 249) :
    4096 ≤ (encodeFrom probs ds).1 ∧ (encodeFrom probs ds).1 < 2 ^ 20 := by
  induction ds generalizing probs with
  | nil => simp [encodeFrom, Config.renormLimit]
  | cons d ds ih =>
    obtain ⟨c, b⟩ := d
    have hr := ih (fun i => if i = c then adapt (probs c) b else probs i) (by
      intro i
      by_cases e : i = c
      · simp only [e, if_true]; exact adapt_range (hp c) b
      · simp only [e, if_false]; exact hp i)
    have hf : 7 ≤ bitShare (probs c).toNat b ∧ bitShare (probs c).toNat b ≤ 249 := by
      have := hp c; unfold bitShare; split <;> omega
    have hpc := hp c
    have key : ∀ y, 16 * bitShare (probs c).toNat b ≤ y → y < 4096 * bitShare (probs c).toNat b →
        4096 ≤ unsplit y (probs c).toNat b ∧ unsplit y (probs c).toNat b < 2 ^ 20 := by
      intro y h1 h2
      have h3 := (unsplit_parts (y := y) (p := (probs c).toNat) (b := b) (by omega) (by omega)).1
      have a1 : 16 ≤ y / bitShare (probs c).toNat b := (Nat.le_div_iff_mul_le (by omega)).2 h1
      have a2 : y / bitShare (probs c).toNat b < 4096 := (Nat.div_lt_iff_lt_mul (by omega)).2 h2
      rw [← h3] at a1 a2
      omega
    simp only [encodeFrom, Config.renormLimit]
    split
    · rw [Nat.shiftRight_eq_div_pow]
      exact key _ (by omega) (by omega)
    · exact key _ (by omega) (by omega)

end Sys2Proof
end

