-- ==== Sys2Proof/Laws/Config.lean ====
section
/-! SUPPORT. The constants of spec 00_scope.md R4 and R6 hold together, and are the ones the machine is built from: the
widths of its types, the sizes of the regions of PROBS and the context map (R5, 10_state.md R11). -/

namespace Sys2Proof.Config

open Machine

/-! ### Widths -/

/-- An entry of PROBS has PROB_W bits. -/
theorem byte_is_probW_bits : Byte = BitVec probW := rfl

/-- CODE has CODE_W bits, a cursor AW and a value VAL_W: all are a `Word`. -/
theorem word_is_register_bits : Word = BitVec codeW ∧ Word = BitVec aw ∧ Word = BitVec valW := ⟨rfl, rfl, rfl⟩

/-- PROB_INIT is the midpoint of an entry, and the two biases differ by the range of an entry (R12, R72). -/
theorem bias_of_probW : probInit.toNat = 2 ^ (probW - 1) ∧ adaptUpBias = 2 ^ probW + adaptDnBias := by decide

/-- A refill of a value below RENORM_LIMIT fits CODE (R14). -/
theorem refill_fits_codeW : renormLimit * 2 ^ refillBits ≤ 2 ^ codeW := by decide

/-! ### Regions -/

/-- The regions cover the table exactly: 1 + 255 + 1 + 128 = 385 (R4, R11). -/
theorem regions_cover_probs : nSel + nLit + nOffsel + nInt = nprobs := rfl

/-- N_LIT is the number of inner nodes of a tree of LIT_DEPTH levels (R91). -/
theorem nLit_of_litDepth : nLit + 1 = 2 ^ litDepth := by decide

/-- N_INT is split evenly into the two integer regions, two slots per bit position, and the positions are the
bits of a value (R5, R6). -/
theorem nInt_split : nInt = 2 * uintSlots ∧ uintSlots = 2 * uintMaxPos ∧ uintMaxPos = valW := ⟨rfl, rfl, rfl⟩

/-- The context map lays the regions one after another, in the order N_SEL, N_LIT, N_OFFSEL, N_INT (R5). -/
theorem upkr_lays_regions :
    upkr.ctxSel = 0 ∧ upkr.ctxLit = upkr.ctxSel + nSel ∧ upkr.ctxOffsel = upkr.ctxLit + nLit ∧
    upkr.ctxOff = upkr.ctxOffsel + nOffsel ∧ upkr.ctxLen = upkr.ctxOff + uintSlots ∧
    upkr.ctxLen + uintSlots = nprobs := by decide

/-- Every context of an integer lies in its own half of the N_INT slots (R81). -/
theorem uint_contexts_in_nInt (b : UintBase) {i : Nat} (hi : i < uintMaxPos) :
    nSel + nLit + nOffsel ≤ continueCtx (uintBase upkr b) i ∧ continueCtx (uintBase upkr b) i < nprobs ∧
    nSel + nLit + nOffsel ≤ valueCtx (uintBase upkr b) i ∧ valueCtx (uintBase upkr b) i < nprobs := by
  cases b <;> simp only [continueCtx, valueCtx, uintBase, upkr, nSel, nLit, nOffsel, nprobs, uintMaxPos] at * <;> omega

end Sys2Proof.Config
end

