-- ==== Sys2Proof/Laws/Copy.lean ====
section
/-! SUPPORT. The Copy Engine: what the byte loop leaves (spec 44_copy_engine.md R110, R112) and when COPY_MATCH raises (R111). -/

set_option Elab.async false -- one theorem at a time, for the memory limit of the build

namespace Sys2Proof.Machine

/-- Only OUT and OUT_POS may differ: the row COPY_MATCH of the access matrix (R26). -/
def OnlyOut (s t : State) : Prop := t = { s with outPos := t.outPos, outMem := t.outMem }

theorem OnlyOut.refl (s : State) : OnlyOut s s := rfl

theorem OnlyOut.trans {s t u : State} (h : OnlyOut s t) (h' : OnlyOut t u) : OnlyOut s u := by
  unfold OnlyOut at *; rw [h']; rw [h]

theorem OnlyOut.fields {s t : State} (h : OnlyOut s t) :
    t.probs = s.probs ∧ t.code = s.code ∧ t.inPos = s.inPos ∧ t.offset = s.offset ∧ t.pwm = s.pwm ∧
    t.status = s.status ∧ t.cause = s.cause ∧ t.inLen = s.inLen ∧ t.outCap = s.outCap ∧ t.inMem = s.inMem ∧
    t.ret = s.ret ∧ t.hostQ = s.hostQ ∧ t.free = s.free := by
  unfold OnlyOut at h; rw [h]; simp

theorem putByte_onlyOut (v : Byte) (s : State) : OnlyOut s (putByte v s) := rfl

theorem copyBytes_onlyOut (o : Word) (n : Nat) (s : State) : OnlyOut s (copyBytes o n s) := by
  induction n generalizing s with
  | zero => exact .refl s
  | succ n ih => exact (putByte_onlyOut _ s).trans (ih _)

/-- The source index advances with the destination and wraps after `o` bytes. -/
theorem succ_mod_cases (i o : Nat) (h : 1 ≤ o) :
    (i % o + 1 < o ∧ (i + 1) % o = i % o + 1) ∨ (i % o + 1 = o ∧ (i + 1) % o = 0) := by
  have hlt := Nat.mod_lt i h
  have hs : (i + 1) % o = (i % o + 1) % o := (Nat.mod_add_mod i o 1).symm
  by_cases e : i % o + 1 = o
  · exact .inr ⟨e, by rw [hs, e, Nat.mod_self]⟩
  · exact .inl ⟨by omega, by rw [hs, Nat.mod_eq_of_lt (by omega)]⟩

/-- The copy writes `n` bytes from OUT_POS on and no other; byte `i` of them is byte `i mod o` of the
`o` bytes before OUT_POS (R112). -/
theorem copyBytes_spec {o : Word} (ho : 1 ≤ o.toNat) :
    ∀ (n : Nat) (s : State), o.toNat ≤ s.outPos.toNat → s.outPos.toNat + n ≤ s.outCap.toNat →
      Memory.wf s.outMem = true →
      (copyBytes o n s).outPos.toNat = s.outPos.toNat + n ∧
      Memory.wf (copyBytes o n s).outMem = true ∧
      (∀ a, a < s.outPos.toNat ∨ s.outPos.toNat + n ≤ a → (copyBytes o n s).readOut a = s.readOut a) ∧
      ∀ i, i < n →
        (copyBytes o n s).readOut (s.outPos.toNat + i) = s.readOut (s.outPos.toNat - o.toNat + i % o.toNat) := by
  intro n
  induction n with
  | zero => intro s _ _ hw; exact ⟨rfl, hw, fun _ _ => rfl, fun i hi => absurd hi (by omega)⟩
  | succ n ih =>
    intro s h1 h2 hw
    have hlt : s.outPos.toNat < s.outCap.toNat := by omega
    obtain ⟨v, hv⟩ : ∃ v, v = s.readOut (s.outPos.toNat - o.toNat) := ⟨_, rfl⟩
    have hp := putByte_outPos_toNat (v := v) hlt
    have hr := fun a => putByte_readOut (v := v) hw a
    obtain ⟨e1, e2, e3, e4⟩ := ih (putByte v s) (by omega) (by rw [putByte_outCap]; omega) (putByte_wf hw)
    rw [hp] at e1 e3 e4
    have hc : copyBytes o (n + 1) s = copyBytes o n (putByte v s) := by rw [hv]; rfl
    rw [hc]
    refine ⟨by omega, e2, ?_, ?_⟩
    · intro a ha
      rw [e3 a (by omega), hr, if_neg (by omega)]
    · intro i hi
      cases i with
      | zero => rw [e3 _ (by omega), hr, if_pos (by omega), hv]; simp
      | succ i =>
        have e := e4 i (by omega)
        rw [show s.outPos.toNat + (i + 1) = s.outPos.toNat + 1 + i by omega, e, hr]
        rcases succ_mod_cases i o.toNat ho with ⟨c1, c2⟩ | ⟨c1, c2⟩
        · rw [if_neg (by omega), c2]; congr 1; omega
        · rw [if_pos (by omega), c2, hv]; rfl

theorem copyMatch_invalid {o l : Word} {s : State} (h : o.toNat = 0 ∨ s.outPos.toNat < o.toNat) :
    copyMatch o l s = .raise .invalidOffset s := by simp only [copyMatch, if_pos h]

theorem copyMatch_overflow {o l : Word} {s : State} (h1 : 1 ≤ o.toNat) (h2 : o.toNat ≤ s.outPos.toNat)
    (h3 : s.outCap.toNat < s.outPos.toNat + l.toNat) : copyMatch o l s = .raise .outputOverflow s := by
  simp only [copyMatch]
  rw [if_neg (by omega), if_pos h3]

theorem copyMatch_ok {o l : Word} {s : State} (h1 : 1 ≤ o.toNat) (h2 : o.toNat ≤ s.outPos.toNat)
    (h3 : s.outPos.toNat + l.toNat ≤ s.outCap.toNat) :
    copyMatch o l s = .ok () (copyBytes o l.toNat s) := by
  simp only [copyMatch]
  rw [if_neg (by omega), if_neg (by omega)]

/-- COPY_MATCH raises one of its two faults, in the state it was given, or copies (R111). -/
theorem copyMatch_cases (o l : Word) (s : State) :
    ((o.toNat = 0 ∨ s.outPos.toNat < o.toNat) ∧ copyMatch o l s = .raise .invalidOffset s) ∨
    (1 ≤ o.toNat ∧ o.toNat ≤ s.outPos.toNat ∧ s.outCap.toNat < s.outPos.toNat + l.toNat ∧
      copyMatch o l s = .raise .outputOverflow s) ∨
    (1 ≤ o.toNat ∧ o.toNat ≤ s.outPos.toNat ∧ s.outPos.toNat + l.toNat ≤ s.outCap.toNat ∧
      copyMatch o l s = .ok () (copyBytes o l.toNat s)) := by
  by_cases h1 : o.toNat = 0 ∨ s.outPos.toNat < o.toNat
  · exact .inl ⟨h1, copyMatch_invalid h1⟩
  · have a1 : 1 ≤ o.toNat := by omega
    have a2 : o.toNat ≤ s.outPos.toNat := by omega
    by_cases h3 : s.outCap.toNat < s.outPos.toNat + l.toNat
    · exact .inr (.inl ⟨a1, a2, h3, copyMatch_overflow a1 a2 h3⟩)
    · exact .inr (.inr ⟨a1, a2, by omega, copyMatch_ok a1 a2 (by omega)⟩)

end Sys2Proof.Machine
end

