-- ==== Sys2Proof/Laws/Grammar.lean ====
section
/-! SUPPORT. The grammar, over any source of decisions: what every reader keeps, and when two sources read the same
(spec 30_encoding.md, 41_integer_decoder.md, 42_literal_tree.md, 43_symbol_grammar.md R97 to R101). -/

set_option Elab.async false -- one theorem at a time, for the memory limit of the build

namespace Sys2Proof

open Machine

/-! ### Values -/

theorem childNode_eq (n : Nat) (b : Bool) : childNode n b = 2 * n + b.toNat := by
  have : n <<< 1 = n * 2 := by simp [Nat.shiftLeft_eq]
  cases b
  · simp [childNode, this, Nat.mul_comm]
  · have h := Nat.two_pow_add_eq_or_of_lt (i := 1) (b := 1) (by norm_num) n
    simp only [pow_one] at h
    simp [childNode, this, Nat.mul_comm n 2, h]

theorem leafByte_toNat (n : Nat) : (leafByte n).toNat = n % 256 := by
  have := Nat.and_two_pow_sub_one_eq_mod n 8
  simp only [leafByte, BitVec.toNat_ofNat]
  norm_num at this
  rw [this]; omega

theorem uintValue_eq {pos m : Nat} (h : m < 2 ^ pos) : uintValue pos m = 2 ^ pos + m := by
  have := Nat.two_pow_add_eq_or_of_lt h 1
  simpa [uintValue, Nat.shiftLeft_eq] using this.symm

/-- The magnitude stays below 1 << bit_position (R80). -/
theorem foldValueBit_lt {order : BitOrder} {m pos : Nat} (h : m < 2 ^ pos) (d : Bool) :
    foldValueBit order m pos d < 2 ^ (pos + 1) := by
  have hd := Bool.toNat_le d
  cases order
  · have e := childNode_eq m d
    simp only [childNode] at e
    simp only [foldValueBit, e, pow_succ]
    omega
  · simp only [foldValueBit]
    refine Nat.or_lt_two_pow (h.trans (by simp [pow_succ])) ?_
    rw [Nat.shiftLeft_eq, pow_succ]
    cases d <;> simp

/-! ### What every reader keeps -/

section Keeps

variable {σ : Type} {src : Source σ} {cfg : Config} {C : Nat → Prop} {I : σ → Prop} {E : FaultName → σ → Prop}

/-- An integer is 1 to 2^32 - 1 and touches only its own contexts (R80, R83, R84). -/
theorem readUintFrom_post {order : BitOrder} {base : Nat}
    (hC : ∀ k, k < Config.uintSlots → C (base + k))
    (hbit : ∀ c s, C c → I s → (src.bit c s).Post (fun _ t => I t) E)
    (hover : ∀ s, I s → E .uintOverflow s) :
    ∀ left pos m s, left + pos = Config.uintMaxPos → m < 2 ^ pos → I s →
      (readUintFrom order src base left pos m s).Post
        (fun v t => (∃ n m', n < Config.uintMaxPos ∧ m' < 2 ^ n ∧ v = 2 ^ n + m') ∧ I t) E := by
  intro left
  induction left with
  | zero => intro pos m s _ _ hs; exact hover s hs
  | succ left ih =>
    intro pos m s hp hm hs
    simp only [Config.uintMaxPos] at hp
    unfold readUintFrom
    refine Res.Post.andThen (hbit _ s ?_ hs) ?_
    · have := hC (2 * pos) (by simp only [Config.uintSlots]; omega)
      simpa [continueCtx] using this
    · intro c s1 hs1
      cases c
      · refine ⟨⟨pos, m, by simp only [Config.uintMaxPos]; omega, hm, uintValue_eq hm⟩, hs1⟩
      · refine Res.Post.andThen (hbit _ s1 ?_ hs1) ?_
        · have := hC (2 * pos + 1) (by simp only [Config.uintSlots]; omega)
          simpa [valueCtx, add_assoc] using this
        · intro d s2 hs2
          exact ih _ _ s2 (by simp only [Config.uintMaxPos]; omega) (foldValueBit_lt hm d) hs2

theorem readUint_post {order : BitOrder} {base : Nat} {s : σ}
    (hC : ∀ k, k < Config.uintSlots → C (base + k))
    (hbit : ∀ c s, C c → I s → (src.bit c s).Post (fun _ t => I t) E)
    (hover : ∀ s, I s → E .uintOverflow s) (hs : I s) :
    (readUint order src base s).Post (fun v t => (1 ≤ v ∧ v < 2 ^ 32) ∧ I t) E := by
  refine (readUintFrom_post hC hbit hover _ _ _ s rfl (by norm_num) hs).mono ?_ fun _ _ h => h
  rintro v t ⟨⟨n, m, hn, hm, rfl⟩, ht⟩
  have h1 : 2 ^ (n + 1) ≤ 2 ^ 32 := Nat.pow_le_pow_right (by norm_num) hn
  have h2 := Nat.one_le_two_pow (n := n)
  rw [pow_succ] at h1
  exact ⟨⟨by omega, by omega⟩, ht⟩

theorem readTree_post (hC : ∀ n, 1 ≤ n → n ≤ Config.nLit → C (nodeCtx cfg n))
    (hbit : ∀ c s, C c → I s → (src.bit c s).Post (fun _ t => I t) E) :
    ∀ k node s, 1 ≤ node → (node + 1) * 2 ^ k ≤ 512 → I s →
      (readTree cfg src k node s).Post (fun _ t => I t) E := by
  intro k
  induction k with
  | zero => intro node s _ _ hs; exact hs
  | succ k ih =>
    intro node s h1 h2 hs
    have hk := Nat.one_le_two_pow (n := k)
    rw [pow_succ] at h2
    have h3 : (node + 1) * 2 ≤ (node + 1) * (2 ^ k * 2) := Nat.mul_le_mul_left _ (by omega)
    unfold readTree
    refine Res.Post.andThen (hbit _ s (hC node h1 (by simp only [Config.nLit]; omega)) hs) ?_
    intro b s1 hs1
    have hb := Bool.toNat_le b
    have h4 : (childNode node b + 1) * 2 ^ k ≤ (2 * (node + 1)) * 2 ^ k :=
      Nat.mul_le_mul_right _ (by rw [childNode_eq]; omega)
    refine ih _ s1 (by rw [childNode_eq]; omega) (h4.trans ?_) hs1
    calc 2 * (node + 1) * 2 ^ k = (node + 1) * (2 ^ k * 2) := by ring
      _ ≤ 512 := h2

theorem readLiteral_post {s : σ} (hC : ∀ n, 1 ≤ n → n ≤ Config.nLit → C (nodeCtx cfg n))
    (hbit : ∀ c s, C c → I s → (src.bit c s).Post (fun _ t => I t) E) (hs : I s) :
    (readLiteral cfg src s).Post (fun _ t => I t) E := by
  unfold readLiteral
  exact Res.Post.andThen (readTree_post hC hbit _ _ s le_rfl (by norm_num [Config.litDepth]) hs) fun _ _ h => h

theorem lengthOfValue_ok {v : Nat} (h : 1 ≤ v ∧ v < 2 ^ 32) : Instr.lengthOk (lengthOfValue v) = true := by
  simp [Instr.lengthOk, lengthOfValue]; omega

theorem offsetOfValue_ok {v : Nat} (h : 1 ≤ v ∧ v < 2 ^ 32) (h1 : v ≠ Config.endValue) :
    Instr.offsetOk (offsetOfValue v) = true := by
  simp only [Config.endValue] at h1
  simp [Instr.offsetOk, offsetOfValue]; omega

/-- What every symbol's reading keeps; the symbol read is well formed and exists in the mode (R52, R55). -/
theorem readSymbol_post {pwm : Bool} {s : σ} (hsel : C cfg.ctxSel) (hoffsel : pwm = false → C cfg.ctxOffsel)
    (hlit : ∀ n, 1 ≤ n → n ≤ Config.nLit → C (nodeCtx cfg n))
    (hoff : ∀ k, k < Config.uintSlots → C (cfg.ctxOff + k))
    (hlen : ∀ k, k < Config.uintSlots → C (cfg.ctxLen + k))
    (hbit : ∀ c s, C c → I s → (src.bit c s).Post (fun _ t => I t) E)
    (hnew : ∀ o s, Instr.offsetOk o = true → I s → I (src.newOffset o s))
    (hover : ∀ s, I s → E .uintOverflow s) (hs : I s) :
    (readSymbol cfg src pwm s).Post (fun i t => (i.wf = true ∧ i.existsInMode pwm = true) ∧ I t) E := by
  have hl : ∀ s, I s → (readLength cfg src s).Post (fun l t => Instr.lengthOk l = true ∧ I t) E := by
    intro s hs
    exact Res.Post.andThen (readUint_post hlen hbit hover hs) fun v t h => ⟨lengthOfValue_ok h.1, h.2⟩
  have hn : ∀ s, I s → (readNewOffset cfg src pwm s).Post
      (fun i t => (i.wf = true ∧ i.existsInMode pwm = true) ∧ I t) E := by
    intro s hs
    refine Res.Post.andThen (readUint_post hoff hbit hover hs) ?_
    rintro v t ⟨hv, ht⟩
    by_cases h1 : v = Config.endValue
    · rw [if_pos h1]
      cases pwm
      · exact ⟨⟨rfl, rfl⟩, ht⟩
      · exact ⟨⟨rfl, rfl⟩, ht⟩
    · rw [if_neg h1]
      have ho := offsetOfValue_ok hv h1
      refine Res.Post.andThen (hl _ (hnew _ t ho ht)) ?_
      rintro l u ⟨hl, hu⟩
      cases pwm
      · exact ⟨⟨by simp [Instr.wf, ho, hl], rfl⟩, hu⟩
      · exact ⟨⟨by simp [Instr.wf, ho, hl], rfl⟩, hu⟩
  unfold readSymbol
  refine Res.Post.andThen (hbit _ s hsel hs) ?_
  intro sel s1 hs1
  cases sel
  · exact Res.Post.andThen (readLiteral_post hlit hbit hs1) fun b t ht => ⟨⟨rfl, rfl⟩, ht⟩
  · rw [if_pos rfl]
    unfold readMatch
    cases pwm
    · rw [if_neg (by simp)]
      refine Res.Post.andThen (hbit _ s1 (hoffsel rfl) hs1) ?_
      intro new s2 hs2
      cases new
      · refine Res.Post.andThen (hl s2 hs2) ?_
        rintro l t ⟨hl, ht⟩
        exact ⟨⟨hl, rfl⟩, ht⟩
      · exact hn s2 hs2
    · exact hn s1 hs1

end Keeps

/-! ### When two sources read the same -/

section Simulates

variable {σ τ : Type} {src : Source σ} {src' : Source τ} {cfg : Config}

/-- Both give the same value, in related states, or both raise the same fault, in states related by `F`. -/
def Machine.Res.Same {σ τ α : Type} (R F : σ → τ → Prop) (r : Res σ α) (r' : Res τ α) : Prop :=
  match r, r' with
  | .ok a s, .ok a' t => a = a' ∧ R s t
  | .raise e s, .raise e' t => e = e' ∧ F s t
  | .ok _ _, .raise _ _ => False
  | .raise _ _, .ok _ _ => False

theorem Machine.Res.Same.andThen {σ τ α β : Type} {R R' F : σ → τ → Prop} {r : Res σ α} {r' : Res τ α}
    {f : α → σ → Res σ β} {f' : α → τ → Res τ β} (h : Res.Same R F r r')
    (hf : ∀ a s t, R s t → Res.Same R' F (f a s) (f' a t)) : Res.Same R' F (r.andThen f) (r'.andThen f') := by
  cases r <;> cases r'
  · obtain ⟨rfl, h2⟩ := h
    exact hf _ _ _ h2
  · exact h.elim
  · exact h.elim
  · exact h

variable {R F : σ → τ → Prop} {C : Nat → Prop}

theorem readUintFrom_same {order : BitOrder} {base : Nat} (hC : ∀ k, k < Config.uintSlots → C (base + k))
    (hbit : ∀ c s t, C c → R s t → Res.Same R F (src.bit c s) (src'.bit c t)) (hF : ∀ s t, R s t → F s t) :
    ∀ left pos m s t, left + pos = Config.uintMaxPos → R s t →
      Res.Same R F (readUintFrom order src base left pos m s) (readUintFrom order src' base left pos m t) := by
  intro left
  induction left with
  | zero => intro pos m s t _ h; exact ⟨rfl, hF s t h⟩
  | succ left ih =>
    intro pos m s t hp h
    simp only [Config.uintMaxPos] at hp
    have c1 : C (continueCtx base pos) := hC (2 * pos) (by simp only [Config.uintSlots]; omega)
    have c2 : C (valueCtx base pos) := by
      have := hC (2 * pos + 1) (by simp only [Config.uintSlots]; omega)
      simpa [valueCtx, add_assoc] using this
    unfold readUintFrom
    refine (hbit _ s t c1 h).andThen fun c s1 t1 h1 => ?_
    cases c
    · exact ⟨rfl, h1⟩
    · exact (hbit _ s1 t1 c2 h1).andThen fun d s2 t2 h2 =>
        ih _ _ s2 t2 (by simp only [Config.uintMaxPos]; omega) h2

theorem readTree_same (hC : ∀ n, 1 ≤ n → n ≤ Config.nLit → C (nodeCtx cfg n))
    (hbit : ∀ c s t, C c → R s t → Res.Same R F (src.bit c s) (src'.bit c t)) :
    ∀ k node s t, 1 ≤ node → (node + 1) * 2 ^ k ≤ 512 → R s t →
      Res.Same R F (readTree cfg src k node s) (readTree cfg src' k node t) := by
  intro k
  induction k with
  | zero => intro node s t _ _ h; exact ⟨rfl, h⟩
  | succ k ih =>
    intro node s t h1 h2 h
    have hk := Nat.one_le_two_pow (n := k)
    rw [pow_succ] at h2
    have h3 : (node + 1) * 2 ≤ (node + 1) * (2 ^ k * 2) := Nat.mul_le_mul_left _ (by omega)
    refine (hbit _ s t (hC node h1 (by simp only [Config.nLit]; omega)) h).andThen fun b s1 t1 r1 => ?_
    have hb := Bool.toNat_le b
    have h4 : (childNode node b + 1) * 2 ^ k ≤ (2 * (node + 1)) * 2 ^ k :=
      Nat.mul_le_mul_right _ (by rw [childNode_eq]; omega)
    refine ih _ s1 t1 (by rw [childNode_eq]; omega) (h4.trans ?_) r1
    calc 2 * (node + 1) * 2 ^ k = (node + 1) * (2 ^ k * 2) := by ring
      _ ≤ 512 := h2

/-- Sources whose decisions agree at a symbol's contexts read the same symbol, or raise the same fault. -/
theorem readSymbol_same {pwm : Bool} {s : σ} {t : τ} (hsel : C cfg.ctxSel) (hoffsel : pwm = false → C cfg.ctxOffsel)
    (hlit : ∀ n, 1 ≤ n → n ≤ Config.nLit → C (nodeCtx cfg n))
    (hoff : ∀ k, k < Config.uintSlots → C (cfg.ctxOff + k))
    (hlen : ∀ k, k < Config.uintSlots → C (cfg.ctxLen + k))
    (hbit : ∀ c s t, C c → R s t → Res.Same R F (src.bit c s) (src'.bit c t)) (hF : ∀ s t, R s t → F s t)
    (hnew : ∀ o s t, R s t → R (src.newOffset o s) (src'.newOffset o t)) (h : R s t) :
    Res.Same R F (readSymbol cfg src pwm s) (readSymbol cfg src' pwm t) := by
  have hl : ∀ s t, R s t → Res.Same R F (readLength cfg src s) (readLength cfg src' t) := fun s t h =>
    (readUintFrom_same hlen hbit hF _ _ _ s t rfl h).andThen fun _ _ _ h => ⟨rfl, h⟩
  have hn : ∀ s t, R s t → Res.Same R F (readNewOffset cfg src pwm s) (readNewOffset cfg src' pwm t) := by
    intro s t h
    refine (readUintFrom_same hoff hbit hF _ _ _ s t rfl h).andThen fun v s1 t1 h1 => ?_
    by_cases hv : v = Config.endValue
    · rw [if_pos hv, if_pos hv]; exact ⟨rfl, h1⟩
    · rw [if_neg hv, if_neg hv]
      exact (hl _ _ (hnew _ _ _ h1)).andThen fun _ _ _ h => ⟨rfl, h⟩
  have ht : ∀ s t, R s t → Res.Same R F (readLiteral cfg src s) (readLiteral cfg src' t) := fun s t h =>
    (readTree_same hlit hbit _ _ s t le_rfl (by norm_num [Config.litDepth]) h).andThen fun _ _ _ h => ⟨rfl, h⟩
  refine (hbit _ s t hsel h).andThen fun sel s1 t1 h1 => ?_
  cases sel
  · exact (ht s1 t1 h1).andThen fun _ _ _ h => ⟨rfl, h⟩
  · rw [if_pos rfl, if_pos rfl]
    unfold readMatch
    cases pwm
    · refine (hbit _ s1 t1 (hoffsel rfl) h1).andThen fun new s2 t2 h2 => ?_
      cases new
      · exact (hl s2 t2 h2).andThen fun _ _ _ h => ⟨rfl, h⟩
      · exact hn s2 t2 h2
    · exact hn s1 t1 h1

end Simulates

/-! ### A source that follows another

As long as the states of the first stay good, where a state is good if a later one is. -/

section Follows

variable {σ τ : Type} {src : Source σ} {src' : Source τ} {cfg : Config} {good : σ → Prop} {R : σ → τ → Prop}

/-- If the first gives a value in a good state, so does the second, in a related state. -/
def Machine.Res.Follows {σ τ α : Type} (good : σ → Prop) (R : σ → τ → Prop) (r : Res σ α) (r' : Res τ α) : Prop :=
  ∀ v s, r = .ok v s → good s → ∃ t, r' = .ok v t ∧ R s t

/-- The state it started from was good if the one it gives a value in is. -/
def Machine.Res.Back {σ α : Type} (good : σ → Prop) (s : σ) (r : Res σ α) : Prop :=
  ∀ v s', r = .ok v s' → good s' → good s

theorem Machine.Res.Back.andThen {σ α β : Type} {good : σ → Prop} {s : σ} {r : Res σ α} {f : α → σ → Res σ β}
    (h : r.Back good s) (hf : ∀ a s1, (f a s1).Back good s1) : (r.andThen f).Back good s := by
  intro v s' e g
  obtain ⟨a, s1, e1, e2⟩ := Res.andThen_eq_ok.1 e
  exact h a s1 e1 (hf a s1 v s' e2 g)

theorem Machine.Res.Back.ok {σ α : Type} {good : σ → Prop} (a : α) (s : σ) : (Res.ok a s).Back good s := by
  intro v s' e g
  obtain ⟨-, rfl⟩ : a = v ∧ s = s' := by simpa using e
  exact g

theorem Machine.Res.Follows.andThen {σ τ α β : Type} {good : σ → Prop} {R : σ → τ → Prop} {r : Res σ α} {r' : Res τ α}
    {f : α → σ → Res σ β} {f' : α → τ → Res τ β} (h : Res.Follows good R r r')
    (hb : ∀ a s, (f a s).Back good s)
    (hf : ∀ a s t, R s t → Res.Follows good R (f a s) (f' a t)) :
    Res.Follows good R (r.andThen f) (r'.andThen f') := by
  intro v s e g
  obtain ⟨a, s1, e1, e2⟩ := Res.andThen_eq_ok.1 e
  obtain ⟨t1, e3, r1⟩ := h a s1 e1 (hb a s1 v s e2 g)
  obtain ⟨t, e4, r2⟩ := hf a s1 t1 r1 v s e2 g
  exact ⟨t, by simp [e3, e4], r2⟩

theorem Machine.Res.Follows.ok {σ τ α : Type} {good : σ → Prop} {R : σ → τ → Prop} (a : α) {s : σ} {t : τ} (h : R s t) :
    Res.Follows good R (.ok a s) (.ok a t) := by
  intro v s' e _
  obtain ⟨rfl, rfl⟩ : a = v ∧ s = s' := by simpa using e
  exact ⟨t, rfl, h⟩

theorem Machine.Res.Follows.raise {σ τ α : Type} {good : σ → Prop} {R : σ → τ → Prop} (e : FaultName) {s : σ}
    (r : Res τ α) : Res.Follows good R (.raise e s) r := by
  intro v s' h _
  simp at h

theorem Machine.Res.Back.raise {σ α : Type} {good : σ → Prop} (e : FaultName) (s s0 : σ) :
    (Res.raise e s : Res σ α).Back good s0 := by
  intro v s' h _
  simp at h

theorem readUintFrom_back {order : BitOrder} {base : Nat} (hback : ∀ c s, (src.bit c s).Back good s) :
    ∀ left pos m s, (readUintFrom order src base left pos m s).Back good s := by
  intro left
  induction left with
  | zero => intro pos m s; exact Res.Back.raise _ _ _
  | succ left ih =>
    intro pos m s
    refine (hback _ s).andThen fun c s1 => ?_
    cases c
    · exact Res.Back.ok _ _
    · exact (hback _ s1).andThen fun d s2 => ih _ _ s2

theorem readTree_back (hback : ∀ c s, (src.bit c s).Back good s) :
    ∀ k node s, (readTree cfg src k node s).Back good s := by
  intro k
  induction k with
  | zero => intro node s; exact Res.Back.ok _ _
  | succ k ih => intro node s; exact (hback _ s).andThen fun b s1 => ih _ s1

theorem readUintFrom_follows {order : BitOrder} {base : Nat} (hback : ∀ c s, (src.bit c s).Back good s)
    (hbit : ∀ c s t, R s t → Res.Follows good R (src.bit c s) (src'.bit c t)) :
    ∀ left pos m s t, R s t →
      Res.Follows good R (readUintFrom order src base left pos m s) (readUintFrom order src' base left pos m t) := by
  intro left
  induction left with
  | zero => intro pos m s t _; exact Res.Follows.raise _ _
  | succ left ih =>
    intro pos m s t h
    refine (hbit _ s t h).andThen (fun c s1 => ?_) fun c s1 t1 h1 => ?_
    · cases c
      · exact Res.Back.ok _ _
      · exact (hback _ s1).andThen fun d s2 => readUintFrom_back hback _ _ _ s2
    · cases c
      · exact Res.Follows.ok _ h1
      · exact (hbit _ s1 t1 h1).andThen (fun d s2 => readUintFrom_back hback _ _ _ s2)
          fun d s2 t2 h2 => ih _ _ s2 t2 h2

theorem readTree_follows (hback : ∀ c s, (src.bit c s).Back good s)
    (hbit : ∀ c s t, R s t → Res.Follows good R (src.bit c s) (src'.bit c t)) :
    ∀ k node s t, R s t → Res.Follows good R (readTree cfg src k node s) (readTree cfg src' k node t) := by
  intro k
  induction k with
  | zero => intro node s t h; exact Res.Follows.ok _ h
  | succ k ih =>
    intro node s t h
    exact (hbit _ s t h).andThen (fun b s1 => readTree_back hback _ _ s1) fun b s1 t1 h1 => ih _ s1 t1 h1

/-- A source that follows another reads the symbol the other reads. -/
theorem readSymbol_follows {pwm : Bool} {s : σ} {t : τ} (hback : ∀ c s, (src.bit c s).Back good s)
    (hbit : ∀ c s t, R s t → Res.Follows good R (src.bit c s) (src'.bit c t))
    (hgood : ∀ o s, good (src.newOffset o s) → good s)
    (hnew : ∀ o s t, R s t → R (src.newOffset o s) (src'.newOffset o t)) (h : R s t) :
    Res.Follows good R (readSymbol cfg src pwm s) (readSymbol cfg src' pwm t) := by
  have lb : ∀ s, (readLength cfg src s).Back good s := fun s =>
    (readUintFrom_back hback _ _ _ s).andThen fun _ _ => Res.Back.ok _ _
  have lf : ∀ s t, R s t → Res.Follows good R (readLength cfg src s) (readLength cfg src' t) := fun s t h =>
    (readUintFrom_follows hback hbit _ _ _ s t h).andThen (fun _ _ => Res.Back.ok _ _)
      fun _ _ _ h => Res.Follows.ok _ h
  have kb : ∀ v s, (if v = Config.endValue then Res.ok (if pwm then Instr.endPwm1 else Instr.endPwm0) s
      else (readLength cfg src (src.newOffset (offsetOfValue v) s)).andThen fun l s2 =>
        Res.ok (if pwm then Instr.matchnPwm1 (offsetOfValue v) l else Instr.matchnPwm0 (offsetOfValue v) l) s2).Back
        good s := by
    intro v s
    by_cases hv : v = Config.endValue
    · rw [if_pos hv]; exact Res.Back.ok _ _
    · rw [if_neg hv]
      intro a s' e g
      exact hgood _ _ (((lb _).andThen fun _ _ => Res.Back.ok _ _) a s' e g)
  have nb : ∀ s, (readNewOffset cfg src pwm s).Back good s := fun s =>
    (readUintFrom_back hback _ _ _ s).andThen kb
  have nf : ∀ s t, R s t → Res.Follows good R (readNewOffset cfg src pwm s) (readNewOffset cfg src' pwm t) := by
    intro s t h
    refine (readUintFrom_follows hback hbit _ _ _ s t h).andThen kb fun v s1 t1 h1 => ?_
    by_cases hv : v = Config.endValue
    · rw [if_pos hv, if_pos hv]; exact Res.Follows.ok _ h1
    · rw [if_neg hv, if_neg hv]
      exact (lf _ _ (hnew _ _ _ h1)).andThen (fun _ _ => Res.Back.ok _ _) fun _ _ _ h => Res.Follows.ok _ h
  have tb : ∀ s, (readLiteral cfg src s).Back good s := fun s =>
    (readTree_back hback _ _ s).andThen fun _ _ => Res.Back.ok _ _
  have tf : ∀ s t, R s t → Res.Follows good R (readLiteral cfg src s) (readLiteral cfg src' t) := fun s t h =>
    (readTree_follows hback hbit _ _ s t h).andThen (fun _ _ => Res.Back.ok _ _) fun _ _ _ h => Res.Follows.ok _ h
  have mb : ∀ s, (readMatch cfg src pwm s).Back good s := by
    intro s
    unfold readMatch
    cases pwm
    · refine (hback _ s).andThen fun new s1 => ?_
      cases new
      · exact (lb s1).andThen fun _ _ => Res.Back.ok _ _
      · exact nb s1
    · exact nb s
  have mf : ∀ s t, R s t → Res.Follows good R (readMatch cfg src pwm s) (readMatch cfg src' pwm t) := by
    intro s t h
    unfold readMatch
    cases pwm
    · refine (hbit _ s t h).andThen (fun new s1 => ?_) fun new s1 t1 h1 => ?_
      · cases new
        · exact (lb s1).andThen fun _ _ => Res.Back.ok _ _
        · exact nb s1
      · cases new
        · exact (lf s1 t1 h1).andThen (fun _ _ => Res.Back.ok _ _) fun _ _ _ h => Res.Follows.ok _ h
        · exact nf s1 t1 h1
    · exact nf s t h
  refine (hbit _ s t h).andThen (fun sel s1 => ?_) fun sel s1 t1 h1 => ?_
  · cases sel
    · exact (tb s1).andThen fun _ _ => Res.Back.ok _ _
    · exact mb s1
  · cases sel
    · exact (tf s1 t1 h1).andThen (fun _ _ => Res.Back.ok _ _) fun _ _ _ h => Res.Follows.ok _ h
    · exact mf s1 t1 h1

end Follows


end Sys2Proof
end

