-- ==== Sys2Proof/Laws/Fetch.lean ====
section
/-! SUPPORT. What the micro-operations and the fetch of a symbol leave unchanged (spec 10_state.md R26), and which
decisions they go through. -/

set_option Elab.async false -- one theorem at a time, for the memory limit of the build

namespace Sys2Proof.Machine

/-- What a reading of decisions from `s` keeps: only PROBS (at contexts of `C`), CODE and IN_POS differ,
IN_POS has not moved back, and the bounds of R12, R14 and R17 still hold if they did. -/
structure ReadKeeps (C : Nat → Prop) (s t : State) : Prop where
  only : OnlyPredictor s t
  forward : s.inPos.toNat ≤ t.inPos.toNat
  others : ∀ i, ¬ C i → t.getProb i = s.getProb i
  range : (∀ i, i < Config.nprobs → 7 ≤ (s.getProb i).toNat ∧ (s.getProb i).toNat ≤ 249) →
    ∀ i, i < Config.nprobs → 7 ≤ (t.getProb i).toNat ∧ (t.getProb i).toNat ≤ 249
  positive : (∀ i, i < Config.nprobs → 1 ≤ (s.getProb i).toNat) → ∀ i, i < Config.nprobs → 1 ≤ (t.getProb i).toNat
  code : s.code.toNat < 2 ^ 20 → t.code.toNat < 2 ^ 20
  inPos : s.inPos.toNat ≤ s.inLen.toNat → t.inPos.toNat ≤ t.inLen.toNat

theorem ReadKeeps.refl (C : Nat → Prop) (s : State) : ReadKeeps C s s :=
  ⟨.refl s, le_rfl, fun _ _ => rfl, id, id, id, id⟩

theorem ReadKeeps.trans {C : Nat → Prop} {s t u : State} (h : ReadKeeps C s t) (h' : ReadKeeps C t u) :
    ReadKeeps C s u :=
  ⟨h.only.trans h'.only, h.forward.trans h'.forward, fun i hi => (h'.others i hi).trans (h.others i hi),
    fun r => h'.range (h.range r), fun r => h'.positive (h.positive r), fun r => h'.code (h.code r), fun r => h'.inPos (h.inPos r)⟩

/-- What holds where a reading raised `f`: TruncatedInput only when a byte is needed and absent (R131). -/
def RaisedAt (f : FaultName) (t : State) : Prop :=
  (f = .truncatedInput ∧ t.code.toNat < 4096 ∧ t.inLen.toNat ≤ t.inPos.toNat) ∨ f = .uintOverflow

/-- One DECODE_BIT, as a step of a reading. -/
theorem decodeBit_keeps (c : Nat) (s : State) (C : Nat → Prop) (hc : C c) :
    (decodeBit c s).Post (fun _ t => ReadKeeps C s t)
      (fun f t => f = .truncatedInput ∧ OnlyPredictor s t ∧ t.code.toNat < 4096 ∧ t.inLen.toNat ≤ t.inPos.toNat) := by
  refine (decodeBit_post c s).mono ?_ ?_
  · rintro b t ⟨h1, h2, h3, h4, h5, h6⟩
    refine ⟨h1, h2, fun i hi => h3 i (by rintro rfl; exact hi hc), ?_, ?_, h5, h6⟩
    · intro r i hi
      by_cases e : i = c
      · subst e; rw [h4 hi]; exact adapt_range (r i hi) b
      · rw [h3 i e]; exact r i hi
    · intro r i hi
      by_cases e : i = c
      · subst e; rw [h4 hi]; exact adapt_pos (r i hi) b
      · rw [h3 i e]; exact r i hi
  · rintro f t ⟨h1, h2, h3, h4⟩
    exact ⟨h1, h2.toPredictor, h3, h4⟩

/-- The same, from any state a reading that began at `s0` has reached. -/
theorem decodeBit_keeps_from (s0 : State) (C : Nat → Prop) (c : Nat) (s : State) (hc : C c) (h : ReadKeeps C s0 s) :
    (decodeBit c s).Post (fun _ t => ReadKeeps C s0 t) (fun f t => OnlyPredictor s0 t ∧ RaisedAt f t) := by
  refine (decodeBit_keeps c s C hc).mono (fun _ t h' => h.trans h') ?_
  rintro f t ⟨h1, h2, h3, h4⟩
  exact ⟨h.only.trans h2, .inl ⟨h1, h3, h4⟩⟩

/-- DECODE_UINT: its value, and what it leaves unchanged (R26, R80, R83, R84). -/
theorem decodeUint_post (b : UintBase) (s : State) :
    (decodeUint b s).Post
      (fun v t => (1 ≤ v ∧ v < 2 ^ 32) ∧
        ReadKeeps (fun i => uintBase Config.upkr b ≤ i ∧ i < uintBase Config.upkr b + Config.uintSlots) s t)
      (fun f t => OnlyPredictor s t ∧ RaisedAt f t) := by
  refine readUint_post (C := fun i => uintBase Config.upkr b ≤ i ∧ i < uintBase Config.upkr b + Config.uintSlots)
    (I := ReadKeeps _ s) ?_ ?_ ?_ (.refl _ s)
  · intro k hk; exact ⟨by omega, by omega⟩
  · intro c t hc ht; exact decodeBit_keeps_from s _ c t hc ht
  · intro t ht; exact ⟨ht.only, .inr rfl⟩

/-- DECODE_LITERAL: what it leaves unchanged (R26, R90). -/
theorem decodeLiteral_post (s : State) :
    (decodeLiteral s).Post (fun _ t => ReadKeeps (fun i => 1 ≤ i ∧ i ≤ 255) s t)
      (fun f t => OnlyPredictor s t ∧ RaisedAt f t) := by
  refine readLiteral_post (C := fun i => 1 ≤ i ∧ i ≤ 255) (I := ReadKeeps _ s) ?_ ?_ (.refl _ s)
  · intro n h1 h2
    simp only [nodeCtx, Config.upkr, Config.nLit] at *
    omega
  · intro c t hc ht; exact decodeBit_keeps_from s _ c t hc ht

/-- What the fetch of a symbol keeps: as a reading, but that OFFSET may hold a new offset (R98). -/
structure FetchKeeps (C : Nat → Prop) (s t : State) : Prop where
  read : ReadKeeps C s (t.setOffset s.offset)
  offset : t.offset = s.offset ∨ Instr.offsetOk t.offset = true

theorem FetchKeeps.refl (C : Nat → Prop) (s : State) : FetchKeeps C s s := ⟨.refl C s, .inl rfl⟩

theorem setOffset_self (s : State) : s.setOffset s.offset = s := rfl

theorem ReadKeeps.setOffset {C : Nat → Prop} {s t : State} (h : ReadKeeps C s t) (o : Word) :
    ReadKeeps C (s.setOffset o) (t.setOffset o) := by
  refine ⟨?_, h.forward, h.others, h.range, h.positive, h.code, h.inPos⟩
  have := h.only
  unfold OnlyPredictor at *
  rw [this]
  rfl

/-- The contexts a symbol's decisions may use when PWM has this value (R97): all, but CTX_OFFSEL when PWM = 1. -/
def symbolCtx (pwm : Bool) (i : Nat) : Prop := i < Config.nprobs ∧ (pwm = true → i ≠ 256)

/-- All that the fetch of a symbol can do (R26, R52, R97, R98, R131). -/
theorem fetchSymbol_post (s : State) :
    (fetchSymbol s).Post
      (fun i t => (i.wf = true ∧ i.existsInMode s.pwm = true) ∧ FetchKeeps (symbolCtx s.pwm) s t)
      (fun f t => OnlyPredictor s (t.setOffset s.offset) ∧ RaisedAt f t) := by
  refine readSymbol_post (C := symbolCtx s.pwm) (I := FetchKeeps (symbolCtx s.pwm) s)
    (E := fun f t => OnlyPredictor s (t.setOffset s.offset) ∧ RaisedAt f t) ?_ ?_ ?_ ?_ ?_ ?_ ?_ ?_ (.refl _ s)
  · exact ⟨by norm_num [Config.upkr], by norm_num [Config.upkr]⟩
  · intro h; exact ⟨by norm_num [Config.upkr], by simp [h]⟩
  · intro n h1 h2
    simp only [nodeCtx, Config.upkr, Config.nLit] at *
    exact ⟨by simp only [Config.nprobs]; omega, fun _ => by omega⟩
  · intro k hk
    simp only [Config.upkr, Config.uintSlots] at *
    exact ⟨by simp only [Config.nprobs]; omega, fun _ => by omega⟩
  · intro k hk
    simp only [Config.upkr, Config.uintSlots] at *
    exact ⟨by simp only [Config.nprobs]; omega, fun _ => by omega⟩
  · intro c t hc ht
    refine (decodeBit_keeps c t _ hc).mono ?_ ?_
    · intro b u hu
      have ho := hu.only.fields.2.1
      refine ⟨ht.read.trans (hu.setOffset s.offset), ?_⟩
      rw [ho]; exact ht.offset
    · rintro f u ⟨h1, h2, h3, h4⟩
      refine ⟨ht.read.only.trans ?_, .inl ⟨h1, h3, h4⟩⟩
      unfold OnlyPredictor at *
      rw [h2]
      rfl
  · intro o t ho ht
    exact ⟨ht.read, .inr ho⟩
  · intro t ht
    exact ⟨ht.read.only, .inr rfl⟩

theorem FetchKeeps.fields {C : Nat → Prop} {s t : State} (h : FetchKeeps C s t) :
    t.outPos = s.outPos ∧ t.pwm = s.pwm ∧ t.status = s.status ∧ t.cause = s.cause ∧
    t.inLen = s.inLen ∧ t.outCap = s.outCap ∧ t.inMem = s.inMem ∧ t.outMem = s.outMem ∧ t.ret = s.ret ∧
    t.hostQ = s.hostQ ∧ t.free = s.free := by
  obtain ⟨h1, -, h3, h4, h5, h6, h7, h8, h9, h10, h11, h12⟩ := h.read.only.fields
  exact ⟨h1, h3, h4, h5, h6, h7, h8, h9, h10, h11, h12⟩

/-- The fetch writes OFFSET exactly when it reads a MATCHN (R98). -/
theorem fetchSymbol_offset {s t : State} {i : Instr} (h : fetchSymbol s = .ok i t) :
    (∃ o l, (i = .matchnPwm0 o l ∨ i = .matchnPwm1 o l) ∧ t.offset = o) ∨
      ((∀ o l, i ≠ .matchnPwm0 o l ∧ i ≠ .matchnPwm1 o l) ∧ t.offset = s.offset) := by
  have ub : ∀ (b : UintBase) s v t, decodeUint b s = .ok v t → t.offset = s.offset := fun b s v t h =>
    ((decodeUint_post b s).ok_of h).2.only.fields.2.1
  have db : ∀ c s b t, decodeBit c s = .ok b t → t.offset = s.offset := fun c s b t h =>
    ((decodeBit_post c s).ok_of h).1.fields.2.1
  have rl : ∀ s l t, readLength Config.upkr machineSource s = .ok l t → t.offset = s.offset := by
    intro s l t h
    obtain ⟨v, u, e1, e2⟩ := Res.andThen_eq_ok.1 h
    have e1 : decodeUint .len s = .ok v u := e1
    simp only [Res.ok.injEq] at e2
    rw [← e2.2]
    exact ub _ _ _ _ e1
  have rn : ∀ p s i t, readNewOffset Config.upkr machineSource p s = .ok i t →
      (∃ o l, (i = .matchnPwm0 o l ∨ i = .matchnPwm1 o l) ∧ t.offset = o) ∨
        ((∀ o l, i ≠ .matchnPwm0 o l ∧ i ≠ .matchnPwm1 o l) ∧ t.offset = s.offset) := by
    intro p s i t h
    obtain ⟨v, u, e1, e2⟩ := Res.andThen_eq_ok.1 h
    have e1 : decodeUint .off s = .ok v u := e1
    split at e2
    · simp only [Res.ok.injEq] at e2
      obtain ⟨e3, rfl⟩ := e2
      refine .inr ⟨?_, ub _ _ _ _ e1⟩
      intro o l
      rw [← e3]
      cases p <;> simp
    · obtain ⟨l, w, e3, e4⟩ := Res.andThen_eq_ok.1 e2
      simp only [Res.ok.injEq] at e4
      obtain ⟨e5, rfl⟩ := e4
      refine .inl ⟨offsetOfValue v, l, ?_, rl _ _ _ e3⟩
      rw [← e5]
      cases p <;> simp
  obtain ⟨sel, u, e1, e2⟩ := Res.andThen_eq_ok.1 h
  have hu := db _ _ _ _ e1
  cases sel
  · obtain ⟨b, v, e3, e4⟩ := Res.andThen_eq_ok.1 e2
    simp only [Res.ok.injEq] at e4
    obtain ⟨rfl, rfl⟩ := e4
    refine .inr ⟨by simp, ?_⟩
    rw [((decodeLiteral_post u).ok_of e3).only.fields.2.1, hu]
  · simp only [if_true] at e2
    unfold readMatch at e2
    split at e2
    · have := rn _ _ _ _ e2; rwa [hu] at this
    · obtain ⟨n, v, e3, e4⟩ := Res.andThen_eq_ok.1 e2
      have hv := db _ _ _ _ e3
      split at e4
      · have := rn _ _ _ _ e4; rwa [hv, hu] at this
      · obtain ⟨l, w, e5, e6⟩ := Res.andThen_eq_ok.1 e4
        simp only [Res.ok.injEq] at e6
        obtain ⟨rfl, rfl⟩ := e6
        refine .inr ⟨by simp, ?_⟩
        rw [rl _ _ _ e5, hv, hu]

end Sys2Proof.Machine
end

