-- ==== Sys2Proof/Laws/PerInstr.lean ====
section
/-! SUPPORT. Per instruction: the first decision of a symbol's string is the selector, at CTX_SEL, and it is 0 exactly
for LIT (spec 30_encoding.md R52); a row without a stream encoding has no string. -/

set_option Elab.async false -- one theorem at a time, for the memory limit of the build

namespace Sys2Proof.Laws.Selector

open Machine

/-- The string, where there is one, begins with the selector; there is none exactly for the rows that are no
stream symbol. -/
def Statement (i : Instr) : Prop :=
  (∀ ds, encode i = some ds → ∃ b rest, ds = (0, b) :: rest ∧ (b = false ↔ ∃ x, i = .lit x)) ∧
  (encode i = none ↔ ∀ pwm, i.existsInMode pwm = false)

theorem lit (b : Byte) : Statement (.lit b) := by
  refine ⟨?_, by simp [encode, encodeSymbol, Instr.existsInMode]⟩
  intro ds h
  simp only [encode, encodeSymbol, Option.some.injEq] at h
  subst h
  exact ⟨false, _, rfl, by simp⟩

theorem matchnPwm0 (o l : Word) : Statement (.matchnPwm0 o l) := by
  refine ⟨?_, by simp [encode, encodeSymbol, Instr.existsInMode]⟩
  intro ds h
  simp only [encode, encodeSymbol, Option.some.injEq] at h
  subst h
  exact ⟨true, _, rfl, by simp⟩

theorem matchnPwm1 (o l : Word) : Statement (.matchnPwm1 o l) := by
  refine ⟨?_, by simp [encode, encodeSymbol, Instr.existsInMode]⟩
  intro ds h
  simp only [encode, encodeSymbol, Option.some.injEq] at h
  subst h
  exact ⟨true, _, rfl, by simp⟩

theorem matchr (l : Word) : Statement (.matchr l) := by
  refine ⟨?_, by simp [encode, encodeSymbol, Instr.existsInMode]⟩
  intro ds h
  simp only [encode, encodeSymbol, Option.some.injEq] at h
  subst h
  exact ⟨true, _, rfl, by simp⟩

theorem endPwm0 : Statement .endPwm0 := by
  refine ⟨?_, by simp [encode, encodeSymbol, Instr.existsInMode]⟩
  intro ds h
  simp only [encode, encodeSymbol, Option.some.injEq] at h
  subst h
  exact ⟨true, _, rfl, by simp⟩

theorem endPwm1 : Statement .endPwm1 := by
  refine ⟨?_, by simp [encode, encodeSymbol, Instr.existsInMode]⟩
  intro ds h
  simp only [encode, encodeSymbol, Option.some.injEq] at h
  subst h
  exact ⟨true, _, rfl, by simp⟩

theorem decodeBit (ctx : Fin Config.nprobs) : Statement (.decodeBit ctx) :=
  ⟨by simp [encode, encodeSymbol], by simp [encode, encodeSymbol, Instr.existsInMode]⟩

theorem decodeUint (base : UintBase) : Statement (.decodeUint base) :=
  ⟨by simp [encode, encodeSymbol], by simp [encode, encodeSymbol, Instr.existsInMode]⟩

theorem decodeLiteral : Statement .decodeLiteral :=
  ⟨by simp [encode, encodeSymbol], by simp [encode, encodeSymbol, Instr.existsInMode]⟩

theorem copyMatch (o l : Word) : Statement (.copyMatch o l) :=
  ⟨by simp [encode, encodeSymbol], by simp [encode, encodeSymbol, Instr.existsInMode]⟩

theorem start : Statement .start :=
  ⟨by simp [encode, encodeSymbol], by simp [encode, encodeSymbol, Instr.existsInMode]⟩

end Sys2Proof.Laws.Selector
end

