-- ==== Sys2Proof/Laws/Safety.lean ====
section
/-! SUPPORT. The invariant where a call begins and where a fault ends it. -/

set_option Elab.async false -- one theorem at a time, for the memory limit of the build

namespace Sys2Proof.Machine

/-- The invariant holds of a state at the start of a call (R151). -/
theorem Inv.startCall {s : State} (h1 : Memory.wf s.inMem = true) (h2 : Memory.wf s.outMem = true) :
    Inv (startCall s) where
  inMem := h1
  outMem := h2
  probs := fun _ i hi => by rw [startCall_getProb s hi]; decide
  code := fun _ => (by decide : (0#32 : Word).toNat < 2 ^ 20)
  offset := fun _ => (by decide : (0#32 : Word).toNat ≤ 2 ^ 32 - 2)
  match_offset := fun _ h => absurd h (by simp)
  inPos := fun _ => Nat.zero_le _
  outPos := fun _ => Nat.zero_le _
  cause_live := fun _ => rfl
  cause_fault := fun h => absurd h (by simp)

/-- The invariant says nothing of what a fault leaves unspecified (R138). -/
theorem Inv.takeFault {f : FaultName} {s : State} (h1 : Memory.wf s.inMem = true)
    (h2 : Memory.wf s.outMem = true) : Inv (takeFault f s) := by
  have hl : ¬ Live (Machine.takeFault f s) := by rintro (h | h) <;> simp at h
  have hr : (Machine.takeFault f s).status ≠ .run := by simp
  exact ⟨by simpa using h1, takeFault_wf h2, fun h => absurd h hl, fun h => absurd h hl, fun h => absurd h hl,
    fun h => absurd h hl, fun h => absurd h hr, fun h => absurd h hr, fun h => absurd h hl, fun _ => by simp⟩

end Sys2Proof.Machine
end

