-- ==== Sys2Proof/Laws/Script.lean ====
section
/-! SUPPORT. A source that goes through the decisions of an integer's or a byte's encoding reads that integer or
byte, and only then (spec 30_encoding.md R53, R54; 41_integer_decoder.md R80; 42_literal_tree.md R90). -/

set_option Elab.async false -- one theorem at a time, for the memory limit of the build

namespace Sys2Proof

open Machine

variable {σ : Type}

/-- The source's decisions at these contexts, in turn, are these bits: the state after them, if so. -/
def Source.follow (src : Source σ) : List Decision → σ → Option σ
  | [], s => some s
  | (c, b) :: ds, s =>
    match src.bit c s with
    | .ok b' s1 => if b' = b then src.follow ds s1 else none
    | .raise _ _ => none

theorem follow_machine (ds : List Decision) (s : State) : machineSource.follow ds s = Machine.follow ds s := by
  induction ds generalizing s with
  | nil => rfl
  | cons d ds ih =>
    obtain ⟨c, b⟩ := d
    have : machineSource.bit c s = decodeBit c s := rfl
    simp only [Source.follow, Machine.follow, this]
    cases decodeBit c s with
    | ok b' s1 => simp [ih]
    | raise f s1 => rfl

theorem follow_cons {src : Source σ} {c : Nat} {b : Bool} {ds : List Decision} {s t : σ} :
    src.follow ((c, b) :: ds) s = some t ↔ ∃ u, src.bit c s = .ok b u ∧ src.follow ds u = some t := by
  rw [Source.follow]
  cases src.bit c s with
  | ok b' u =>
    by_cases e : b' = b
    · subst e; simp
    · simp [e]
  | raise f u => simp

theorem follow_append {src : Source σ} {ds es : List Decision} {s t : σ} :
    src.follow (ds ++ es) s = some t ↔ ∃ u, src.follow ds s = some u ∧ src.follow es u = some t := by
  induction ds generalizing s with
  | nil => simp [Source.follow]
  | cons d ds ih =>
    obtain ⟨c, b⟩ := d
    simp only [List.cons_append, follow_cons, ih]
    constructor
    · rintro ⟨u, h1, v, h2, h3⟩; exact ⟨v, ⟨u, h1, h2⟩, h3⟩
    · rintro ⟨v, ⟨u, h1, h2⟩, h3⟩; exact ⟨u, h1, v, h2, h3⟩

/-! ### Integers -/

/-- The magnitude after the first `i` value bits of `v` have arrived. -/
def magnitudeAt (order : BitOrder) (v n i : Nat) : Nat :=
  match order with
  | .msbFirst => v % 2 ^ n / 2 ^ (n - i)
  | .lsbFirst => v % 2 ^ i

theorem magnitudeAt_lt (order : BitOrder) {v n i : Nat} (h : i ≤ n) : magnitudeAt order v n i < 2 ^ i := by
  cases order
  · simp only [magnitudeAt]
    rw [Nat.div_lt_iff_lt_mul (by positivity), ← pow_add, Nat.add_sub_cancel' h]
    exact Nat.mod_lt _ (by positivity)
  · exact Nat.mod_lt _ (by positivity)

theorem magnitudeAt_zero (order : BitOrder) (v n : Nat) : magnitudeAt order v n 0 = 0 := by
  have := magnitudeAt_lt order (v := v) (Nat.zero_le n)
  simpa using this

theorem foldValueBit_eq {order : BitOrder} {m pos : Nat} (h : m < 2 ^ pos) (d : Bool) :
    foldValueBit order m pos d =
      match order with
      | .msbFirst => 2 * m + d.toNat
      | .lsbFirst => 2 ^ pos * d.toNat + m := by
  cases order
  · exact childNode_eq m d
  · cases d
    · simp [foldValueBit]
    · have := Nat.two_pow_add_eq_or_of_lt h 1
      simp only [foldValueBit, Bool.toNat_true, Nat.shiftLeft_eq, one_mul, mul_one] at this ⊢
      rw [Nat.or_comm, ← this]

theorem foldValueBit_magnitudeAt (order : BitOrder) {v n i : Nat} (h : i < n) :
    foldValueBit order (magnitudeAt order v n i) i (valueBit order v n i) = magnitudeAt order v n (i + 1) := by
  rw [foldValueBit_eq (magnitudeAt_lt order h.le)]
  cases order
  · simp only [magnitudeAt, valueBit]
    obtain ⟨j, rfl⟩ : ∃ j, n = i + j + 1 := ⟨n - i - 1, by omega⟩
    rw [show i + j + 1 - 1 - i = j by omega, show i + j + 1 - i = j + 1 by omega,
      show i + j + 1 - (i + 1) = j by omega]
    have hb : v.testBit j = (v % 2 ^ (i + j + 1)).testBit j := by
      rw [Nat.testBit_mod_two_pow]; simp
    rw [hb]
    generalize v % 2 ^ (i + j + 1) = w
    have h1 : w / 2 ^ (j + 1) = w / 2 ^ j / 2 := by rw [pow_succ, Nat.div_div_eq_div_mul]
    rw [h1, Nat.toNat_testBit]
    omega
  · simp only [magnitudeAt, valueBit]
    rw [pow_succ, Nat.mod_mul, Nat.toNat_testBit]
    ring

/-- Two folds that give the same magnitude folded the same bit into the same magnitude. -/
theorem foldValueBit_inj {order : BitOrder} {m m' pos : Nat} {d d' : Bool} (h : m < 2 ^ pos) (h' : m' < 2 ^ pos)
    (e : foldValueBit order m pos d = foldValueBit order m' pos d') : m = m' ∧ d = d' := by
  rw [foldValueBit_eq h, foldValueBit_eq h'] at e
  cases order
  · cases d <;> cases d' <;> simp at e ⊢ <;> omega
  · cases d <;> cases d' <;> simp at e ⊢ <;> omega

theorem log2_range {v : Nat} (h : 1 ≤ v) : 2 ^ v.log2 ≤ v ∧ v < 2 ^ (v.log2 + 1) :=
  ⟨Nat.log2_self_le (by omega), Nat.lt_log2_self⟩

theorem log2_of_range {v n : Nat} (h1 : 2 ^ n ≤ v) (h2 : v < 2 ^ (n + 1)) : v.log2 = n := by
  have h0 : v ≠ 0 := by have := Nat.one_le_two_pow (n := n); omega
  have := (Nat.log2_lt h0).2 h2
  have := (Nat.le_log2 h0).2 h1
  omega

theorem magnitudeAt_self (order : BitOrder) (v n : Nat) : magnitudeAt order v n n = v % 2 ^ n := by
  cases order <;> simp [magnitudeAt]

theorem uintValue_magnitudeAt (order : BitOrder) {v n : Nat} (h1 : 2 ^ n ≤ v) (h2 : v < 2 ^ (n + 1)) :
    uintValue n (magnitudeAt order v n n) = v := by
  rw [uintValue_eq (magnitudeAt_lt order le_rfl), magnitudeAt_self]
  have : v % 2 ^ n = v - 2 ^ n := by
    rw [Nat.mod_eq_sub_mod h1, Nat.mod_eq_of_lt]
    rw [pow_succ] at h2; omega
  omega

theorem readUintFrom_of_follow {src : Source σ} {order : BitOrder} {base v n : Nat} (hn : n < Config.uintMaxPos)
    (h1 : 2 ^ n ≤ v) (h2 : v < 2 ^ (n + 1)) :
    ∀ k i left s t, k + i = n → left + i = Config.uintMaxPos →
      src.follow (uintPairs order base v n k i ++ [(continueCtx base n, false)]) s = some t →
      readUintFrom order src base left i (magnitudeAt order v n i) s = .ok v t := by
  intro k
  induction k with
  | zero =>
    intro i left s t hk hl h
    obtain rfl : i = n := by omega
    obtain ⟨left, rfl⟩ : ∃ l, left = l + 1 := ⟨left - 1, by omega⟩
    obtain ⟨u, e1, e2⟩ := follow_cons.1 h
    obtain rfl : u = t := by simpa [Source.follow] using e2
    simp [readUintFrom, e1, uintValue_magnitudeAt order h1 h2]
  | succ k ih =>
    intro i left s t hk hl h
    obtain ⟨left, rfl⟩ : ∃ l, left = l + 1 := ⟨left - 1, by omega⟩
    simp only [uintPairs, List.cons_append] at h
    obtain ⟨u, e1, h⟩ := follow_cons.1 h
    obtain ⟨w, e2, h⟩ := follow_cons.1 h
    have := ih (i + 1) left w t (by omega) (by omega) h
    simp only [readUintFrom, e1, e2, Res.andThen_ok, if_true]
    rw [foldValueBit_magnitudeAt order (by omega)]
    exact this

/-- A source that goes through U(base) of `v` reads `v`, in either bit order (R53, R80). -/
theorem readUint_of_follow {src : Source σ} {order : BitOrder} {base v : Nat} {s t : σ} (hv : 1 ≤ v)
    (hv' : v < 2 ^ 32) (h : src.follow (encodeUint order base v) s = some t) :
    readUint order src base s = .ok v t := by
  obtain ⟨h1, h2⟩ := log2_range hv
  have hn : v.log2 < Config.uintMaxPos := (Nat.log2_lt (by omega)).2 hv'
  have := readUintFrom_of_follow (order := order) hn h1 h2 v.log2 0 Config.uintMaxPos s t rfl rfl h
  rwa [magnitudeAt_zero] at this

theorem follow_of_readUintFrom {src : Source σ} {order : BitOrder} {base : Nat} :
    ∀ left i m s v t, left + i = Config.uintMaxPos → m < 2 ^ i →
      readUintFrom order src base left i m s = .ok v t →
      ∃ n, i ≤ n ∧ n < Config.uintMaxPos ∧ 2 ^ n ≤ v ∧ v < 2 ^ (n + 1) ∧ m = magnitudeAt order v n i ∧
        src.follow (uintPairs order base v n (n - i) i ++ [(continueCtx base n, false)]) s = some t := by
  intro left
  induction left with
  | zero => intro i m s v t _ _ h; simp [readUintFrom] at h
  | succ left ih =>
    intro i m s v t hl hm h
    unfold readUintFrom at h
    obtain ⟨c, s1, e1, h⟩ := Res.andThen_eq_ok.1 h
    cases c
    · obtain ⟨rfl, rfl⟩ : uintValue i m = v ∧ s1 = t := by simpa using h
      have e := uintValue_eq hm
      rw [e]
      have hmod : (2 ^ i + m) % 2 ^ i = m := by
        rw [Nat.add_mod_left, Nat.mod_eq_of_lt hm]
      refine ⟨i, le_rfl, by omega, by omega, by rw [pow_succ]; omega, ?_, ?_⟩
      · rw [magnitudeAt_self, hmod]
      · simp [uintPairs, Source.follow, e1]
    · rw [if_pos rfl] at h
      obtain ⟨d, s2, e2, h⟩ := Res.andThen_eq_ok.1 h
      obtain ⟨n, h1, h2, h3, h4, h5, h6⟩ := ih _ _ _ _ _ (by omega) (foldValueBit_lt hm d) h
      rw [← foldValueBit_magnitudeAt order (by omega)] at h5
      obtain ⟨h7, h8⟩ := foldValueBit_inj hm (magnitudeAt_lt order (by omega)) h5
      refine ⟨n, by omega, h2, h3, h4, h7, ?_⟩
      rw [show n - i = (n - (i + 1)) + 1 by omega]
      simp only [uintPairs, List.cons_append]
      exact follow_cons.2 ⟨s1, e1, follow_cons.2 ⟨s2, h8 ▸ e2, h6⟩⟩

/-- A source that reads `v` has gone through U(base) of `v` (R53, R59). -/
theorem follow_of_readUint {src : Source σ} {order : BitOrder} {base v : Nat} {s t : σ}
    (h : readUint order src base s = .ok v t) :
    1 ≤ v ∧ v < 2 ^ 32 ∧ src.follow (encodeUint order base v) s = some t := by
  obtain ⟨n, -, h2, h3, h4, -, h6⟩ := follow_of_readUintFrom _ _ _ _ _ _ rfl (by norm_num) h
  have hl := log2_of_range h3 h4
  have hp : 2 ^ (n + 1) ≤ 2 ^ 32 := Nat.pow_le_pow_right (by norm_num) h2
  have := Nat.one_le_two_pow (n := n)
  refine ⟨by omega, by omega, ?_⟩
  unfold encodeUint
  rw [hl]
  exact h6

/-! ### Bytes -/

/-- The node a leaf's path is at after `k` levels (R54). -/
theorem pathNode_eq (b : Byte) (k : Nat) (h : k ≤ 8) :
    (1 <<< k) ||| (b.toNat >>> (8 - k)) = 2 ^ k + b.toNat / 2 ^ (8 - k) := by
  have hlt : b.toNat / 2 ^ (8 - k) < 2 ^ k := by
    rw [Nat.div_lt_iff_lt_mul (by positivity), ← pow_add, Nat.add_sub_cancel' h]
    exact b.isLt
  have := Nat.two_pow_add_eq_or_of_lt hlt 1
  rw [Nat.shiftRight_eq_div_pow, Nat.shiftLeft_eq, one_mul]
  simpa using this.symm

theorem childNode_path (b : Byte) (k : Nat) (h : k < 8) :
    childNode (2 ^ k + b.toNat / 2 ^ (8 - k)) (b.toNat.testBit (7 - k)) = 2 ^ (k + 1) + b.toNat / 2 ^ (8 - (k + 1)) := by
  obtain ⟨j, hj⟩ : ∃ j, 7 - k = j ∧ 8 - k = j + 1 ∧ 8 - (k + 1) = j := ⟨7 - k, rfl, by omega, by omega⟩
  obtain ⟨e1, e2, e3⟩ := hj
  rw [childNode_eq, e1, e2, e3, Nat.toNat_testBit, pow_succ 2 k]
  have h1 : b.toNat / 2 ^ (j + 1) = b.toNat / 2 ^ j / 2 := by rw [pow_succ, Nat.div_div_eq_div_mul]
  rw [h1]
  omega

theorem readTree_of_follow {src : Source σ} {cfg : Config} (b : Byte) :
    ∀ j k s t, j + k = 8 →
      src.follow ((List.range' k j).map fun k =>
        (nodeCtx cfg ((1 <<< k) ||| (b.toNat >>> (8 - k))), b.toNat.testBit (7 - k))) s = some t →
      readTree cfg src j (2 ^ k + b.toNat / 2 ^ (8 - k)) s = .ok (256 + b.toNat) t := by
  intro j
  induction j with
  | zero =>
    intro k s t hk h
    obtain rfl : k = 8 := by omega
    obtain rfl : s = t := by simpa [Source.follow] using h
    simp [readTree]
  | succ j ih =>
    intro k s t hk h
    simp only [List.range'_succ, List.map_cons] at h
    obtain ⟨u, e, h⟩ := follow_cons.1 h
    rw [pathNode_eq b k (by omega)] at e
    have := ih (k + 1) u t (by omega) h
    rw [← childNode_path b k (by omega)] at this
    simp [readTree, e, this]

/-- A source that goes through T of `b` reads `b` (R54, R90). -/
theorem readLiteral_of_follow {src : Source σ} {cfg : Config} {b : Byte} {s t : σ}
    (h : src.follow (encodeLiteral cfg b) s = some t) : readLiteral cfg src s = .ok b t := by
  unfold encodeLiteral at h
  rw [List.range_eq_range'] at h
  have h1 := readTree_of_follow b 8 0 s t rfl h
  have h2 : 2 ^ 0 + b.toNat / 2 ^ (8 - 0) = 1 := by have := b.isLt; norm_num; omega
  rw [h2] at h1
  simp only [readLiteral, Config.litDepth, h1, Res.andThen_ok, Res.ok.injEq, and_true]
  apply BitVec.eq_of_toNat_eq
  have := b.isLt
  rw [leafByte_toNat]
  omega

theorem follow_of_readTree {src : Source σ} {cfg : Config} :
    ∀ j k node s leaf t, j + k = 8 → readTree cfg src j node s = .ok leaf t →
      leaf / 2 ^ j = node ∧
      src.follow ((List.range' k j).map fun k =>
        (nodeCtx cfg (leaf / 2 ^ (8 - k)), leaf.testBit (7 - k))) s = some t := by
  intro j
  induction j with
  | zero =>
    intro k node s leaf t _ h
    obtain ⟨rfl, rfl⟩ : node = leaf ∧ s = t := by simpa [readTree] using h
    simp [Source.follow]
  | succ j ih =>
    intro k node s leaf t hk h
    unfold readTree at h
    obtain ⟨b, s1, e, h⟩ := Res.andThen_eq_ok.1 h
    obtain ⟨h1, h2⟩ := ih (k + 1) _ _ _ _ (by omega) h
    have hb := Bool.toNat_le b
    rw [childNode_eq] at h1
    have h3 : leaf / 2 ^ (j + 1) = node := by rw [pow_succ, ← Nat.div_div_eq_div_mul, h1]; omega
    have h4 : leaf.testBit j = b := by
      have := Nat.toNat_testBit leaf j
      rw [h1] at this
      cases b <;> cases hx : leaf.testBit j <;> simp [hx] at this ⊢
    refine ⟨h3, ?_⟩
    simp only [List.range'_succ, List.map_cons]
    refine follow_cons.2 ⟨s1, ?_, h2⟩
    rw [show 8 - k = j + 1 by omega, h3, show 7 - k = j by omega, h4]
    exact e

/-- A source that reads `b` has gone through T of `b` (R54, R59). -/
theorem follow_of_readLiteral {src : Source σ} {cfg : Config} {b : Byte} {s t : σ}
    (h : readLiteral cfg src s = .ok b t) : src.follow (encodeLiteral cfg b) s = some t := by
  unfold readLiteral at h
  obtain ⟨leaf, t1, e, h⟩ := Res.andThen_eq_ok.1 h
  obtain ⟨rfl, rfl⟩ : leafByte leaf = b ∧ t1 = t := by simpa using h
  obtain ⟨h1, h2⟩ := follow_of_readTree 8 0 1 s leaf t1 rfl e
  have hl : leaf = 256 + (leafByte leaf).toNat := by rw [leafByte_toNat]; omega
  unfold encodeLiteral
  rw [List.range_eq_range']
  have he : ((List.range' 0 Config.litDepth).map fun k =>
      (nodeCtx cfg ((1 <<< k) ||| ((leafByte leaf).toNat >>> (8 - k))), (leafByte leaf).toNat.testBit (7 - k))) =
      (List.range' 0 8).map fun k => (nodeCtx cfg (leaf / 2 ^ (8 - k)), leaf.testBit (7 - k)) := by
    apply List.map_congr_left
    intro k hk
    have hk : k < 8 := by simpa using hk
    have h3 : leaf.testBit (7 - k) = (leafByte leaf).toNat.testBit (7 - k) := by
      have : (leafByte leaf).toNat = leaf % 2 ^ 8 := leafByte_toNat leaf
      rw [this, Nat.testBit_mod_two_pow]
      simp; omega
    have h4 : leaf / 2 ^ (8 - k) = 2 ^ k + (leafByte leaf).toNat / 2 ^ (8 - k) := by
      conv_lhs => rw [hl]
      have : (256 : Nat) = 2 ^ (8 - k) * 2 ^ k := by rw [← pow_add, show 8 - k + k = 8 by omega]; norm_num
      rw [this, Nat.mul_add_div (by positivity)]
    rw [pathNode_eq _ k (by omega), h3, h4]
  rw [he]
  exact h2

/-! ### Symbols -/

theorem readLength_of_follow {src : Source σ} {cfg : Config} {l : Word} {s t : σ} (hl : Instr.lengthOk l = true)
    (h : src.follow (encodeUint cfg.order cfg.ctxLen l.toNat) s = some t) : readLength cfg src s = .ok l t := by
  have := readUint_of_follow (by simpa [Instr.lengthOk] using hl) l.isLt h
  simp [readLength, this, lengthOfValue]

theorem readNewOffset_of_follow {src : Source σ} {cfg : Config} {pwm : Bool} {o l : Word} {s t : σ}
    (ho : Instr.offsetOk o = true) (hl : Instr.lengthOk l = true)
    (hcomm : ∀ o ds s t, src.follow ds s = some t → src.follow ds (src.newOffset o s) = some (src.newOffset o t))
    (h : src.follow (encodeUint cfg.order cfg.ctxOff (o.toNat + 1) ++ encodeUint cfg.order cfg.ctxLen l.toNat) s =
      some t) :
    readNewOffset cfg src pwm s = .ok (if pwm then .matchnPwm1 o l else .matchnPwm0 o l) (src.newOffset o t) := by
  simp only [Instr.offsetOk, Bool.and_eq_true, decide_eq_true_eq] at ho
  obtain ⟨u, h1, h2⟩ := follow_append.1 h
  have e1 := readUint_of_follow (by omega) (by omega) h1
  have hne : ¬ o.toNat + 1 = 1 := by omega
  have ev : offsetOfValue (o.toNat + 1) = o := by simp [offsetOfValue]
  have e2 := readLength_of_follow hl (hcomm o _ _ _ h2)
  simp only [readNewOffset, e1, Res.andThen_ok, Config.endValue, hne, if_false, ev, e2]

theorem readNewOffset_of_follow_end {src : Source σ} {cfg : Config} {pwm : Bool} {s t : σ}
    (h : src.follow (encodeUint cfg.order cfg.ctxOff Config.endValue) s = some t) :
    readNewOffset cfg src pwm s = .ok (if pwm then .endPwm1 else .endPwm0) t := by
  have e1 := readUint_of_follow (by decide) (by decide) h
  simp only [readNewOffset, e1, Res.andThen_ok, if_true]

/-- DECODE_BIT neither reads nor writes OFFSET (R26). -/
theorem decodeBit_setOffset (c : Nat) (s : State) (o : Word) :
    decodeBit c (s.setOffset o) =
      match decodeBit c s with
      | .ok b t => .ok b (t.setOffset o)
      | .raise f t => .raise f (t.setOffset o) := by
  have hr : renormalise (s.setOffset o) =
      match renormalise s with
      | .ok b t => .ok b (t.setOffset o)
      | .raise f t => .raise f (t.setOffset o) := by
    induction s using renormalise_induction with
    | done s h => rw [renormalise_of_ge h, renormalise_of_ge (by exact h)]
    | dry s h h' => rw [renormalise_truncated h h', renormalise_truncated (by exact h) (by exact h')]
    | more s h h' ih => rw [renormalise_refill h h', renormalise_refill (by exact h) (by exact h')]; exact ih
  have hd : ∀ t : State, decide1 c (t.setOffset o) = (decide1 c t).setOffset o := by
    intro t; unfold decide1 State.setProb; split <;> rfl
  simp only [decodeBit, hr]
  cases renormalise s with
  | ok a t => simp only [Res.andThen_ok, hd]; rfl
  | raise f t => rfl

/-- Decisions go the same way whatever OFFSET holds. -/
theorem follow_newOffset_machine (o : Word) (ds : List Decision) (s t : State)
    (h : machineSource.follow ds s = some t) :
    machineSource.follow ds (machineSource.newOffset o s) = some (machineSource.newOffset o t) := by
  induction ds generalizing s with
  | nil => simp only [Source.follow, Option.some.injEq] at h ⊢; rw [h]
  | cons d ds ih =>
    obtain ⟨c, b⟩ := d
    obtain ⟨u, h1, h2⟩ := follow_cons.1 h
    have h1 : decodeBit c s = .ok b u := h1
    refine follow_cons.2 ⟨machineSource.newOffset o u, ?_, ih u h2⟩
    show decodeBit c (s.setOffset o) = _
    rw [decodeBit_setOffset, h1]; rfl

end Sys2Proof
end

