-- ==== Sys2Proof/Laws/Step.lean ====
section
/-! SUPPORT. All that a symbol can do once it is fetched, and all that a step of a run can do
(spec 43_symbol_grammar.md R95 to R104, 60_exceptions.md R136). -/

set_option Elab.async false -- one theorem at a time, for the memory limit of the build

namespace Sys2Proof.Machine

/-- What a completed symbol leaves, as a function of the state after its fetch (R96, R98 to R101). -/
inductive Completes (s : State) : Instr → State → Prop
  | lit (b : Byte) (room : s.outPos.toNat < s.outCap.toNat) : Completes s (.lit b) (clearPwm (putByte b s))
  | copied (i : Instr) (o l : Word)
      (form : i = .matchnPwm0 o l ∨ i = .matchnPwm1 o l ∨ (i = .matchr l ∧ o = s.offset))
      (nonzero : 1 ≤ o.toNat) (reach : o.toNat ≤ s.outPos.toNat)
      (room : s.outPos.toNat + l.toNat ≤ s.outCap.toNat) :
      Completes s i (raisePwm (copyBytes o l.toNat (s.setOffset o)))
  | ended (i : Instr) (form : i = .endPwm0 ∨ i = .endPwm1) : Completes s i (s.setStatus .done)

/-- A match of either kind completes or raises in a state in which only OFFSET may differ (R101, R111). -/
theorem newMatch_cases (o l : Word) (s : State) :
    (1 ≤ o.toNat ∧ o.toNat ≤ s.outPos.toNat ∧ s.outPos.toNat + l.toNat ≤ s.outCap.toNat ∧
      newMatch o l s = .ok () (raisePwm (copyBytes o l.toNat (s.setOffset o)))) ∨
    ∃ f, newMatch o l s = .raise f (s.setOffset o) := by
  rcases copyMatch_cases o l (s.setOffset o) with ⟨-, e⟩ | ⟨-, -, -, e⟩ | ⟨h1, h2, h3, e⟩
  · exact .inr ⟨.invalidOffset, by simp [newMatch, matchTail, e]⟩
  · exact .inr ⟨.outputOverflow, by simp [newMatch, matchTail, e]⟩
  · exact .inl ⟨h1, h2, h3, by simp [newMatch, matchTail, e]⟩

/-- MATCHR is a match with the offset it finds in OFFSET (R100). -/
theorem matchTail_eq_newMatch (l : Word) (s : State) : matchTail l s = newMatch s.offset l s := rfl

/-- A symbol executed during a run, in its mode, completes or takes a fault. -/
theorem exec_symbol_cases {i : Instr} {s t : State} (hs : s.status = .run) (hm : i.existsInMode s.pwm = true)
    (h : exec i s = .next t) :
    Completes s i t ∨ ∃ f u, (u = s ∨ ∃ o, u = s.setOffset o) ∧ t = takeFault f u := by
  have key : ∀ (i : Instr) (o l : Word), (i = .matchnPwm0 o l ∨ i = .matchnPwm1 o l ∨ (i = .matchr l ∧ o = s.offset)) →
      settle (newMatch o l s) = .next t →
      Completes s i t ∨ ∃ f u, (u = s ∨ ∃ o, u = s.setOffset o) ∧ t = takeFault f u := by
    intro i o l hi h
    rcases newMatch_cases o l s with ⟨h1, h2, h3, e⟩ | ⟨f, e⟩
    · rw [e, settle_ok, Host.Outcome.next.injEq] at h
      subst h
      exact .inl (.copied i o l hi h1 h2 h3)
    · rw [e, settle_raise, Host.Outcome.next.injEq] at h
      exact .inr ⟨f, _, .inr ⟨o, rfl⟩, h.symm⟩
  cases i <;> simp only [Instr.existsInMode, Bool.not_eq_true', Bool.false_eq_true] at hm
  case lit b =>
    simp only [exec, execLit, whileRunning_run hs] at h
    by_cases hr : s.outPos.toNat < s.outCap.toNat
    · simp only [emit_of_lt hr, Res.andThen_ok, settle_ok, Host.Outcome.next.injEq] at h
      subst h
      exact .inl (.lit b hr)
    · simp only [emit_of_le (Nat.not_lt.1 hr), Res.andThen_raise, settle_raise, Host.Outcome.next.injEq] at h
      exact .inr ⟨_, s, .inl rfl, h.symm⟩
  case matchnPwm0 o l =>
    simp only [exec, execMatchnPwm0, whileRunning_run hs, inMode_eq hm] at h
    exact key _ o l (.inl rfl) h
  case matchnPwm1 o l =>
    simp only [exec, execMatchnPwm1, whileRunning_run hs, inMode_eq hm] at h
    exact key _ o l (.inr (.inl rfl)) h
  case matchr l =>
    simp only [exec, execMatchr, whileRunning_run hs, inMode_eq hm] at h
    exact key _ s.offset l (.inr (.inr ⟨rfl, rfl⟩)) h
  case endPwm0 =>
    simp only [exec, execEndPwm0, whileRunning_run hs, inMode_eq hm, Host.Outcome.next.injEq] at h
    subst h
    exact .inl (.ended _ (.inl rfl))
  case endPwm1 =>
    simp only [exec, execEndPwm1, whileRunning_run hs, inMode_eq hm, Host.Outcome.next.injEq] at h
    subst h
    exact .inl (.ended _ (.inr rfl))

/-- A symbol executed during a run, in its mode, always gives a next state. -/
theorem exec_symbol_next {i : Instr} {s : State} (hs : s.status = .run) (hm : i.existsInMode s.pwm = true) :
    ∃ t, exec i s = .next t := by
  have st : ∀ r : Res State Unit, ∃ t, settle r = .next t := fun r => by
    rcases settle_next r with ⟨t, -, h⟩ | ⟨f, t, -, h⟩ <;> exact ⟨_, h⟩
  cases i <;> simp only [Instr.existsInMode, Bool.not_eq_true', Bool.false_eq_true] at hm
  · simp only [exec, execLit, whileRunning_run hs]; exact st _
  · simp only [exec, execMatchnPwm0, whileRunning_run hs, inMode_eq hm]; exact st _
  · simp only [exec, execMatchnPwm1, whileRunning_run hs, inMode_eq hm]; exact st _
  · simp only [exec, execMatchr, whileRunning_run hs, inMode_eq hm]; exact st _
  · simp only [exec, execEndPwm0, whileRunning_run hs, inMode_eq hm]; exact ⟨_, rfl⟩
  · simp only [exec, execEndPwm1, whileRunning_run hs, inMode_eq hm]; exact ⟨_, rfl⟩

/-- All that a step of a run can do: the symbol it fetched completes, or a fault is taken in a state in
which the reading has changed the predictor, and possibly OFFSET, only. -/
theorem step_run_cases {s t : State} (hs : s.status = .run) (h : step s = .next t) :
    (∃ i u, fetchSymbol s = .ok i u ∧ i.wf = true ∧ i.existsInMode s.pwm = true ∧
      FetchKeeps (symbolCtx s.pwm) s u ∧ Completes u i t) ∨
    ∃ f u, OnlyPredictor s (u.setOffset s.offset) ∧ t = takeFault f u := by
  simp only [step, hs, if_true] at h
  have hp := fetchSymbol_post s
  cases hf : fetchSymbol s with
  | raise f u =>
    rw [hf] at h hp
    simp only [Host.Outcome.next.injEq] at h
    exact .inr ⟨f, u, hp.1, h.symm⟩
  | ok i u =>
    rw [hf] at h hp
    obtain ⟨⟨hw, he⟩, hk⟩ := hp
    have e := hk.fields
    rcases exec_symbol_cases (by rw [e.2.2.1, hs]) (by rw [e.2.1]; exact he) h with hc | ⟨f, v, hv, rfl⟩
    · exact .inl ⟨i, u, rfl, hw, he, hk, hc⟩
    · refine .inr ⟨f, v, ?_, rfl⟩
      rcases hv with rfl | ⟨o, rfl⟩
      · exact hk.read.only
      · exact hk.read.only

/-- Outside a run a step is a move of the host, or nothing (R150). -/
theorem step_idle_cases {s t : State} (hs : s.status ≠ .run) (h : step s = .next t) :
    (s.hostQ = [] ∧ t = s) ∨ (∃ q, s.hostQ = .start :: q ∧ t = startCall (s.setHostQ q)) ∨
    ∃ w q, s.hostQ = .write w :: q ∧ t = hostWrite w (s.setHostQ q) := by
  simp only [step, hs, if_false] at h
  cases hq : s.hostQ with
  | nil => rw [hq] at h; exact .inl ⟨rfl, by simpa using h.symm⟩
  | cons c q =>
    rw [hq] at h
    cases c with
    | start =>
      have hs' : (s.setHostQ q).status ≠ .run := hs
      simp only [exec, execStart, hs', if_false, Host.Outcome.next.injEq] at h
      exact .inr (.inl ⟨q, rfl, h.symm⟩)
    | write w =>
      simp only [Host.Outcome.next.injEq] at h
      exact .inr (.inr ⟨w, q, rfl, h.symm⟩)

/-- A completed symbol leaves what only the reading of decisions, or the host, may change (R26). -/
theorem Completes.frame {s t : State} {i : Instr} (h : Completes s i t) :
    t.probs = s.probs ∧ t.code = s.code ∧ t.inPos = s.inPos ∧ t.cause = s.cause ∧ t.inLen = s.inLen ∧
    t.outCap = s.outCap ∧ t.inMem = s.inMem ∧ t.ret = s.ret ∧ t.hostQ = s.hostQ ∧ t.free = s.free := by
  cases h with
  | lit b room => simp [clearPwm]
  | copied i o l form h1 h2 h3 =>
    have := (copyBytes_onlyOut o l.toNat (s.setOffset o)).fields
    simp [raisePwm, this]
  | ended i form => simp

/-- The copy of a match, in terms of the state before OFFSET was written (R112). -/
theorem copyBytes_setOffset_spec {s : State} {o l : Word} (hw : Memory.wf s.outMem = true) (h1 : 1 ≤ o.toNat)
    (h2 : o.toNat ≤ s.outPos.toNat) (h3 : s.outPos.toNat + l.toNat ≤ s.outCap.toNat) :
    (copyBytes o l.toNat (s.setOffset o)).outPos.toNat = s.outPos.toNat + l.toNat ∧
    Memory.wf (copyBytes o l.toNat (s.setOffset o)).outMem = true ∧
    (∀ a, a < s.outPos.toNat ∨ s.outPos.toNat + l.toNat ≤ a →
      (copyBytes o l.toNat (s.setOffset o)).readOut a = s.readOut a) ∧
    ∀ i, i < l.toNat → (copyBytes o l.toNat (s.setOffset o)).readOut (s.outPos.toNat + i) =
      s.readOut (s.outPos.toNat - o.toNat + i % o.toNat) :=
  copyBytes_spec h1 l.toNat (s.setOffset o) h2 h3 hw

end Sys2Proof.Machine
end

