-- ==== Sys2Proof/Tests/Slice0.lean ====
section
/-! SUPPORT. Tests: well-formedness, decision strings and bytes written out from the spec (30_encoding.md,
95_test_vectors.md), single steps, and a witness for the hypotheses of every obligation. -/

set_option Elab.async false -- one theorem at a time, for the memory limit of the build

namespace Sys2Proof.Tests

open Machine

/-! ### Helpers -/

/-- A call on these bytes, with this OUT_CAP, as START leaves it. -/
def callOn (bytes : List Byte) (cap : Nat) : State :=
  freshCall bytes (State.reset.setOutCap (BitVec.ofNat 32 cap))

/-- A run in which these bytes have been written and CODE is renormalised. -/
def written (bytes : List Byte) (cap : Nat) : State :=
  let s := callOn [] cap
  ((s.setOutMem (Memory.writeList bytes 0 [])).setOutPos (BitVec.ofNat 32 bytes.length)).setCode 0x1000#32

/-- A check on the next state of an outcome. -/
def next (o : Host.Outcome State Fault Refusal) (p : State → Bool) : Bool :=
  match o with
  | .next t => p t
  | .fault _ => false
  | .refused _ => false

/-- The first `n` bytes of OUT. -/
def outBytes (n : Nat) (s : State) : List Byte := (List.range n).map s.readOut

/-- A check on the state in which a micro-operation gives a value. -/
def okAt {σ α : Type} [DecidableEq α] (r : Res σ α) (a : α) (p : σ → Bool) : Bool :=
  match r with
  | .ok b s => decide (a = b) && p s
  | .raise _ _ => false

/-- A check on the state in which a micro-operation raises `f`. -/
def raisesAt {σ α : Type} (r : Res σ α) (f : FaultName) (p : σ → Bool) : Bool :=
  match r with
  | .ok _ _ => false
  | .raise g s => decide (f = g) && p s

theorem next_spec {o : Host.Outcome State Fault Refusal} {p : State → Bool} (h : next o p = true) :
    ∃ t, o = .next t ∧ p t = true := by
  cases o with
  | next t => exact ⟨t, rfl, h⟩
  | fault f => simp [next] at h
  | refused r => simp [next] at h

theorem okAt_spec {σ α : Type} [DecidableEq α] {r : Res σ α} {a : α} {p : σ → Bool} (h : okAt r a p = true) :
    ∃ t, r = .ok a t ∧ p t = true := by
  cases r with
  | ok b s =>
    simp only [okAt, Bool.and_eq_true, decide_eq_true_eq] at h
    exact ⟨s, by rw [h.1], h.2⟩
  | raise f s => simp [okAt] at h

theorem raisesAt_spec {σ α : Type} {r : Res σ α} {f : FaultName} {p : σ → Bool} (h : raisesAt r f p = true) :
    ∃ t, r = .raise f t ∧ p t = true := by
  cases r with
  | ok b s => simp [raisesAt] at h
  | raise g s =>
    simp only [raisesAt, Bool.and_eq_true, decide_eq_true_eq] at h
    exact ⟨s, by rw [h.1], h.2⟩

/-! ### Well-formedness: each check refuses an ill-formed term (30_encoding.md R55, 44_copy_engine.md R110) -/

theorem test_wf_matchn0_offset_zero : (Instr.matchnPwm0 0#32 1#32).wf = false := by decide
theorem test_wf_matchn0_offset_top : (Instr.matchnPwm0 0xFFFFFFFF#32 1#32).wf = false := by decide
theorem test_wf_matchn0_length_zero : (Instr.matchnPwm0 1#32 0#32).wf = false := by decide
theorem test_wf_matchn1_offset_zero : (Instr.matchnPwm1 0#32 1#32).wf = false := by decide
theorem test_wf_matchn1_offset_top : (Instr.matchnPwm1 0xFFFFFFFF#32 1#32).wf = false := by decide
theorem test_wf_matchn1_length_zero : (Instr.matchnPwm1 1#32 0#32).wf = false := by decide
theorem test_wf_matchr_length_zero : (Instr.matchr 0#32).wf = false := by decide
theorem test_wf_copy_offset_top : (Instr.copyMatch 0xFFFFFFFF#32 1#32).wf = false := by decide
theorem test_wf_copy_length_zero : (Instr.copyMatch 1#32 0#32).wf = false := by decide
theorem test_wf_boundaries :
    (Instr.matchnPwm0 0xFFFFFFFE#32 0xFFFFFFFF#32).wf = true ∧ (Instr.copyMatch 0#32 1#32).wf = true := by decide
theorem test_mode_no_matchr_after_a_match : (Instr.matchr 1#32).existsInMode true = false := by decide
theorem test_mode_micro_operations_are_no_symbols : (Instr.decodeBit 0).existsInMode false = false := by decide

/-! ### Decision strings, written out from 30_encoding.md R52 to R54 -/

/-- R54: 0x41 is `0 1 0 0 0 0 0 1` at nodes 1, 2, 5, 10, 20, 40, 80, 160. -/
theorem test_string_lit :
    decodeString Config.upkr true [false, false, true, false, false, false, false, false, true] =
      .ok (.lit 0x41#8) ⟨[], [(0, false), (1, false), (2, true), (5, false), (10, false), (20, false), (40, false),
        (80, false), (160, true)]⟩ := by decide

/-- R101's worked example: value 2 is offset 1, `1 0 1 1 0` is length 5, with PWM = 0. -/
theorem test_string_matchn0 :
    decodeString Config.upkr false [true, true, true, false, false, true, false, true, true, false] =
      .ok (.matchnPwm0 1#32 5#32) ⟨[], [(0, true), (256, true), (257, true), (258, false), (259, false), (321, true),
        (322, false), (323, true), (324, true), (325, false)]⟩ := by decide

/-- The same symbol after a match: no decision at context 256 (R56). -/
theorem test_string_matchn1 :
    decodeString Config.upkr true [true, true, false, false, true, false, true, true, false] =
      .ok (.matchnPwm1 1#32 5#32) ⟨[], [(0, true), (257, true), (258, false), (259, false), (321, true),
        (322, false), (323, true), (324, true), (325, false)]⟩ := by decide

/-- R100: `1 0` and the length integer; the REP 2 of program P3. -/
theorem test_string_matchr :
    decodeString Config.upkr false [true, false, true, false, false] =
      .ok (.matchr 2#32) ⟨[], [(0, true), (256, false), (321, true), (322, false), (323, false)]⟩ := by decide

/-- R56: `1 0` is the start of MATCHR when PWM = 0 and is END when PWM = 1. -/
theorem test_string_end1 :
    decodeString Config.upkr true [true, false] = .ok .endPwm1 ⟨[], [(0, true), (257, false)]⟩ := by decide
theorem test_string_end0 :
    decodeString Config.upkr false [true, true, false] =
      .ok .endPwm0 ⟨[], [(0, true), (256, true), (257, false)]⟩ := by decide

/-- R82: `1 1 1 0 1 0 0` is 12 MSB first and 9 LSB first. -/
theorem test_string_bit_order :
    okAt (readUint .msbFirst stringSource 257 ⟨[true, true, true, false, true, false, false], []⟩) 12
      (fun s => s.left.isEmpty) = true ∧
    okAt (readUint .lsbFirst stringSource 257 ⟨[true, true, true, false, true, false, false], []⟩) 9
      (fun s => s.left.isEmpty) = true := by decide

/-- R83: 32 continue bits of 1 raise UintOverflow after 64 decisions. -/
theorem test_string_overflow :
    raisesAt (readUint .msbFirst stringSource 321 ⟨List.replicate 65 true, []⟩) .uintOverflow
      (fun s => decide (s.made.length = 64) && decide (s.made.getLast? = some (384, true))) = true := by decide

/-- A string that ends inside a symbol is rejected. -/
theorem test_string_truncated :
    raisesAt (decodeString Config.upkr false [true, true]) .truncatedInput (fun _ => true) = true := by decide

/-- R53's table: 6 is `1 1 1 0 0` MSB first, `1 0 1 1 0` LSB first. -/
theorem test_encode_uint_six :
    (encodeUint .msbFirst 257 6).map Prod.snd = [true, true, true, false, false] ∧
    (encodeUint .lsbFirst 257 6).map Prod.snd = [true, false, true, true, false] ∧
    (encodeUint .msbFirst 257 6).map Prod.fst = [257, 258, 259, 260, 261] := by decide

/-! ### Bytes of 95_test_vectors.md, section 6 -/

/-- P1: `82 00` is END. -/
theorem test_bytes_end : decodeTableWord 16 0x0082 = some .endPwm0 := by decide +kernel

/-- P2: `02 5d f9 81 54` begins with LIT 0x41. -/
theorem test_bytes_lit : decodeTableWord 40 0x5481f95d02 = some (.lit 0x41#8) := by decide +kernel

/-- Zero bytes never renormalise CODE (R70). -/
theorem test_bytes_zeros : decodeTableWord 0 0 = none := by decide +kernel

/-- P1, run: DONE, IN_POS 2, CODE 0x1000, with OUT_CAP = 0. -/
theorem test_step_end :
    next (step (callOn [0x82#8, 0x00#8] 0)) (fun t => decide (t.status = .done ∧ t.inPos = 2#32 ∧ t.code = 0x1000#32 ∧
      t.getProb 0 = 136#8 ∧ t.getProb 256 = 136#8 ∧ t.getProb 257 = 120#8)) = true := by decide +kernel

/-- P2 after its first symbol: OUT 41, IN_POS 4, CODE 0x12F01. -/
theorem test_step_lit :
    next (step (callOn [0x02#8, 0x5d#8, 0xf9#8, 0x81#8, 0x54#8] 6)) (fun t => decide (t.status = .run ∧
      t.inPos = 4#32 ∧ t.code = 0x12F01#32 ∧ t.outPos = 1#32 ∧ t.readOut 0 = 0x41#8 ∧ t.pwm = false)) = true := by
  decide +kernel

/-- withFetchWord lays the same bytes where step fetches. -/
theorem test_step_withFetchWord :
    next (step (State.reset.withFetchWord 16 0x0082)) (fun t => decide (t.status = .done)) = true := by decide +kernel

/-- P2 cut to four bytes: TruncatedInput in its second symbol, at the first decision of the length (R135). -/
theorem test_step_truncated :
    raisesAt (readSymbol Config.upkr machineSource false (callOn [0x02#8, 0x5d#8] 6)) .truncatedInput
      (fun t => decide (t.inPos = 2#32 ∧ t.code = 0x25d#32)) = true := by decide +kernel

/-- The bytes of P2, rebuilt from its decisions. -/
theorem test_encodeBytes_end :
    encodeBytes [(0, true), (256, true), (257, false)] = [0x82#8, 0x00#8] := by decide +kernel

/-! ### DECODE_BIT (95_test_vectors.md section 2) -/

/-- A renormalised run with this CODE and this entry at context 5. -/
def bitState (code : Word) (p : Byte) : State := ((callOn [] 0).setCode code).setProb 5 p

theorem test_bit_equal_is_zero :
    next (exec (.decodeBit 5) (bitState 0x1234#32 52#8))
      (fun t => decide (t.ret = 0#32 ∧ t.code = 3672#32 ∧ t.getProb 5 = 49#8)) = true := by decide +kernel

theorem test_bit_below_is_one :
    next (exec (.decodeBit 5) (bitState 0x1234#32 53#8))
      (fun t => decide (t.ret = 1#32 ∧ t.code = 1006#32 ∧ t.getProb 5 = 66#8)) = true := by decide +kernel

/-- 2.2: from CODE 0 the bytes `0f ff ff` give the largest CODE. -/
theorem test_renormalise_three :
    okAt (renormalise (callOn [0x0f#8, 0xff#8, 0xff#8] 0)) () (fun t => decide (t.code = 0xFFFFF#32 ∧ t.inPos = 3#32)) =
      true := by decide +kernel

/-- 2.2: from CODE 0xF one byte is not enough. -/
theorem test_renormalise_short :
    raisesAt (renormalise ((callOn [0xab#8] 0).setCode 0xF#32)) .truncatedInput
      (fun t => decide (t.code = 0xFAB#32 ∧ t.inPos = 1#32)) = true := by decide +kernel

/-! ### DECODE_UINT, DECODE_LITERAL, COPY_MATCH (sections 3 to 5) -/

/-- CODE 0x1080 at 128 decides 0: the value 1. -/
theorem test_uint_one :
    next (exec (.decodeUint .len) ((callOn [] 0).setCode 0x1080#32))
      (fun t => decide (t.ret = 1#32 ∧ t.getProb 321 = 120#8)) = true := by decide +kernel

/-- P2's tree decisions: the byte 0x41, from CODE 0x12EF9 (trace, decision 2) and the bytes left. -/
theorem test_literal :
    next (exec .decodeLiteral ((callOn [0x81#8, 0x54#8] 0).setCode 0x12EF9#32))
      (fun t => decide (t.ret = 0x41#32 ∧ t.inPos = 1#32)) = true := by decide +kernel

theorem test_copy_overlap :
    next (exec (.copyMatch 2#32 5#32) (written [0x61#8, 0x62#8, 0x63#8] 12))
      (fun t => decide (t.outPos = 8#32 ∧ outBytes 8 t = [0x61#8, 0x62#8, 0x63#8, 0x62#8, 0x63#8, 0x62#8, 0x63#8, 0x62#8]))
      = true := by decide +kernel

/-- The order of the checks, and no wrap of the sum. -/
theorem test_copy_checks :
    raisesAt (copyMatch 4#32 3#32 (written [0x61#8, 0x62#8, 0x63#8] 5)) .invalidOffset
      (fun t => decide (t.outPos = 3#32)) = true ∧
    raisesAt (copyMatch 1#32 0xFFFFFFFF#32 (written [0x00#8] 10)) .outputOverflow
      (fun t => decide (t.outPos = 1#32)) = true := by decide +kernel

/-! ### Symbols executed on their own -/

theorem test_lit_clears_pwm :
    next (exec (.lit 0x7F#8) ((written [0x61#8] 2).setPwm true))
      (fun t => decide (t.pwm = false ∧ t.readOut 1 = 0x7F#8 ∧ t.outPos = 2#32)) = true := by decide +kernel

theorem test_lit_overflow :
    next (exec (.lit 0x7F#8) (written [] 0)) (fun t => decide (t.status = .fault ∧ t.cause = some .outputOverflow)) =
      true := by decide +kernel

theorem test_matchn0 :
    next (exec (.matchnPwm0 1#32 5#32) (written [0x41#8] 6))
      (fun t => decide (t.offset = 1#32 ∧ t.pwm = true ∧ outBytes 6 t = List.replicate 6 0x41#8)) = true := by
  decide +kernel

theorem test_matchn1 :
    next (exec (.matchnPwm1 3#32 1#32) ((written [0x61#8, 0x62#8, 0x63#8] 12).setPwm true))
      (fun t => decide (t.offset = 3#32 ∧ t.outPos = 4#32 ∧ t.readOut 3 = 0x61#8)) = true := by decide +kernel

/-- The REP 2 of P3. -/
theorem test_matchr :
    next (exec (.matchr 2#32) ((written [0x61#8, 0x62#8, 0x63#8, 0x61#8, 0x62#8, 0x63#8, 0x61#8, 0x62#8, 0x63#8, 0x64#8]
      12).setOffset 3#32)) (fun t => decide (t.outPos = 12#32 ∧ t.readOut 10 = 0x62#8 ∧ t.readOut 11 = 0x63#8 ∧
        t.offset = 3#32 ∧ t.pwm = true)) = true := by decide +kernel

/-- D9: MATCHR before any MATCHN. -/
theorem test_matchr_no_offset :
    next (exec (.matchr 1#32) (written [0x61#8] 4)) (fun t => decide (t.cause = some .invalidOffset)) = true := by
  decide +kernel

theorem test_end0 : next (exec .endPwm0 (written [] 0)) (fun t => decide (t.status = .done)) = true := by decide +kernel

theorem test_end1 :
    next (exec .endPwm1 ((written [] 0).setPwm true)) (fun t => decide (t.status = .done ∧ t.pwm = true)) = true := by
  decide +kernel

theorem test_start :
    next (exec .start ((written [0x61#8] 4).setStatus .fault))
      (fun t => decide (t.status = .run ∧ t.outPos = 0#32 ∧ t.code = 0#32 ∧ t.getProb 384 = 128#8 ∧
        t.readOut 0 = 0x61#8)) = true := by decide +kernel

/-- A START the host has queued, then its effect in one step. -/
theorem test_step_start :
    next (step (State.reset.setHostQ [.start])) (fun t => decide (t.status = .run ∧ t.hostQ = [])) = true := by
  decide +kernel

/-! ### Memory -/

theorem test_memory_canonical :
    Memory.write (Memory.write (Memory.write [] 5 1#8) 2 7#8) 5 0#8 = [(2, 7#8)] := by decide

/-! ### Witnesses: for each obligation with hypotheses, a state and operands that meet them together -/

theorem witness_NothingActsOutsideRun : State.reset.status ≠ .run ∧ State.reset.hostQ = [] ∧ Instr.endPwm0 ≠ .start := by
  decide

/-- One state for each clause, at the top of its range. -/
theorem witness_HostMovesLandOutsideRun :
    State.reset.status ≠ .run ∧
    (State.reset.setHostQ [.write (.inLen 0xFFFFFFFF#32)]).hostQ = .write (.inLen 0xFFFFFFFF#32) :: [] ∧
    (State.reset.setHostQ [.write (.outCap 0xFFFFFFFF#32)]).hostQ = .write (.outCap 0xFFFFFFFF#32) :: [] ∧
    (State.reset.setHostQ [.write (.inByte 0xFFFFFFFF#32 9#8)]).hostQ = .write (.inByte 0xFFFFFFFF#32 9#8) :: [] ∧
    (State.reset.setHostQ [.write (.outByte 0#32 9#8), .start]).hostQ = .write (.outByte 0#32 9#8) :: [.start] ∧
    (State.reset.setHostQ [.start]).hostQ = .start :: [] ∧
    Memory.wf State.reset.inMem = true ∧ Memory.wf State.reset.outMem = true := by decide

theorem witness_StartInitialisesTheCall : State.reset.status ≠ .run ∧ ((written [] 0).setStatus .fault).status ≠ .run := by
  decide +kernel

theorem witness_StartWhileRunningIsRefused : (callOn [] 0).status = .run := by decide +kernel

theorem witness_ProbabilityUpdateLaws :
    1 ≤ (1#8 : Byte).toNat ∧ 1 ≤ (255#8 : Byte).toNat ∧ (7#8 : Byte).toNat ≤ (249#8 : Byte).toNat := by decide

/-- Both bits, at the two ends of the range of CODE and of the entry. -/
theorem witness_DecisionArithmeticIsExact :
    (4096 ≤ (0x1000#32 : Word).toNat ∧ (0x1000#32 : Word).toNat < 2 ^ 20 ∧ 1 ≤ (1#8 : Byte).toNat ∧
      (0x1000#32 : Word).toNat % 256 < (1#8 : Byte).toNat) ∧
    (4096 ≤ (0xFFFFF#32 : Word).toNat ∧ (0xFFFFF#32 : Word).toNat < 2 ^ 20 ∧ 1 ≤ (255#8 : Byte).toNat ∧
      (255#8 : Byte).toNat ≤ (0xFFFFF#32 : Word).toNat % 256) := by decide

theorem witness_EveryDecisionShrinksCode :
    (4096 ≤ (0x1000#32 : Word).toNat ∧ 1 ≤ (1#8 : Byte).toNat ∧ decision 0x1000#32 1#8 = true ∧
      decision 0x10FF#32 255#8 = false) ∧
    (∀ i, i < 385 → 1 ≤ ((bitState 0x8200#32 128#8).getProb i).toNat) ∧
    (∀ d ∈ [((0 : Nat), true), (256, true)], d.1 < 385) ∧
    ∃ t, follow [(0, true), (256, true)] (bitState 0x8200#32 128#8) = some t ∧
      t.inPos = (bitState 0x8200#32 128#8).inPos := by
  refine ⟨by decide, by decide +kernel, by decide, ?_⟩
  have h : ((follow [(0, true), (256, true)] (bitState 0x8200#32 128#8)).map State.inPos) = some 0#32 := by
    decide +kernel
  cases hf : follow [(0, true), (256, true)] (bitState 0x8200#32 128#8) with
  | none => rw [hf] at h; simp at h
  | some t => rw [hf] at h; exact ⟨t, rfl, (Option.some.inj h).trans rfl⟩

theorem witness_SplitIsReversible :
    1 ≤ (1#8 : Byte).toNat ∧ decision 0x1000#32 1#8 = decision 0x1000#32 1#8 ∧ (2 ^ 24 - 1 : Nat) < 2 ^ 24 := by decide

/-- One state for each of the four clauses, at 4096 and 4095. -/
theorem witness_DecodeBitDecides :
    ((bitState 0x1000#32 1#8).status = .run ∧ 4096 ≤ (bitState 0x1000#32 1#8).code.toNat ∧
      (bitState 0x1000#32 1#8).code.toNat % 256 < ((bitState 0x1000#32 1#8).probs[(5 : Fin 385)]).toNat) ∧
    (4096 ≤ (bitState 0x1001#32 1#8).code.toNat ∧
      ((bitState 0x1001#32 1#8).probs[(5 : Fin 385)]).toNat ≤ (bitState 0x1001#32 1#8).code.toNat % 256) ∧
    (((callOn [0xab#8] 0).setCode 0xFFF#32).code.toNat < 4096 ∧
      ((callOn [0xab#8] 0).setCode 0xFFF#32).inPos.toNat < ((callOn [0xab#8] 0).setCode 0xFFF#32).inLen.toNat) ∧
    ((bitState 0xFFF#32 1#8).code.toNat < 4096 ∧
      (bitState 0xFFF#32 1#8).inLen.toNat ≤ (bitState 0xFFF#32 1#8).inPos.toNat) := by decide +kernel

/-- A CODE of each class: 4096, 16, 15, 0; and one whose input is only zeros. -/
theorem witness_RefillCounts :
    okAt (renormalise ((callOn [] 0).setCode 0x1000#32)) () (fun _ => true) = true ∧
    okAt (renormalise ((callOn [0xab#8, 0xcd#8] 0).setCode 0x10#32)) () (fun t => decide (t.code = 0x10AB#32)) = true ∧
    okAt (renormalise ((callOn [0xab#8, 0xcd#8] 0).setCode 0xF#32)) () (fun t => decide (t.code = 0xFABCD#32)) = true ∧
    okAt (renormalise (callOn [0x00#8, 0x00#8, 0x10#8, 0x00#8, 0xaa#8] 0)) () (fun t => decide (t.inPos = 4#32)) = true ∧
    ((callOn [0x00#8, 0x00#8] 0).code.toNat = 0 ∧
      ∀ a, a < 2 → (callOn [0x00#8, 0x00#8] 0).inPos.toNat ≤ a → a < (callOn [0x00#8, 0x00#8] 0).inLen.toNat →
        (callOn [0x00#8, 0x00#8] 0).readIn a = 0#8) := by decide +kernel

/-- A step of a run from START, and START itself. -/
theorem witness_CodeStaysBelowTwentyBits :
    (∃ t, exec .start State.reset = .next t) ∧
    (Live (callOn [0x02#8, 0x5d#8, 0xf9#8, 0x81#8, 0x54#8] 6) ∧
      (callOn [0x02#8, 0x5d#8, 0xf9#8, 0x81#8, 0x54#8] 6).code.toNat < 2 ^ 20 ∧
      ∃ t, step (callOn [0x02#8, 0x5d#8, 0xf9#8, 0x81#8, 0x54#8] 6) = .next t ∧ Live t) ∧
    ((0xFFF#32 : Word).toNat < 4096) ∧
    ∃ t, renormalise (callOn [0x0f#8, 0xff#8, 0xff#8] 0) = .ok () t := by
  refine ⟨⟨_, rfl⟩, ⟨.inl (by decide +kernel), by decide +kernel, ?_⟩, by decide, ?_⟩
  · obtain ⟨t, h1, h2⟩ := next_spec test_step_lit
    exact ⟨t, h1, .inl (by simp only [decide_eq_true_eq] at h2; exact h2.1)⟩
  · obtain ⟨t, h1, -⟩ := okAt_spec test_renormalise_three
    exact ⟨t, h1⟩

theorem witness_ProbabilitiesStayInRange :
    (∃ t, exec .start State.reset = .next t) ∧
    Live (callOn [0x02#8, 0x5d#8, 0xf9#8, 0x81#8, 0x54#8] 6) ∧
    (∀ i, i < 385 → 7 ≤ ((callOn [0x02#8, 0x5d#8, 0xf9#8, 0x81#8, 0x54#8] 6).getProb i).toNat ∧
      ((callOn [0x02#8, 0x5d#8, 0xf9#8, 0x81#8, 0x54#8] 6).getProb i).toNat ≤ 249) ∧
    ∃ t, step (callOn [0x02#8, 0x5d#8, 0xf9#8, 0x81#8, 0x54#8] 6) = .next t ∧ Live t := by
  refine ⟨⟨_, rfl⟩, .inl (by decide +kernel), by decide +kernel, ?_⟩
  obtain ⟨t, h1, h2⟩ := next_spec test_step_lit
  exact ⟨t, h1, .inl (by simp only [decide_eq_true_eq] at h2; exact h2.1)⟩

/-- A state whose decisions to come are these. -/
def scripted (ds : List Decision) (cap : Nat) : State := callOn (encodeBytes ds) cap

theorem isSome_spec {α : Type} {o : Option α} (h : o.isSome = true) : ∃ t, o = some t :=
  Option.isSome_iff_exists.1 h

/-- The smallest and the largest value. -/
theorem witness_UintReadsItsCode :
    (scripted (encodeUint .msbFirst 257 1) 0).status = .run ∧ (scripted (encodeUint .msbFirst 321 (2 ^ 32 - 1)) 0).status = .run ∧
    (∃ t, follow (encodeUint .msbFirst (uintBase Config.upkr .off) 1) (scripted (encodeUint .msbFirst 257 1) 0) = some t) ∧
    ∃ t, follow (encodeUint .msbFirst (uintBase Config.upkr .len) (2 ^ 32 - 1))
      (scripted (encodeUint .msbFirst 321 (2 ^ 32 - 1)) 0) = some t :=
  ⟨by decide +kernel, by decide +kernel, isSome_spec (by decide +kernel), isSome_spec (by decide +kernel)⟩

/-- Both clauses, at 4096 and one below the threshold. -/
theorem witness_UintIsOneOnAFirstZero :
    (bitState 0x1080#32 1#8).status = .run ∧ 4096 ≤ (bitState 0x1080#32 1#8).code.toNat ∧
    ((bitState 0x1080#32 1#8).getProb (uintBase Config.upkr .off)).toNat ≤ (bitState 0x1080#32 1#8).code.toNat % 256 ∧
    4096 ≤ (bitState 0x107F#32 1#8).code.toNat ∧
    (bitState 0x107F#32 1#8).code.toNat % 256 < ((bitState 0x107F#32 1#8).getProb (uintBase Config.upkr .off)).toNat := by
  decide +kernel

/-- 64 decisions of 1 from a base. -/
def ones (base n : Nat) : List Decision := (List.range n).map fun k => (base + k, true)

theorem witness_UintStaysInItsRegion :
    ((scripted (ones 321 64) 0).status = .run ∧ (ones 321 64).length = 64 ∧
      (∀ i, i < 32 → (ones 321 64)[2 * i]? = some (uintBase Config.upkr .len + 2 * i, true) ∧
        ∃ d, (ones 321 64)[2 * i + 1]? = some (uintBase Config.upkr .len + 2 * i + 1, d)) ∧
      ∃ t, follow (ones 321 64) (scripted (ones 321 64) 0) = some t) ∧
    (∃ t, decodeUint .off (bitState 0x1080#32 1#8) = .ok 1 t) ∧
    ∃ t, follow ((List.range 62).map (fun k => (uintBase Config.upkr .off + k, true)) ++
      [(uintBase Config.upkr .off + 62, false)]) (scripted (ones 257 62 ++ [(319, false)]) 0) = some t := by
  refine ⟨⟨by decide +kernel, by decide, by decide +kernel, isSome_spec (by decide +kernel)⟩, ?_,
    isSome_spec (by decide +kernel)⟩
  have h : okAt (decodeUint .off (bitState 0x1080#32 1#8)) 1 (fun _ => true) = true := by decide +kernel
  obtain ⟨t, h1, -⟩ := okAt_spec h
  exact ⟨t, h1⟩

theorem witness_LiteralReadsItsCode :
    (scripted (encodeLiteral Config.upkr 0#8) 0).status = .run ∧
    (∃ t, follow (encodeLiteral Config.upkr 0#8) (scripted (encodeLiteral Config.upkr 0#8) 0) = some t) ∧
    ∃ t, follow (encodeLiteral Config.upkr 255#8) (scripted (encodeLiteral Config.upkr 255#8) 0) = some t :=
  ⟨by decide +kernel, isSome_spec (by decide +kernel), isSome_spec (by decide +kernel)⟩

theorem witness_DecodersOutcomes : (callOn [] 0).status = .run := by decide +kernel

theorem witness_DecodersCompleteOnNonzeroInput :
    (callOn (List.replicate 192 1#8) 0).status = .run ∧ NonzeroInput 3 (callOn (List.replicate 192 1#8) 0) ∧
    NonzeroInput 24 (callOn (List.replicate 192 1#8) 0) ∧ NonzeroInput 192 (callOn (List.replicate 192 1#8) 0) := by
  unfold NonzeroInput
  decide +kernel

/-- Offset = OUT_POS and an exact fit; and offset 1. -/
theorem witness_CopyRepeatsThePattern :
    (written [0x61#8, 0x62#8, 0x63#8] 5).status = .run ∧ Memory.wf (written [0x61#8, 0x62#8, 0x63#8] 5).outMem = true ∧
    1 ≤ (3#32 : Word).toNat ∧ (3#32 : Word).toNat ≤ (written [0x61#8, 0x62#8, 0x63#8] 5).outPos.toNat ∧
    (written [0x61#8, 0x62#8, 0x63#8] 5).outPos.toNat + (2#32 : Word).toNat ≤
      (written [0x61#8, 0x62#8, 0x63#8] 5).outCap.toNat := by decide +kernel

/-- Each clause, where the checks meet: offset 0, offset one too far, one byte too many, an exact fit. -/
theorem witness_CopyChecksInOrder :
    (written [0x61#8, 0x62#8, 0x63#8] 5).status = .run ∧ (0#32 : Word).toNat = 0 ∧
    (written [0x61#8, 0x62#8, 0x63#8] 5).outPos.toNat < (4#32 : Word).toNat ∧
    ((3#32 : Word).toNat ≤ (written [0x61#8, 0x62#8, 0x63#8] 5).outPos.toNat ∧
      (written [0x61#8, 0x62#8, 0x63#8] 5).outCap.toNat <
        (written [0x61#8, 0x62#8, 0x63#8] 5).outPos.toNat + (3#32 : Word).toNat) ∧
    (written [0x61#8, 0x62#8, 0x63#8] 5).outPos.toNat + (2#32 : Word).toNat ≤
      (written [0x61#8, 0x62#8, 0x63#8] 5).outCap.toNat ∧
    Memory.wf (written [0x61#8, 0x62#8, 0x63#8] 5).outMem = true ∧
    (written [0x61#8, 0x62#8, 0x63#8] 5).pwm = false ∧ (written [0x61#8, 0x62#8, 0x63#8] 5).offset = 0#32 ∧
    ((written [0x61#8, 0x62#8, 0x63#8] 5).setPwm true).pwm = true ∧
    ((written [0x61#8, 0x62#8, 0x63#8] 5).setOffset 3#32).offset = 3#32 := by decide +kernel

theorem witness_LitEmitsItsByte :
    (written [0x61#8] 2).status = .run ∧ Memory.wf (written [0x61#8] 2).outMem = true ∧
    (written [0x61#8] 2).outPos.toNat < (written [0x61#8] 2).outCap.toNat ∧
    (written [0x61#8] 1).outCap.toNat ≤ (written [0x61#8] 1).outPos.toNat := by decide +kernel

/-- In either mode, offset = OUT_POS, an exact fit. -/
theorem witness_NewOffsetMatchCopies :
    (written [0x61#8] 2).status = .run ∧ (written [0x61#8] 2).pwm = false ∧ ((written [0x61#8] 2).setPwm true).pwm = true ∧
    Memory.wf (written [0x61#8] 2).outMem = true ∧ (1#32 : Word).toNat ≤ (written [0x61#8] 2).outPos.toNat ∧
    (written [0x61#8] 2).outPos.toNat + (1#32 : Word).toNat ≤ (written [0x61#8] 2).outCap.toNat := by decide +kernel

theorem witness_RepeatMatchReusesOffset :
    let s := (written [0x61#8] 2).setOffset 1#32
    s.status = .run ∧ s.pwm = false ∧ Memory.wf s.outMem = true ∧ 1 ≤ s.offset.toNat ∧
      s.offset.toNat ≤ s.outPos.toNat ∧ s.outPos.toNat + (1#32 : Word).toNat ≤ s.outCap.toNat := by decide +kernel

theorem witness_EndFinishesTheRun :
    (callOn [0x82#8, 0x00#8] 0).status = .run ∧ (callOn [0x82#8, 0x00#8] 0).pwm = false ∧
    (∃ t, follow [(0, true), (256, true), (257, false)] (callOn [0x82#8, 0x00#8] 0) = some t) ∧
    ((scripted [(0, true), (257, false)] 0).setPwm true).pwm = true ∧
    ∃ t, follow [(0, true), (257, false)] ((scripted [(0, true), (257, false)] 0).setPwm true) = some t :=
  ⟨by decide +kernel, by decide +kernel, isSome_spec (by decide +kernel), by decide +kernel,
    isSome_spec (by decide +kernel)⟩

theorem witness_FormsExistOnlyInTheirMode :
    (written [] 0).status = .run ∧ (written [] 0).pwm = false ∧ ((written [] 0).setPwm true).pwm = true ∧
    ∃ t, fetchSymbol (callOn [0x82#8, 0x00#8] 0) = .ok .endPwm0 t := by
  refine ⟨by decide +kernel, by decide +kernel, by decide +kernel, ?_⟩
  have h : okAt (fetchSymbol (callOn [0x82#8, 0x00#8] 0)) .endPwm0 (fun _ => true) = true := by decide +kernel
  obtain ⟨t, h1, -⟩ := okAt_spec h
  exact ⟨t, h1⟩

/-- A fetch that gives a symbol and one that raises. -/
theorem witness_StepRunsTheFetchedSymbol :
    (callOn [0x82#8, 0x00#8] 0).status = .run ∧ (∃ t, fetchSymbol (callOn [0x82#8, 0x00#8] 0) = .ok .endPwm0 t) ∧
    ∃ t, fetchSymbol (callOn [] 0) = .raise .truncatedInput t := by
  refine ⟨by decide +kernel, witness_FormsExistOnlyInTheirMode.2.2.2, ?_⟩
  have h : raisesAt (fetchSymbol (callOn [] 0)) .truncatedInput (fun _ => true) = true := by decide +kernel
  obtain ⟨t, h1, -⟩ := raisesAt_spec h
  exact ⟨t, h1⟩

/-- A MATCHN at the ends of both operands' ranges, read from bytes. -/
theorem witness_StreamRunsTheEncodedSymbol :
    ∃ ds t, (scripted ds 0).status = .run ∧ (Instr.matchnPwm0 0xFFFFFFFE#32 0xFFFFFFFF#32).wf = true ∧
      (Instr.matchnPwm0 0xFFFFFFFE#32 0xFFFFFFFF#32).existsInMode (scripted ds 0).pwm = true ∧
      encode (.matchnPwm0 0xFFFFFFFE#32 0xFFFFFFFF#32) = some ds ∧ follow ds (scripted ds 0) = some t := by
  have h : ((encode (.matchnPwm0 0xFFFFFFFE#32 0xFFFFFFFF#32)).bind
    fun ds => follow ds (scripted ds 0)).isSome = true := by decide +kernel
  obtain ⟨t, h⟩ := isSome_spec h
  obtain ⟨ds, h1, h2⟩ := Option.bind_eq_some_iff.1 h
  exact ⟨ds, t, rfl, by decide, rfl, h1, h2⟩

theorem witness_DecodeOfEncode :
    (Instr.matchnPwm1 1#32 5#32).wf = true ∧ (Instr.matchnPwm1 1#32 5#32).existsInMode true = true ∧
    ∃ ds, encodeSymbol Config.upkrLsb (.matchnPwm1 1#32 5#32) = some ds := ⟨by decide, by decide, _, rfl⟩

theorem witness_EncodeOfDecode :
    decodeString Config.upkr true [true, false, true] = .ok .endPwm1 ⟨[true], [(0, true), (257, false)]⟩ := by decide

theorem witness_DecisionCounts :
    (∃ ds, encode (.lit 0#8) = some ds) ∧ (∃ ds, encode (.matchnPwm0 1#32 1#32) = some ds) ∧
    (∃ ds, encode (.matchnPwm1 1#32 1#32) = some ds) ∧ (∃ ds, encode (.matchr 1#32) = some ds) ∧
    (∃ ds, encode .endPwm0 = some ds) ∧ (∃ ds, encode .endPwm1 = some ds) ∧ (2 ^ 31 : Nat) < 2 ^ 32 :=
  ⟨⟨_, rfl⟩, ⟨_, rfl⟩, ⟨_, rfl⟩, ⟨_, rfl⟩, ⟨_, rfl⟩, ⟨_, rfl⟩, by norm_num⟩

theorem witness_LiteralPurity :
    (scripted ([0x41#8, 0x42#8].flatMap fun b => (0, false) :: encodeLiteral Config.upkr b) 2).status = .run ∧
    Memory.wf (scripted ([0x41#8, 0x42#8].flatMap fun b => (0, false) :: encodeLiteral Config.upkr b) 2).outMem = true ∧
    (scripted ([0x41#8, 0x42#8].flatMap fun b => (0, false) :: encodeLiteral Config.upkr b) 2).outPos.toNat + 2 ≤
      (scripted ([0x41#8, 0x42#8].flatMap fun b => (0, false) :: encodeLiteral Config.upkr b) 2).outCap.toNat ∧
    ∃ t, follow ([0x41#8, 0x42#8].flatMap fun b => (0, false) :: encodeLiteral Config.upkr b)
      (scripted ([0x41#8, 0x42#8].flatMap fun b => (0, false) :: encodeLiteral Config.upkr b) 2) = some t :=
  ⟨by decide +kernel, by decide +kernel, by decide +kernel, isSome_spec (by decide +kernel)⟩

theorem witness_FetchTouchesOnlyThePredictor : ∃ t, fetchSymbol (callOn [0x82#8, 0x00#8] 0) = .ok .endPwm0 t :=
  witness_FormsExistOnlyInTheirMode.2.2.2

theorem witness_OffsetChoiceIsSkippedAfterAMatch :
    ((scripted [(0, true), (257, false)] 0).setPwm true).pwm = true ∧
    ∃ t, fetchSymbol ((scripted [(0, true), (257, false)] 0).setPwm true) = .ok .endPwm1 t := by
  refine ⟨by decide +kernel, ?_⟩
  have h : okAt (fetchSymbol ((scripted [(0, true), (257, false)] 0).setPwm true)) .endPwm1 (fun _ => true) = true := by
    decide +kernel
  obtain ⟨t, h1, -⟩ := okAt_spec h
  exact ⟨t, h1⟩

/-- One byte written, then the decisions of MATCHN 1, 5 and of END after it. -/
def matchThenEnd : State :=
  (((scripted [(0, true), (256, true), (257, true), (258, false), (259, false), (321, true), (322, false), (323, true),
    (324, true), (325, false), (0, true), (257, false)] 6).setOutMem [(0, 0x41#8)]).setOutPos 1#32)

theorem witness_RepeatMatchesAreNeverAdjacent :
    matchThenEnd.status = .run ∧ (∃ s1, fetchSymbol matchThenEnd = .ok (.matchnPwm0 1#32 5#32) s1) ∧
    ∃ t, step matchThenEnd = .next t ∧ t.status = .run ∧ ∃ u, fetchSymbol t = .ok .endPwm1 u := by
  refine ⟨by decide +kernel, ?_, ?_⟩
  · have h : okAt (fetchSymbol matchThenEnd) (.matchnPwm0 1#32 5#32) (fun _ => true) = true := by decide +kernel
    obtain ⟨t, h1, -⟩ := okAt_spec h
    exact ⟨t, h1⟩
  · have h : next (step matchThenEnd)
        (fun t => decide (t.status = .run) && okAt (fetchSymbol t) .endPwm1 (fun _ => true)) = true := by decide +kernel
    obtain ⟨t, h1, h2⟩ := next_spec h
    simp only [Bool.and_eq_true, decide_eq_true_eq] at h2
    obtain ⟨u, h3, -⟩ := okAt_spec h2.2
    exact ⟨t, h1, h2.1, u, h3⟩

/-- Each of the two faults a reading can raise. -/
theorem witness_ReadingRaisesOnlyWhenItMust :
    (∃ t, fetchSymbol (callOn [] 0) = .raise .truncatedInput t) ∧
    ∃ t, fetchSymbol (scripted ((0, true) :: (256, false) :: ones 321 64) 0) = .raise .uintOverflow t := by
  refine ⟨witness_StepRunsTheFetchedSymbol.2.2, ?_⟩
  have h : raisesAt (fetchSymbol (scripted ((0, true) :: (256, false) :: ones 321 64) 0)) .uintOverflow
      (fun _ => true) = true := by decide +kernel
  obtain ⟨t, h1, -⟩ := raisesAt_spec h
  exact ⟨t, h1⟩

theorem witness_EveryRunEnds :
    (callOn [] 0).status = .run ∧ (Instr.matchr 1#32).wf = true ∧ ∃ ds, encode (.matchr 1#32) = some ds :=
  ⟨by decide +kernel, by decide, _, rfl⟩

/-- The invariant holds at the start of the call of P2, whose first step emits a byte. -/
theorem callOn_inv : Inv (callOn [0x02#8, 0x5d#8, 0xf9#8, 0x81#8, 0x54#8] 6) :=
  Inv.startCall (by decide +kernel) (by decide +kernel)

theorem witness_StepKeepsInvariant :
    Inv (callOn [0x02#8, 0x5d#8, 0xf9#8, 0x81#8, 0x54#8] 6) ∧
    ∃ t, step (callOn [0x02#8, 0x5d#8, 0xf9#8, 0x81#8, 0x54#8] 6) = .next t ∧ t.status = .run := by
  obtain ⟨t, h1, h2⟩ := next_spec test_step_lit
  exact ⟨callOn_inv, t, h1, by simp only [decide_eq_true_eq] at h2; exact h2.1⟩

theorem witness_ExecKeepsInvariant :
    (Instr.lit 0x41#8).wf = true ∧ Inv (callOn [0x02#8, 0x5d#8, 0xf9#8, 0x81#8, 0x54#8] 6) ∧
    ∃ t, exec (.lit 0x41#8) (callOn [0x02#8, 0x5d#8, 0xf9#8, 0x81#8, 0x54#8] 6) = .next t := by
  refine ⟨rfl, callOn_inv, ?_⟩
  have h : next (exec (.lit 0x41#8) (callOn [0x02#8, 0x5d#8, 0xf9#8, 0x81#8, 0x54#8] 6)) (fun _ => true) = true := by
    decide +kernel
  obtain ⟨t, h1, -⟩ := next_spec h
  exact ⟨t, h1⟩

/-- A step that writes, and an instruction that writes. -/
theorem witness_NoByteOutsideTheBuffer :
    (callOn [0x02#8, 0x5d#8, 0xf9#8, 0x81#8, 0x54#8] 6).status = .run ∧
    Memory.wf (callOn [0x02#8, 0x5d#8, 0xf9#8, 0x81#8, 0x54#8] 6).outMem = true ∧
    (∃ t, step (callOn [0x02#8, 0x5d#8, 0xf9#8, 0x81#8, 0x54#8] 6) = .next t) ∧
    ∃ t, exec (.lit 0x41#8) (callOn [0x02#8, 0x5d#8, 0xf9#8, 0x81#8, 0x54#8] 6) = .next t := by
  obtain ⟨t, h1, -⟩ := next_spec test_step_lit
  exact ⟨by decide +kernel, by decide +kernel, ⟨t, h1⟩, witness_ExecKeepsInvariant.2.2⟩

theorem witness_OutputOnlyGrows :
    Inv (callOn [0x02#8, 0x5d#8, 0xf9#8, 0x81#8, 0x54#8] 6) ∧
    (callOn [0x02#8, 0x5d#8, 0xf9#8, 0x81#8, 0x54#8] 6).status = .run ∧
    ∃ t, step (callOn [0x02#8, 0x5d#8, 0xf9#8, 0x81#8, 0x54#8] 6) = .next t ∧ t.status ≠ .fault := by
  obtain ⟨t, h1, h2⟩ := next_spec test_step_lit
  simp only [decide_eq_true_eq] at h2
  exact ⟨callOn_inv, by decide +kernel, t, h1, by rw [h2.1]; decide⟩

/-- Two histories: a fresh machine, and one left by an earlier run with other bytes in OUT. -/
theorem witness_CallsDependOnlyOnTheirInput :
    let s := (callOn [0x82#8, 0x00#8] 1).setStatus .idle
    let t := ((callOn [0x82#8, 0x00#8] 1).setOutMem [(0, 0x55#8)]).setStatus .fault
    Memory.wf s.outMem = true ∧ Memory.wf t.outMem = true ∧ s.inLen = t.inLen ∧ s.outCap = t.outCap ∧
    (∀ a, a < s.inLen.toNat → s.readIn a = t.readIn a) ∧ (∃ s', exec .start s = .next s') ∧
    ∃ t', exec .start t = .next t' := by
  refine ⟨by decide +kernel, by decide +kernel, rfl, rfl, fun _ _ => rfl, ⟨_, rfl⟩, ⟨_, rfl⟩⟩

/-- P1 with other bytes and another IN_LEN beyond the two it takes. -/
theorem witness_UnreadInputNeverMatters :
    (callOn [0x82#8, 0x00#8] 0).status = .run ∧ (runSymbols 1 (callOn [0x82#8, 0x00#8] 0)).status ≠ .fault ∧
    (runSymbols 1 (callOn [0x82#8, 0x00#8] 0)).inPos.toNat ≤ (7#32 : Word).toNat ∧
    ∀ a, a < (runSymbols 1 (callOn [0x82#8, 0x00#8] 0)).inPos.toNat →
      Memory.read [(0, 0x82#8), (2, 0x99#8)] a = (callOn [0x82#8, 0x00#8] 0).readIn a := by decide +kernel

theorem witness_FaultEntry : Memory.wf (written [0x61#8] 2).outMem = true := by decide +kernel

theorem witness_OnlyStartLeavesFault :
    ((written [] 0).setStatus .fault).status = .fault ∧
    (∃ t, step ((written [] 0).setStatus .fault) = .next t) ∧
    ∃ t, step (((written [] 0).setStatus .fault).setHostQ [.start]) = .next t :=
  ⟨by decide +kernel, ⟨_, rfl⟩, ⟨_, rfl⟩⟩

theorem witness_ResultAfterEnd :
    (callOn [0x82#8, 0x00#8] 0).status = .run ∧
    ∃ t, step (callOn [0x82#8, 0x00#8] 0) = .next t ∧ t.status = .done := by
  obtain ⟨t, h1, h2⟩ := next_spec test_step_end
  simp only [decide_eq_true_eq] at h2
  exact ⟨by decide +kernel, t, h1, h2.1⟩

theorem witness_BytesOfDecisionsAreReadBack :
    (∀ d ∈ [((0 : Nat), true), (384, false)], d.1 < 385) ∧
    (encodeBytes [(0, true), (384, false)]).length < 2 ^ 32 ∧ [((0 : Nat), true), (384, false)] ≠ [] := by
  decide +kernel

end Sys2Proof.Tests
end

section
/-! PROOF. Bytes of IN at or beyond the final IN_POS, and IN_LEN beyond it, have no effect on a run that does not
fault (spec 20_memory.md R44). The state with another IN space and IN_LEN follows the state of the run, operation by
operation, for as long as IN_POS stays at or below a bound below which both IN spaces hold the same bytes. -/

namespace Sys2Proof.Machine

/-- The state with another IN space and another IN_LEN. -/
def State.withInput (m : Memory) (n : Word) (s : State) : State := { s with inMem := m, inLen := n }

/-- `t` is `s` with the input `m`, `n`, and `m` holds the bytes of the IN space of `s` below index `p`. -/
def SameInputBelow (p : Nat) (m : Memory) (n : Word) (s t : State) : Prop :=
  t = s.withInput m n ∧ ∀ a, a < p → Memory.read m a = s.readIn a

/-- IN_POS has not passed `p`. -/
def CursorWithin (p : Nat) (s : State) : Prop := s.inPos.toNat ≤ p

section WithInputFields
variable (m : Memory) (n : Word) (s : State)
@[simp] theorem State.withInput_inPos : (s.withInput m n).inPos = s.inPos := rfl
@[simp] theorem State.withInput_pwm : (s.withInput m n).pwm = s.pwm := rfl
@[simp] theorem State.withInput_status : (s.withInput m n).status = s.status := rfl
end WithInputFields

/-! ### Reading decisions -/

/-- A decision neither reads nor writes IN and IN_LEN once CODE is renormalised (R71). -/
theorem decide1_withInput (c : Nat) (m : Memory) (n : Word) (s : State) :
    decide1 c (s.withInput m n) = (decide1 c s).withInput m n := by
  unfold decide1 State.setProb
  split <;> rfl

/-- A refill takes the byte at IN_POS and no other (R33, R70). -/
theorem refilled_withInput {m : Memory} {s : State} (n : Word)
    (h : Memory.read m s.inPos.toNat = s.readIn s.inPos.toNat) :
    refilled (s.withInput m n) = (refilled s).withInput m n := by
  have hb : (s.withInput m n).readIn s.inPos.toNat = s.readIn s.inPos.toNat := h
  simp only [refilled, State.withInput_inPos, hb]
  rfl

section Follows

variable {p : Nat} {m : Memory} {n : Word}

theorem SameInputBelow.of_inMem_eq {s s' : State} (hm : s'.inMem = s.inMem)
    (h : ∀ a, a < p → Memory.read m a = s.readIn a) : SameInputBelow p m n s' (s'.withInput m n) :=
  ⟨rfl, fun a ha => by rw [h a ha, State.readIn, State.readIn, hm]⟩

/-- Each refill raises IN_POS past the byte it takes, so a loop that ends within `p` reads below `p` only. -/
theorem renormalise_follows (hn : p ≤ n.toNat) (s : State) (h : ∀ a, a < p → Memory.read m a = s.readIn a) :
    Res.Follows (CursorWithin p) (SameInputBelow p m n) (renormalise s) (renormalise (s.withInput m n)) := by
  induction s using renormalise_induction with
  | done s hc =>
    rw [renormalise_of_ge hc, renormalise_of_ge (by exact hc)]
    exact .ok () (.of_inMem_eq rfl h)
  | dry s hc hl =>
    rw [renormalise_truncated hc hl]
    exact .raise _ _
  | more s hc hl ih =>
    rw [renormalise_refill hc hl]
    intro v t ht hp
    have hpos : s.inPos.toNat < p := by
      obtain ⟨-, -, hle, -⟩ := (renormalise_post (refilled s)).ok_of ht
      rw [refilled_inPos_toNat hl] at hle
      exact hle.trans hp
    rw [renormalise_refill (by exact hc) (by exact hpos.trans_le hn), refilled_withInput n (h _ hpos)]
    exact ih h v t ht hp

theorem decodeBit_follows (hn : p ≤ n.toNat) (c : Nat) {s t : State} (h : SameInputBelow p m n s t) :
    Res.Follows (CursorWithin p) (SameInputBelow p m n) (decodeBit c s) (decodeBit c t) := by
  obtain ⟨rfl, hr⟩ := h
  refine (renormalise_follows hn s hr).andThen (fun _ u v w e g => ?_) fun _ u u' hu => ?_
  · obtain ⟨-, rfl⟩ := Res.ok.inj e
    simpa [CursorWithin] using g
  · obtain ⟨rfl, hu⟩ := hu
    rw [decide1_withInput]
    exact .ok _ (.of_inMem_eq (decide1_inMem c u) hu)

/-- A decision never moves IN_POS back (R17). -/
theorem decodeBit_back (c : Nat) (s : State) : (decodeBit c s).Back (CursorWithin p) s := by
  intro b t ht hp
  obtain ⟨-, hle, -⟩ := (decodeBit_post c s).ok_of ht
  exact hle.trans hp

theorem fetchSymbol_follows (hn : p ≤ n.toNat) {s t : State} (h : SameInputBelow p m n s t) :
    Res.Follows (CursorWithin p) (SameInputBelow p m n) (fetchSymbol s) (fetchSymbol t) := by
  have hpwm : t.pwm = s.pwm := by rw [h.1, State.withInput_pwm]
  unfold fetchSymbol
  rw [hpwm]
  refine readSymbol_follows decodeBit_back (fun c _ _ => decodeBit_follows hn c) (fun _ _ hg => hg) ?_ h
  rintro o u _ ⟨rfl, hu⟩
  exact .of_inMem_eq (s := u) rfl hu

end Follows

/-! ### Executing a symbol -/

/-- The copy of a match neither reads nor writes IN and IN_LEN (R26, R112). -/
theorem copyBytes_withInput (o : Word) (m : Memory) (n : Word) (k : Nat) (s : State) :
    copyBytes o k (s.withInput m n) = (copyBytes o k s).withInput m n := by
  induction k generalizing s with
  | zero => rfl
  | succ k ih => exact ih (putByte (s.readOut (s.outPos.toNat - o.toNat)) s)

/-- A symbol completes in the same way whatever IN and IN_LEN hold. -/
theorem Completes.withInput {s t : State} {i : Instr} (m : Memory) (n : Word) (h : Completes s i t) :
    Completes (s.withInput m n) i (t.withInput m n) := by
  cases h with
  | lit b room => exact .lit b room
  | copied i o l form nonzero reach room =>
    have hc := copyBytes_withInput o m n l.toNat (s.setOffset o)
    have := Completes.copied (s := s.withInput m n) i o l form nonzero reach room
    rwa [show (s.withInput m n).setOffset o = (s.setOffset o).withInput m n from rfl, hc] at this
  | ended i form => exact .ended i form

/-- What completes a symbol is what executing it gives, during a run and in its mode (R96, R98 to R101). -/
theorem Completes.exec_eq {s t : State} {i : Instr} (hs : s.status = .run) (hm : i.existsInMode s.pwm = true)
    (h : Completes s i t) : exec i s = .next t := by
  cases h with
  | lit b room => simp [exec, execLit, whileRunning_run hs, emit_of_lt room]
  | copied i o l form nonzero reach room =>
    have hc : newMatch o l s = .ok () (raisePwm (copyBytes o l.toNat (s.setOffset o))) := by
      simp [newMatch, matchTail, copyMatch_ok (s := s.setOffset o) nonzero reach room]
    rcases form with rfl | rfl | ⟨rfl, rfl⟩ <;> simp only [Instr.existsInMode, Bool.not_eq_true'] at hm
    · simp [exec, execMatchnPwm0, whileRunning_run hs, inMode_eq hm, hc]
    · simp [exec, execMatchnPwm1, whileRunning_run hs, inMode_eq hm, hc]
    · simp [exec, execMatchr, whileRunning_run hs, inMode_eq hm, matchTail_eq_newMatch, hc]
  | ended i form =>
    rcases form with rfl | rfl <;> simp only [Instr.existsInMode, Bool.not_eq_true'] at hm
    · simp [exec, execEndPwm0, whileRunning_run hs, inMode_eq hm]
    · simp [exec, execEndPwm1, whileRunning_run hs, inMode_eq hm]

/-! ### Steps and runs -/

/-- A step of a run always gives a next state (R58, R103). -/
theorem step_run_next {s : State} (hs : s.status = .run) : ∃ t, step s = .next t := by
  have hp := fetchSymbol_post s
  simp only [step, hs, if_true]
  cases hf : fetchSymbol s with
  | raise f u => exact ⟨_, rfl⟩
  | ok i u =>
    obtain ⟨⟨-, hm⟩, hk⟩ := hp.ok_of hf
    obtain ⟨-, hpwm, hst, -⟩ := hk.fields
    exact exec_symbol_next (hst.trans hs) (by rw [hpwm]; exact hm)

/-- A step of a run that does not end in a fault fetches a symbol and completes it (R95). -/
theorem step_run_completes {s t : State} (hs : s.status = .run) (h : step s = .next t) (hf : t.status ≠ .fault) :
    ∃ i u, fetchSymbol s = .ok i u ∧ i.existsInMode s.pwm = true ∧ FetchKeeps (symbolCtx s.pwm) s u ∧
      Completes u i t := by
  rcases step_run_cases hs h with ⟨i, u, hu, -, hm, hk, hc⟩ | ⟨f, u, -, rfl⟩
  · exact ⟨i, u, hu, hm, hk, hc⟩
  · exact absurd (takeFault_status f u) hf

/-- Such a step keeps IN and never moves IN_POS back (R17, R26). -/
theorem step_run_input {s t : State} (hs : s.status = .run) (h : step s = .next t) (hf : t.status ≠ .fault) :
    t.inMem = s.inMem ∧ s.inPos.toNat ≤ t.inPos.toNat := by
  obtain ⟨i, u, -, -, hk, hc⟩ := step_run_completes hs h hf
  obtain ⟨-, -, hpos, -, -, -, hmem, -⟩ := hc.frame
  obtain ⟨-, -, -, -, -, -, hmem', -⟩ := hk.fields
  exact ⟨hmem.trans hmem', by rw [hpos]; exact hk.read.forward⟩

theorem step_withInput {p : Nat} {m : Memory} {n : Word} {s t : State} (hn : p ≤ n.toNat) (hs : s.status = .run)
    (h : step s = .next t) (hf : t.status ≠ .fault) (hp : t.inPos.toNat ≤ p)
    (hr : ∀ a, a < p → Memory.read m a = s.readIn a) : step (s.withInput m n) = .next (t.withInput m n) := by
  obtain ⟨i, u, hu, hm, hk, hc⟩ := step_run_completes hs h hf
  obtain ⟨-, hpwm, hst, -⟩ := hk.fields
  have hup : CursorWithin p u := by
    obtain ⟨-, -, hpos, -⟩ := hc.frame
    rwa [CursorWithin, ← hpos]
  obtain ⟨u', hu', rfl, -⟩ := fetchSymbol_follows hn ⟨rfl, hr⟩ i u hu hup
  simp only [step, State.withInput_status, hs, if_true, hu']
  exact (hc.withInput m n).exec_eq (hst.trans hs) (by rw [State.withInput_pwm, hpwm]; exact hm)

theorem runSymbols_of_not_run (k : Nat) {s : State} (hs : s.status ≠ .run) : runSymbols k s = s := by
  cases k with
  | zero => rfl
  | succ k => simp [runSymbols, hs]

theorem runSymbols_succ_of_step (k : Nat) {s t : State} (hs : s.status = .run) (h : step s = .next t) :
    runSymbols (k + 1) s = runSymbols k t := by
  simp [runSymbols, hs, h]

/-- A run that does not end in a fault did not start in one: nothing leaves FAULT but START (R137). -/
theorem status_ne_fault_of_runSymbols {k : Nat} {s : State} (h : (runSymbols k s).status ≠ .fault) :
    s.status ≠ .fault := by
  intro hs
  rw [runSymbols_of_not_run k (by simp [hs])] at h
  exact h hs

/-- A run that does not end in a fault never moves IN_POS back (R17). -/
theorem inPos_le_runSymbols {k : Nat} {s : State} (h : (runSymbols k s).status ≠ .fault) :
    s.inPos.toNat ≤ (runSymbols k s).inPos.toNat := by
  induction k generalizing s with
  | zero => exact le_rfl
  | succ k ih =>
    by_cases hs : s.status = .run
    · obtain ⟨t, ht⟩ := step_run_next hs
      rw [runSymbols_succ_of_step k hs ht] at h ⊢
      exact (step_run_input hs ht (status_ne_fault_of_runSymbols h)).2.trans (ih h)
    · rw [runSymbols_of_not_run _ hs]

/-- R44 with a bound `p` on the final IN_POS in its place, so that the induction can keep it fixed. -/
theorem runSymbols_withInput {p : Nat} {m : Memory} {n : Word} (hn : p ≤ n.toNat) (k : Nat) (s : State)
    (hf : (runSymbols k s).status ≠ .fault) (hp : (runSymbols k s).inPos.toNat ≤ p)
    (hr : ∀ a, a < p → Memory.read m a = s.readIn a) :
    runSymbols k (s.withInput m n) = (runSymbols k s).withInput m n := by
  induction k generalizing s with
  | zero => rfl
  | succ k ih =>
    by_cases hs : s.status = .run
    · obtain ⟨t, ht⟩ := step_run_next hs
      rw [runSymbols_succ_of_step k hs ht] at hf hp ⊢
      have htf := status_ne_fault_of_runSymbols hf
      have hstep := step_withInput hn hs ht htf ((inPos_le_runSymbols hf).trans hp) hr
      have hmem := (step_run_input hs ht htf).1
      rw [runSymbols_succ_of_step k (by exact hs) hstep]
      exact ih t hf hp fun a ha => by rw [hr a ha, State.readIn, State.readIn, hmem]
    · rw [runSymbols_of_not_run _ hs, runSymbols_of_not_run _ (by exact hs)]

/-- Settles O45, by induction on the number of symbols: each step of the run with the other input follows the run's
own, since a step that does not fault reads IN only below the IN_POS it leaves. -/
theorem unreadInputNeverMatters : Obligations.UnreadInputNeverMatters := by
  intro k s m n _ hf hn hr
  exact runSymbols_withInput hn k s hf le_rfl hr

end Sys2Proof.Machine
end

section
/-! PROOF. The two probability updates of 40_bit_predictor.md R72: each as a map on entries, and its iterates
from 128. From the 28th update on an update moves the entry by one, which carries the sequence to its fixed point
at the 42nd; no entry before that one is fixed, since the sequences never turn back. -/

namespace Sys2Proof.Machine

/-! ### One update -/

theorem le_probUp (p : Byte) : p.toNat ≤ (probUp p).toNat := by
  rw [probUp_toNat]; omega

theorem probDown_le (p : Byte) : (probDown p).toNat ≤ p.toNat := by
  rw [probDown_toNat]; omega

theorem probUp_eq_self_iff (p : Byte) : probUp p = p ↔ 249 ≤ p.toNat := by
  rw [← BitVec.toNat_inj, probUp_toNat]; omega

theorem probDown_eq_self_iff (p : Byte) : probDown p = p ↔ p.toNat ≤ 7 := by
  rw [← BitVec.toNat_inj, probDown_toNat]; omega

theorem lt_probUp {p : Byte} (h : p.toNat < 249) : p.toNat < (probUp p).toNat := by
  rw [probUp_toNat]; omega

theorem probDown_lt {p : Byte} (h : 7 < p.toNat) : (probDown p).toNat < p.toNat := by
  rw [probDown_toNat]; omega

theorem probUp_mono {p q : Byte} (h : p.toNat ≤ q.toNat) : (probUp p).toNat ≤ (probUp q).toNat := by
  rw [probUp_toNat, probUp_toNat]; omega

theorem probDown_mono {p q : Byte} (h : p.toNat ≤ q.toNat) : (probDown p).toNat ≤ (probDown q).toNat := by
  rw [probDown_toNat, probDown_toNat]; omega

/-- In the last 16 entries before its fixed point, `probUp` adds exactly one. -/
theorem probUp_eq_add_one {p : Byte} (h1 : 233 ≤ p.toNat) (h2 : p.toNat < 249) :
    (probUp p).toNat = p.toNat + 1 := by
  rw [probUp_toNat]; omega

/-- In the last 16 entries before its fixed point, `probDown` takes exactly one. -/
theorem probDown_add_one_eq {p : Byte} (h1 : 7 < p.toNat) (h2 : p.toNat ≤ 23) :
    (probDown p).toNat + 1 = p.toNat := by
  rw [probDown_toNat]; omega

/-! ### The updates repeated from 128 -/

theorem probUp_iterate_mono : Monotone fun n => (probUp^[n] 128#8).toNat :=
  monotone_nat_of_le_succ fun n => by
    rw [Function.iterate_succ_apply']; exact le_probUp _

theorem probDown_iterate_anti : Antitone fun n => (probDown^[n] 128#8).toNat :=
  antitone_nat_of_succ_le fun n => by
    rw [Function.iterate_succ_apply']; exact probDown_le _

theorem probUp_iterate_from_28 {k : Nat} (hk : k ≤ 14) : (probUp^[28 + k] 128#8).toNat = 235 + k := by
  induction k with
  | zero => decide
  | succ k ih =>
    have ih := ih (by omega)
    rw [← Nat.add_assoc, Function.iterate_succ_apply', probUp_eq_add_one (by omega) (by omega), ih, Nat.add_assoc]

theorem probDown_iterate_from_28 {k : Nat} (hk : k ≤ 14) : (probDown^[28 + k] 128#8).toNat = 21 - k := by
  induction k with
  | zero => decide
  | succ k ih =>
    have ih := ih (by omega)
    have hstep := probDown_add_one_eq (p := probDown^[28 + k] 128#8) (by omega) (by omega)
    rw [← Nat.add_assoc, Function.iterate_succ_apply']
    omega

theorem probUp_iterate_lt_249 {n : Nat} (hn : n < 42) : (probUp^[n] 128#8).toNat < 249 := by
  have hle : (probUp^[n] 128#8).toNat ≤ (probUp^[28 + 13] 128#8).toNat := probUp_iterate_mono (by omega)
  rw [probUp_iterate_from_28 (by omega)] at hle
  omega

theorem lt_probDown_iterate {n : Nat} (hn : n < 42) : 7 < (probDown^[n] 128#8).toNat := by
  have hle : (probDown^[28 + 13] 128#8).toNat ≤ (probDown^[n] 128#8).toNat := probDown_iterate_anti (by omega)
  rw [probDown_iterate_from_28 (by omega)] at hle
  omega

theorem probUp_iterate_of_42_le {n : Nat} (hn : 42 ≤ n) : probUp^[n] 128#8 = 249#8 := by
  have h42 : probUp^[42] 128#8 = 249#8 := BitVec.eq_of_toNat_eq (probUp_iterate_from_28 (k := 14) le_rfl)
  obtain ⟨k, rfl⟩ := Nat.exists_eq_add_of_le' hn
  rw [Function.iterate_add_apply, h42]
  exact Function.iterate_fixed ((probUp_eq_self_iff _).2 (by decide)) k

theorem probDown_iterate_of_42_le {n : Nat} (hn : 42 ≤ n) : probDown^[n] 128#8 = 7#8 := by
  have h42 : probDown^[42] 128#8 = 7#8 := BitVec.eq_of_toNat_eq (probDown_iterate_from_28 (k := 14) le_rfl)
  obtain ⟨k, rfl⟩ := Nat.exists_eq_add_of_le' hn
  rw [Function.iterate_add_apply, h42]
  exact Function.iterate_fixed ((probDown_eq_self_iff _).2 (by decide)) k

theorem probUp_iterate_lt_succ {n : Nat} (hn : n < 42) :
    (probUp^[n] 128#8).toNat < (probUp^[n + 1] 128#8).toNat := by
  rw [Function.iterate_succ_apply']
  exact lt_probUp (probUp_iterate_lt_249 hn)

theorem probDown_iterate_succ_lt {n : Nat} (hn : n < 42) :
    (probDown^[n + 1] 128#8).toNat < (probDown^[n] 128#8).toNat := by
  rw [Function.iterate_succ_apply']
  exact probDown_lt (lt_probDown_iterate hn)

theorem probUp_iterate_succ_eq {n : Nat} (h28 : 28 ≤ n) (hn : n < 42) :
    (probUp^[n + 1] 128#8).toNat = (probUp^[n] 128#8).toNat + 1 := by
  obtain ⟨k, rfl⟩ := Nat.exists_eq_add_of_le h28
  rw [Nat.add_assoc, probUp_iterate_from_28 (by omega), probUp_iterate_from_28 (by omega), Nat.add_assoc]

theorem probDown_iterate_succ_add_one {n : Nat} (h28 : 28 ≤ n) (hn : n < 42) :
    (probDown^[n + 1] 128#8).toNat + 1 = (probDown^[n] 128#8).toNat := by
  obtain ⟨k, rfl⟩ := Nat.exists_eq_add_of_le h28
  rw [Nat.add_assoc, probDown_iterate_from_28 (by omega), probDown_iterate_from_28 (by omega)]
  omega

/-- Settles O7: the laws of one update are arithmetic on its value; the listed values are evaluated; the two
sequences move by one from the 28th update to their fixed point, and so are strict before it. -/
theorem probabilityUpdateLaws : Obligations.ProbabilityUpdateLaws := by
  refine ⟨fun p hp => ?_, fun p q h => ⟨probUp_mono h, probDown_mono h⟩, by decide, by decide, by decide, by decide,
    fun _ => ⟨probUp_iterate_lt_succ, probUp_iterate_succ_eq, probUp_iterate_of_42_le⟩,
    fun _ => ⟨probDown_iterate_succ_lt, probDown_iterate_succ_add_one, probDown_iterate_of_42_le⟩⟩
  have hdown : 1 ≤ (probDown p).toNat := adapt_pos hp false
  exact ⟨by omega, by omega, probUp_toNat p, probDown_toNat p, le_probUp p, hdown, probDown_le p,
    probUp_eq_self_iff p, probDown_eq_self_iff p⟩

end Sys2Proof.Machine
end

section
/-! PROOF. A call depends only on its input (spec 45_host_interface.md R125). Two calls go in lockstep: as long as no
fault has ended them they agree on the registers of the call, on IN below IN_LEN and on OUT below OUT_POS, and a
decision, a byte emitted and a copy read nothing else. Nothing is claimed of the free values a fault leaves (R138),
so when both calls raise the same fault there is no more to show. -/

namespace Sys2Proof.Machine

/-- The registers of a call: the state without the two byte spaces and without the model's own fields. -/
def State.registers (s : State) : State := { s with inMem := [], outMem := [], ret := 0#32, hostQ := [], free := 0 }

/-- Two calls that nothing they may read tells apart: IN is read below IN_LEN only, OUT below OUT_POS only. -/
structure InStep (s t : State) : Prop where
  registers : s.registers = t.registers
  input : ∀ a, a < s.inLen.toNat → s.readIn a = t.readIn a
  wf_left : Memory.wf s.outMem = true
  wf_right : Memory.wf t.outMem = true
  written : ∀ a, a < s.outPos.toNat → s.readOut a = t.readOut a

/-- Two calls in step, or both ended by the same fault. -/
inductive Alike : State → State → Prop
  | inStep {s t : State} (h : InStep s t) : Alike s t
  | faulted (f : FaultName) (u v : State) : Alike (takeFault f u) (takeFault f v)

/-- Both give the same value and stay in step, or both raise the same fault. -/
abbrev ResInStep {α : Type} : Res State α → Res State α → Prop := Res.Same InStep fun _ _ => True

namespace InStep

section Fields
variable {s t : State} (h : InStep s t)
include h
theorem probs : s.probs = t.probs := (congrArg State.probs h.registers :)
theorem code : s.code = t.code := (congrArg State.code h.registers :)
theorem inPos : s.inPos = t.inPos := (congrArg State.inPos h.registers :)
theorem outPos : s.outPos = t.outPos := (congrArg State.outPos h.registers :)
theorem offset : s.offset = t.offset := (congrArg State.offset h.registers :)
theorem pwm : s.pwm = t.pwm := (congrArg State.pwm h.registers :)
theorem status : s.status = t.status := (congrArg State.status h.registers :)
theorem cause : s.cause = t.cause := (congrArg State.cause h.registers :)
theorem inLen : s.inLen = t.inLen := (congrArg State.inLen h.registers :)
theorem outCap : s.outCap = t.outCap := (congrArg State.outCap h.registers :)
end Fields

variable {s t : State}

theorem sameCall (h : InStep s t) : SameCall s t :=
  ⟨h.status, h.cause, fun _ => ⟨h.probs, h.code, h.inPos, h.outPos, h.offset, h.pwm, h.written⟩⟩

/-! ### Register writes -/

theorem setOffset (h : InStep s t) (o : Word) : InStep (s.setOffset o) (t.setOffset o) :=
  ⟨congrArg (State.setOffset · o) h.registers, h.input, h.wf_left, h.wf_right, h.written⟩

theorem setPwm (h : InStep s t) (b : Bool) : InStep (s.setPwm b) (t.setPwm b) :=
  ⟨congrArg (State.setPwm · b) h.registers, h.input, h.wf_left, h.wf_right, h.written⟩

theorem setStatus (h : InStep s t) (v : Status) : InStep (s.setStatus v) (t.setStatus v) :=
  ⟨congrArg (State.setStatus · v) h.registers, h.input, h.wf_left, h.wf_right, h.written⟩

/-! ### Reading decisions -/

/-- A refill takes a byte below IN_LEN, which both calls find in IN (R33, R70). -/
theorem refilled (h : InStep s t) (hl : s.inPos.toNat < s.inLen.toNat) :
    InStep (Machine.refilled s) (Machine.refilled t) := by
  have hb : s.readIn s.inPos.toNat = t.readIn t.inPos.toNat := by rw [h.input _ hl, h.inPos]
  refine ⟨?_, h.input, h.wf_left, h.wf_right, h.written⟩
  rw [Machine.refilled, Machine.refilled, hb]
  exact congrArg (fun u => refill (t.readIn t.inPos.toNat) u.bumpInPos) h.registers

end InStep

/-- A decision reads and writes registers only, once CODE is renormalised (R71). -/
theorem decide1_registers (c : Nat) (s : State) : (decide1 c s).registers = decide1 c s.registers := by
  unfold decide1 State.setProb
  split <;> rfl

theorem InStep.decide1 {s t : State} (h : InStep s t) (c : Nat) :
    InStep (Machine.decide1 c s) (Machine.decide1 c t) where
  registers := by rw [decide1_registers, decide1_registers, h.registers]
  input := by simpa [State.readIn] using h.input
  wf_left := by simpa using h.wf_left
  wf_right := by simpa using h.wf_right
  written := by simpa [State.readOut] using h.written

/-- Both loops take the same bytes and end, or both find none left (R70). -/
theorem renormalise_inStep {s t : State} (h : InStep s t) : ResInStep (renormalise s) (renormalise t) := by
  induction s using renormalise_induction generalizing t with
  | done s hc =>
    rw [renormalise_of_ge hc, renormalise_of_ge (h.code ▸ hc)]
    exact ⟨rfl, h⟩
  | dry s hc hl =>
    rw [renormalise_truncated hc hl, renormalise_truncated (h.code ▸ hc) (h.inLen ▸ h.inPos ▸ hl)]
    exact ⟨rfl, trivial⟩
  | more s hc hl ih =>
    rw [renormalise_refill hc hl, renormalise_refill (s := t) (h.code ▸ hc) (h.inLen ▸ h.inPos ▸ hl)]
    exact ih (h.refilled hl)

theorem decodeBit_inStep (c : Nat) {s t : State} (h : InStep s t) : ResInStep (decodeBit c s) (decodeBit c t) :=
  (renormalise_inStep h).andThen fun _ _ _ hu =>
    ⟨by rw [hu.code, State.getProb_congr hu.probs], hu.decide1 c⟩

theorem fetchSymbol_inStep {s t : State} (h : InStep s t) : ResInStep (fetchSymbol s) (fetchSymbol t) := by
  unfold fetchSymbol
  rw [← h.pwm]
  exact readSymbol_same (C := fun _ => True) trivial (fun _ => trivial) (fun _ _ _ => trivial) (fun _ _ => trivial)
    (fun _ _ => trivial) (fun c _ _ _ hst => decodeBit_inStep c hst) (fun _ _ _ => trivial)
    (fun o _ _ hst => hst.setOffset o) h

/-! ### Writing OUT -/

/-- A byte emitted is below the new OUT_POS, with those written before it (R34). -/
theorem InStep.putByte {s t : State} (h : InStep s t) (v : Byte) :
    InStep (Machine.putByte v s) (Machine.putByte v t) where
  registers := congrArg State.bumpOutPos h.registers
  input := h.input
  wf_left := putByte_wf h.wf_left
  wf_right := putByte_wf h.wf_right
  written := by
    intro a ha
    rw [putByte_outPos, BitVec.toNat_ofNat] at ha
    have hle : a ≤ s.outPos.toNat := by omega
    rw [putByte_readOut h.wf_left, putByte_readOut h.wf_right, ← h.outPos]
    split
    · rfl
    · exact h.written a (by omega)

/-- The copy of a match reads only bytes this call has written (R35, R112). -/
theorem copyBytes_inStep {o : Word} (ho : 1 ≤ o.toNat) (n : Nat) {s t : State} (h : InStep s t)
    (reach : o.toNat ≤ s.outPos.toNat) (room : s.outPos.toNat + n ≤ s.outCap.toNat) :
    InStep (copyBytes o n s) (copyBytes o n t) := by
  induction n generalizing s t with
  | zero => exact h
  | succ n ih =>
    have hb : s.readOut (s.outPos.toNat - o.toNat) = t.readOut (t.outPos.toNat - o.toNat) := by
      rw [h.written _ (by omega), h.outPos]
    have hpos (v : Byte) : (putByte v s).outPos.toNat = s.outPos.toNat + 1 := putByte_outPos_toNat (by omega)
    rw [copyBytes, copyBytes, hb]
    exact ih (h.putByte _) (by rw [hpos]; omega) (by rw [hpos, putByte_outCap]; omega)

/-! ### Executing a symbol -/

theorem emit_inStep (b : Byte) {s t : State} (h : InStep s t) : ResInStep (emit b s) (emit b t) := by
  by_cases room : s.outPos.toNat < s.outCap.toNat
  · rw [emit_of_lt room, emit_of_lt (h.outCap ▸ h.outPos ▸ room)]
    exact ⟨rfl, h.putByte b⟩
  · have full := Nat.not_lt.1 room
    rw [emit_of_le full, emit_of_le (h.outCap ▸ h.outPos ▸ full)]
    exact ⟨rfl, trivial⟩

theorem copyMatch_inStep (o l : Word) {s t : State} (h : InStep s t) :
    ResInStep (copyMatch o l s) (copyMatch o l t) := by
  rcases copyMatch_cases o l s with ⟨bad, e⟩ | ⟨nonzero, reach, full, e⟩ | ⟨nonzero, reach, room, e⟩
  · rw [e, copyMatch_invalid (h.outPos ▸ bad)]
    exact ⟨rfl, trivial⟩
  · rw [e, copyMatch_overflow nonzero (h.outPos ▸ reach) (h.outCap ▸ h.outPos ▸ full)]
    exact ⟨rfl, trivial⟩
  · rw [e, copyMatch_ok nonzero (h.outPos ▸ reach) (h.outCap ▸ h.outPos ▸ room)]
    exact ⟨rfl, copyBytes_inStep nonzero _ h reach room⟩

theorem matchTail_inStep (l : Word) {s t : State} (h : InStep s t) : ResInStep (matchTail l s) (matchTail l t) := by
  unfold matchTail
  rw [← h.offset]
  exact (copyMatch_inStep s.offset l h).andThen fun _ _ _ hu => ⟨rfl, hu.setPwm true⟩

theorem newMatch_inStep (o l : Word) {s t : State} (h : InStep s t) : ResInStep (newMatch o l s) (newMatch o l t) :=
  matchTail_inStep l (h.setOffset o)

/-- Both outcomes are next states, and those are alike. -/
def NextAlike (o o' : Host.Outcome State Fault Refusal) : Prop := ∃ s t, o = .next s ∧ o' = .next t ∧ Alike s t

theorem NextAlike.settle {r r' : Res State Unit} (h : ResInStep r r') :
    NextAlike (Machine.settle r) (Machine.settle r') := by
  cases r <;> cases r'
  case ok.ok => exact ⟨_, _, rfl, rfl, .inStep h.2⟩
  case raise.raise f u f' v =>
    obtain ⟨rfl, -⟩ := h
    exact ⟨_, _, rfl, rfl, .faulted f u v⟩
  all_goals exact h.elim

/-- A symbol executed in both calls, in the mode they share, has the same effect on both. -/
theorem exec_symbol_alike {i : Instr} {s t : State} (h : InStep s t) (hs : s.status = .run)
    (hm : i.existsInMode s.pwm = true) : NextAlike (exec i s) (exec i t) := by
  have ht : t.status = .run := h.status ▸ hs
  cases i <;> simp only [Instr.existsInMode, Bool.not_eq_true', Bool.false_eq_true] at hm
  case lit b =>
    simp only [exec, execLit, whileRunning_run hs, whileRunning_run ht]
    exact .settle ((emit_inStep b h).andThen fun _ _ _ hu => ⟨rfl, hu.setPwm false⟩)
  case matchnPwm0 o l =>
    simp only [exec, execMatchnPwm0, whileRunning_run hs, whileRunning_run ht, inMode_eq hm, inMode_eq (h.pwm ▸ hm)]
    exact .settle (newMatch_inStep o l h)
  case matchnPwm1 o l =>
    simp only [exec, execMatchnPwm1, whileRunning_run hs, whileRunning_run ht, inMode_eq hm, inMode_eq (h.pwm ▸ hm)]
    exact .settle (newMatch_inStep o l h)
  case matchr l =>
    simp only [exec, execMatchr, whileRunning_run hs, whileRunning_run ht, inMode_eq hm, inMode_eq (h.pwm ▸ hm)]
    exact .settle (matchTail_inStep l h)
  case endPwm0 =>
    simp only [exec, execEndPwm0, whileRunning_run hs, whileRunning_run ht, inMode_eq hm, inMode_eq (h.pwm ▸ hm)]
    exact ⟨_, _, rfl, rfl, .inStep (h.setStatus .done)⟩
  case endPwm1 =>
    simp only [exec, execEndPwm1, whileRunning_run hs, whileRunning_run ht, inMode_eq hm, inMode_eq (h.pwm ▸ hm)]
    exact ⟨_, _, rfl, rfl, .inStep (h.setStatus .done)⟩

/-! ### Steps and runs -/

theorem step_alike {s t : State} (h : InStep s t) (hs : s.status = .run) : NextAlike (step s) (step t) := by
  have ht : t.status = .run := h.status ▸ hs
  have hf := fetchSymbol_inStep h
  have hp := fetchSymbol_post s
  simp only [step, hs, ht, if_true]
  cases hi : fetchSymbol s <;> cases hj : fetchSymbol t <;> rw [hi, hj] at hf
  case ok.ok i u j v =>
    obtain ⟨rfl, huv⟩ := hf
    obtain ⟨⟨-, hm⟩, hk⟩ := hp.ok_of hi
    obtain ⟨-, hpwm, hst, -⟩ := hk.fields
    exact exec_symbol_alike huv (hst.trans hs) (by rw [hpwm]; exact hm)
  case raise.raise f u g v =>
    obtain ⟨rfl, -⟩ := hf
    exact ⟨_, _, rfl, rfl, .faulted f u v⟩
  all_goals exact hf.elim

theorem Alike.sameCall {s t : State} (h : Alike s t) : SameCall s t := by
  cases h with
  | inStep h => exact h.sameCall
  | faulted f u v => exact ⟨by simp, by simp, fun hf => absurd (takeFault_status f u) hf⟩

theorem runSymbols_alike (n : Nat) {s t : State} (h : Alike s t) : Alike (runSymbols n s) (runSymbols n t) := by
  induction n generalizing s t with
  | zero => exact h
  | succ n ih =>
    cases h with
    | faulted f u v =>
      rw [runSymbols_of_not_run _ (by simp), runSymbols_of_not_run _ (by simp)]
      exact .faulted f u v
    | inStep h =>
      by_cases hs : s.status = .run
      · obtain ⟨s', t', es, et, h'⟩ := step_alike h hs
        rw [runSymbols_succ_of_step n hs es, runSymbols_succ_of_step n (h.status ▸ hs) et]
        exact ih h'
      · rw [runSymbols_of_not_run _ hs, runSymbols_of_not_run _ (h.status ▸ hs)]
        exact .inStep h

/-- START, where it is accepted, is the start-of-call initialisation (R120). -/
theorem eq_startCall_of_exec {s s' : State} (h : exec .start s = .next s') : s' = startCall s := by
  simp only [exec, execStart] at h
  split at h
  · cases h
  · exact (Host.Outcome.next.inj h).symm

/-- START sets every register but IN_LEN and OUT_CAP, and OUT_POS to 0, so no byte of OUT is readable yet (R151). -/
theorem startCall_inStep {s t : State} (hsw : Memory.wf s.outMem = true) (htw : Memory.wf t.outMem = true)
    (hl : s.inLen = t.inLen) (hc : s.outCap = t.outCap) (hr : ∀ a, a < s.inLen.toNat → s.readIn a = t.readIn a) :
    InStep (startCall s) (startCall t) where
  registers := by simp only [State.registers, startCall, hl, hc]
  input := hr
  wf_left := hsw
  wf_right := htw
  written := fun a ha => absurd ha (Nat.not_lt_zero a)

/-- Settles O44: START puts the two calls in step, and each symbol keeps them in step or ends both in the same
fault. -/
theorem callsDependOnlyOnTheirInput : Obligations.CallsDependOnlyOnTheirInput := by
  intro n s t s' t' hsw htw hl hc hr hs ht
  rw [eq_startCall_of_exec hs, eq_startCall_of_exec ht]
  exact (runSymbols_alike n (.inStep (startCall_inStep hsw htw hl hc hr))).sameCall

end Sys2Proof.Machine
end

section
/-! PROOF. The way out of FAULT (spec 60_exceptions.md R137). Outside a run a step is a move of the host or nothing
(`step_idle_cases`); of the host's moves only START writes STATUS or CAUSE. -/

namespace Sys2Proof.Machine

/-- A write of the host reaches neither STATUS nor CAUSE (R21, R22, R26). -/
theorem hostWrite_status (w : HostWrite) (s : State) : (hostWrite w s).status = s.status := by
  cases w <;> rfl

theorem hostWrite_cause (w : HostWrite) (s : State) : (hostWrite w s).cause = s.cause := by
  cases w <;> rfl

/-- START is accepted outside a run, FAULT included (R120). -/
theorem exec_start_of_not_run {s : State} (hs : s.status ≠ .run) : exec .start s = .next (startCall s) := by
  simp [exec, execStart, hs]

/-- Settles O47: a step from FAULT does nothing, or lands a write, which leaves STATUS and CAUSE, or lands START. -/
theorem onlyStartLeavesFault : Obligations.OnlyStartLeavesFault := by
  intro s t hf h
  have hs : s.status ≠ .run := by simp [hf]
  rcases step_idle_cases hs h with ⟨-, rfl⟩ | ⟨q, hq, rfl⟩ | ⟨w, q, -, rfl⟩
  · exact .inl ⟨hf, rfl⟩
  · exact .inr ⟨q, hq, startCall_status _, startCall_cause _, exec_start_of_not_run (s := s.setHostQ q) hs⟩
  · exact .inl ⟨(hostWrite_status w _).trans hf, hostWrite_cause w _⟩

end Sys2Proof.Machine
end

section
/-! PROOF. What START leaves (spec 70_reset_and_hazards.md R151). -/

namespace Sys2Proof.Machine

/-- Settles O5: START is accepted outside a run and answers the start-of-call state, which differs from `s` only in
the fields that `startCall` writes. -/
theorem startInitialisesTheCall : Obligations.StartInitialisesTheCall := by
  intro s hs
  refine ⟨startCall s, exec_start_of_not_run hs, ?probs, ?frame⟩
  case probs => exact fun _ hi => startCall_getProb s hi
  case frame => rfl

end Sys2Proof.Machine
end

section
/-! PROOF. A symbol and its decision string (spec 30_encoding.md R52 to R59, R63). A source that goes through the
string of a symbol reads that symbol, and a source that reads a symbol has gone through its string; both are shown
over any source and used with the two there are, a string of bits and the machine's predictor. -/

namespace Sys2Proof

open Machine

variable {σ : Type}

/-! ### Over any source -/

/-- Where a source stands after a symbol's decisions: it has been told the new offset of a MATCHN (R98). -/
def Source.afterSymbol (src : Source σ) (i : Instr) (t : σ) : σ :=
  match i with
  | .matchnPwm0 o _ => src.newOffset o t
  | .matchnPwm1 o _ => src.newOffset o t
  | _ => t

theorem afterSymbol_machineSource (i : Instr) (t : State) : machineSource.afterSymbol i t = afterFetch i t := by
  cases i <;> rfl

theorem afterSymbol_stringSource (i : Instr) (t : DecString) : stringSource.afterSymbol i t = t := by
  cases i <;> rfl

/-- A source whose decisions do not depend on the offset told reads a symbol where it goes through its string
(R52). -/
theorem readSymbol_of_follow {src : Source σ} {cfg : Config} {pwm : Bool} {i : Instr} {ds : List Decision} {s t : σ}
    (hcomm : ∀ o ds s t, src.follow ds s = some t → src.follow ds (src.newOffset o s) = some (src.newOffset o t))
    (hw : i.wf = true) (hm : i.existsInMode pwm = true) (he : encodeSymbol cfg i = some ds)
    (h : src.follow ds s = some t) : readSymbol cfg src pwm s = .ok i (src.afterSymbol i t) := by
  cases i <;> simp only [Instr.existsInMode, Bool.not_eq_true', Bool.false_eq_true] at hm <;>
    simp only [encodeSymbol, Option.some.injEq] at he <;> subst he <;> obtain ⟨u, hsel, h⟩ := follow_cons.1 h
  case lit b =>
    simp [readSymbol, hsel, readLiteral_of_follow h, Source.afterSymbol]
  case matchnPwm0 o l =>
    subst hm
    obtain ⟨v, hnew, h⟩ := follow_cons.1 h
    simp only [Instr.wf, Bool.and_eq_true] at hw
    simp [readSymbol, readMatch, hsel, hnew, readNewOffset_of_follow hw.1 hw.2 hcomm h, Source.afterSymbol]
  case matchnPwm1 o l =>
    subst hm
    simp only [Instr.wf, Bool.and_eq_true] at hw
    simp [readSymbol, readMatch, hsel, readNewOffset_of_follow hw.1 hw.2 hcomm h, Source.afterSymbol]
  case matchr l =>
    subst hm
    obtain ⟨v, hnew, h⟩ := follow_cons.1 h
    simp [readSymbol, readMatch, hsel, hnew, readLength_of_follow hw h, Source.afterSymbol]
  case endPwm0 =>
    subst hm
    obtain ⟨v, hnew, h⟩ := follow_cons.1 h
    simp [readSymbol, readMatch, hsel, hnew, readNewOffset_of_follow_end h, Source.afterSymbol]
  case endPwm1 =>
    subst hm
    simp [readSymbol, readMatch, hsel, readNewOffset_of_follow_end h, Source.afterSymbol]

theorem follow_of_readLength {src : Source σ} {cfg : Config} {l : Word} {s t : σ} (h : readLength cfg src s = .ok l t) :
    src.follow (encodeUint cfg.order cfg.ctxLen l.toNat) s = some t := by
  obtain ⟨v, u, hv, e⟩ := Res.andThen_eq_ok.1 h
  obtain ⟨rfl, rfl⟩ := Res.ok.inj e
  obtain ⟨-, hlt, hf⟩ := follow_of_readUint hv
  rwa [lengthOfValue, BitVec.toNat_ofNat, Nat.mod_eq_of_lt hlt]

section Deaf

/-! A source deaf to offsets, as a string of bits is: what it reads is what it has gone through. -/

variable {src : Source σ} {cfg : Config} (hdeaf : ∀ o s, src.newOffset o s = s)
include hdeaf

/-- NEW_OFFSET has gone through the string of END or of a MATCHN, after its selectors (R98, R99). -/
theorem follow_of_readNewOffset {pwm : Bool} {i : Instr} {s t : σ} (h : readNewOffset cfg src pwm s = .ok i t) :
    (i = (if pwm then .endPwm1 else .endPwm0) ∧
      src.follow (encodeUint cfg.order cfg.ctxOff Config.endValue) s = some t) ∨
    ∃ o l, i = (if pwm then .matchnPwm1 o l else .matchnPwm0 o l) ∧
      src.follow (encodeUint cfg.order cfg.ctxOff (o.toNat + 1) ++ encodeUint cfg.order cfg.ctxLen l.toNat) s =
        some t := by
  obtain ⟨v, u, hv, h⟩ := Res.andThen_eq_ok.1 h
  obtain ⟨hpos, hlt, hf⟩ := follow_of_readUint hv
  split at h
  next hend =>
    obtain ⟨rfl, rfl⟩ := Res.ok.inj h
    exact .inl ⟨rfl, hend ▸ hf⟩
  next =>
    rw [hdeaf] at h
    obtain ⟨l, w, hl, h⟩ := Res.andThen_eq_ok.1 h
    obtain ⟨rfl, rfl⟩ := Res.ok.inj h
    have hoff : (offsetOfValue v).toNat + 1 = v := by
      rw [offsetOfValue, BitVec.toNat_ofNat]; omega
    exact .inr ⟨_, l, rfl, follow_append.2 ⟨u, by rwa [hoff], follow_of_readLength hl⟩⟩

/-- A source deaf to offsets that reads a symbol has gone through that symbol's string (R52, R59). -/
theorem follow_of_readSymbol {pwm : Bool} {i : Instr} {s t : σ} (h : readSymbol cfg src pwm s = .ok i t) :
    ∃ ds, encodeSymbol cfg i = some ds ∧ src.follow ds s = some t := by
  obtain ⟨sel, u, hsel, h⟩ := Res.andThen_eq_ok.1 h
  cases sel
  case false =>
    obtain ⟨b, v, hb, h⟩ := Res.andThen_eq_ok.1 h
    obtain ⟨rfl, rfl⟩ := Res.ok.inj h
    exact ⟨_, rfl, follow_cons.2 ⟨u, hsel, follow_of_readLiteral hb⟩⟩
  case true =>
    rw [if_pos rfl] at h
    cases pwm
    case true =>
      rcases follow_of_readNewOffset hdeaf h with ⟨rfl, hf⟩ | ⟨o, l, rfl, hf⟩
      · exact ⟨_, rfl, follow_cons.2 ⟨u, hsel, hf⟩⟩
      · exact ⟨_, rfl, follow_cons.2 ⟨u, hsel, hf⟩⟩
    case false =>
      obtain ⟨new, v, hnew, h⟩ := Res.andThen_eq_ok.1 h
      cases new
      case false =>
        obtain ⟨l, w, hl, h⟩ := Res.andThen_eq_ok.1 h
        obtain ⟨rfl, rfl⟩ := Res.ok.inj h
        exact ⟨_, rfl, follow_cons.2 ⟨u, hsel, follow_cons.2 ⟨v, hnew, follow_of_readLength hl⟩⟩⟩
      case true =>
        rcases follow_of_readNewOffset hdeaf h with ⟨rfl, hf⟩ | ⟨o, l, rfl, hf⟩
        · exact ⟨_, rfl, follow_cons.2 ⟨u, hsel, follow_cons.2 ⟨v, hnew, hf⟩⟩⟩
        · exact ⟨_, rfl, follow_cons.2 ⟨u, hsel, follow_cons.2 ⟨v, hnew, hf⟩⟩⟩

end Deaf

/-! ### A string of bits -/

/-- A string goes through decisions exactly when it begins with their bits, and records them. -/
theorem follow_stringSource {ds : List Decision} {s t : DecString} :
    stringSource.follow ds s = some t ↔ s.left = ds.map Prod.snd ++ t.left ∧ t.made = s.made ++ ds := by
  induction ds generalizing s with
  | nil =>
    cases s; cases t
    simp [Source.follow, eq_comm]
  | cons d ds ih =>
    obtain ⟨c, b⟩ := d
    obtain ⟨left, made⟩ := s
    rw [follow_cons]
    cases left with
    | nil => simp [stringSource]
    | cons b' r =>
      simp only [stringSource, Res.ok.injEq, List.map_cons, List.cons_append, List.cons.injEq]
      constructor
      · rintro ⟨u, ⟨rfl, rfl⟩, h⟩
        simpa using ih.1 h
      · rintro ⟨⟨rfl, hl⟩, hm⟩
        exact ⟨_, ⟨rfl, rfl⟩, ih.2 ⟨hl, by simpa using hm⟩⟩

/-- Settles O30: the string source goes through the symbol's decisions and stands at the rest. -/
theorem decodeOfEncode : Obligations.DecodeOfEncode := by
  intro cfg i pwm ds rest hw hm he
  have hf : stringSource.follow ds ⟨ds.map Prod.snd ++ rest, []⟩ = some ⟨rest, ds⟩ :=
    follow_stringSource.2 ⟨rfl, rfl⟩
  have h := readSymbol_of_follow (src := stringSource) (fun _ _ _ _ h => h) hw hm he hf
  rwa [afterSymbol_stringSource] at h

/-- Settles O31: the string source has gone through the symbol's decisions; what the grammar reads is well formed
and exists in the mode over any source. -/
theorem encodeOfDecode : Obligations.EncodeOfDecode := by
  intro cfg pwm bits i st h
  have hpost := readSymbol_post (cfg := cfg) (src := stringSource) (pwm := pwm) (s := ⟨bits, []⟩)
    (C := fun _ => True) (I := fun _ => True) (E := fun _ _ => True) trivial (fun _ => trivial) (fun _ _ _ => trivial)
    (fun _ _ => trivial) (fun _ _ => trivial) (fun c s _ _ => by cases stringSource.bit c s <;> trivial)
    (fun _ _ _ _ => trivial) (fun _ _ => trivial) trivial
  obtain ⟨⟨hw, hm⟩, -⟩ := hpost.ok_of h
  obtain ⟨ds, he, hf⟩ := follow_of_readSymbol (src := stringSource) (fun _ _ => rfl) h
  obtain ⟨hl, hmade⟩ := follow_stringSource.1 hf
  rw [show st.made = ds by simpa using hmade]
  exact ⟨hw, hm, he, hl⟩

/-! ### The machine -/

namespace Machine

theorem step_of_fetch_ok {s t : State} {i : Instr} (hs : s.status = .run) (h : fetchSymbol s = .ok i t) :
    step s = exec i t := by
  simp [step, hs, h]

theorem step_of_fetch_raise {s t : State} {f : FaultName} (hs : s.status = .run) (h : fetchSymbol s = .raise f t) :
    step s = .next (takeFault f t) := by
  simp [step, hs, h]

/-- Settles O28: both halves are the two arms of `step` in RUN. -/
theorem stepRunsTheFetchedSymbol : Obligations.StepRunsTheFetchedSymbol :=
  fun _ hs => ⟨fun _ _ => step_of_fetch_ok hs, fun _ _ => step_of_fetch_raise hs⟩

theorem fetchSymbol_of_follow {s t : State} {i : Instr} {ds : List Decision} (hw : i.wf = true)
    (hm : i.existsInMode s.pwm = true) (he : encode i = some ds) (h : follow ds s = some t) :
    fetchSymbol s = .ok i (afterFetch i t) := by
  rw [← follow_machine] at h
  rw [← afterSymbol_machineSource]
  exact readSymbol_of_follow follow_newOffset_machine hw hm he h

/-- Settles O29: the predictor goes through the symbol's decisions, whatever OFFSET holds, so the fetch gives it. -/
theorem streamRunsTheEncodedSymbol : Obligations.StreamRunsTheEncodedSymbol := by
  intro s t i ds hs hw hm he h
  have hfetch := fetchSymbol_of_follow hw hm he h
  exact ⟨hfetch, step_of_fetch_ok hs hfetch⟩

end Machine

/-! ### How many decisions -/

theorem length_uintPairs (order : BitOrder) (base v n k i : Nat) :
    (uintPairs order base v n k i).length = 2 * k := by
  induction k generalizing i with
  | zero => rfl
  | succ k ih => simp only [uintPairs, List.length_cons, ih]; omega

theorem length_encodeUint (order : BitOrder) (base v : Nat) :
    (encodeUint order base v).length = 2 * Nat.log2 v + 1 := by
  simp [encodeUint, length_uintPairs]

theorem length_encodeLiteral (cfg : Config) (b : Byte) : (encodeLiteral cfg b).length = 8 := by
  simp [encodeLiteral, Config.litDepth]

/-- Settles O32: each string is its selectors and its integers or byte, whose lengths are known. -/
theorem decisionCounts : Obligations.DecisionCounts := by
  have hend : Nat.log2 Config.endValue = 0 := by decide
  refine ⟨length_encodeUint, fun b ds he => ?lit, fun o l ds he => ?matchn0, fun o l ds he => ?matchn1,
    fun l ds he => ?matchr, fun ds he => ?end0, fun ds he => ?end1, fun v => ⟨by rintro rfl; decide, fun h1 h2 => ?top⟩⟩
  case top => rw [log2_of_range (n := 31) h1 h2]
  all_goals
    simp only [encode, encodeSymbol, Option.some.injEq] at he
    subst he
    simp only [List.length_cons, List.length_append, length_encodeUint, length_encodeLiteral, hend] <;> omega

end Sys2Proof
end

section
/-! PROOF. Going through decisions on the machine: what it keeps, and that it reads the predictor and IN only, so
that a stream of literals goes through their strings one after another (spec 10_state.md R26, 42_literal_tree.md,
43_symbol_grammar.md R96, R99). -/

namespace Sys2Proof.Machine

/-! ### What going through decisions keeps -/

theorem follow_cons_machine {c : Nat} {b : Bool} {ds : List Decision} {s t : State} :
    follow ((c, b) :: ds) s = some t ↔ ∃ u, decodeBit c s = .ok b u ∧ follow ds u = some t := by
  simp only [← follow_machine]
  exact follow_cons

theorem follow_append_machine {ds es : List Decision} {s t : State} :
    follow (ds ++ es) s = some t ↔ ∃ u, follow ds s = some u ∧ follow es u = some t := by
  simp only [← follow_machine]
  exact follow_append

theorem follow_keeps (C : Nat → Prop) {ds : List Decision} {s t : State} (hC : ∀ d ∈ ds, C d.1)
    (h : follow ds s = some t) : ReadKeeps C s t := by
  induction ds generalizing s with
  | nil => obtain rfl := Option.some.inj h; exact .refl C _
  | cons d ds ih =>
    obtain ⟨c, b⟩ := d
    obtain ⟨u, hb, h⟩ := follow_cons_machine.1 h
    have hu := (decodeBit_keeps c s C (hC _ List.mem_cons_self)).ok_of hb
    exact hu.trans (ih (fun d hd => hC d (List.mem_cons_of_mem _ hd)) h)

theorem follow_onlyPredictor {ds : List Decision} {s t : State} (h : follow ds s = some t) : OnlyPredictor s t :=
  (follow_keeps (fun _ => True) (fun _ _ => trivial) h).only

/-! ### END -/

/-- Settles O26: END's string at the two modes is written out; the step runs END where its decisions end. -/
theorem endFinishesTheRun : Obligations.EndFinishesTheRun := by
  have run : ∀ s : State, s.status = .run →
      (s.pwm = false → exec .endPwm0 s = .next { s with status := .done }) ∧
      (s.pwm = true → exec .endPwm1 s = .next { s with status := .done }) := by
    intro s hs
    refine ⟨fun hp => ?_, fun hp => ?_⟩
    · exact (Completes.ended (s := s) _ (.inl rfl)).exec_eq hs (by rw [hp]; rfl)
    · exact (Completes.ended (s := s) _ (.inr rfl)).exec_eq hs (by rw [hp]; rfl)
  refine ⟨run, fun s t hs => ⟨fun hp h => ?_, fun hp h => ?_⟩⟩
  all_goals
    obtain ⟨-, -, hpwm, hst, -⟩ := (follow_onlyPredictor h).fields
    have ht := run t (hst.trans hs)
  · have hstep := (streamRunsTheEncodedSymbol s t .endPwm0 _ hs rfl (by rw [hp]; rfl) rfl h).2
    exact hstep.trans (ht.1 (hpwm.trans hp))
  · have hstep := (streamRunsTheEncodedSymbol s t .endPwm1 _ hs rfl (by rw [hp]; rfl) rfl h).2
    exact hstep.trans (ht.2 (hpwm.trans hp))

/-- Settles O27: `inMode` stops the forms of the other mode; what the fetch gives exists in the mode. -/
theorem formsExistOnlyInTheirMode : Obligations.FormsExistOnlyInTheirMode := by
  refine ⟨fun s o l hs => ⟨fun hp => ?_, fun hp => ?_⟩, fun s i t h => ((fetchSymbol_post s).ok_of h).1.2⟩
  · have hne : s.pwm ≠ false := by simp [hp]
    simp [exec, execMatchnPwm0, execMatchr, execEndPwm0, whileRunning_run hs, inMode_ne hne]
  · have hne : s.pwm ≠ true := by simp [hp]
    simp [exec, execMatchnPwm1, execEndPwm1, whileRunning_run hs, inMode_ne hne]

/-! ### Decisions read the predictor and IN only -/

/-- The two states agree on all that a decision reads: PROBS, CODE, IN_POS, IN_LEN and IN (R26). -/
structure SamePredictor (s t : State) : Prop where
  probs : s.probs = t.probs
  code : s.code = t.code
  inPos : s.inPos = t.inPos
  inLen : s.inLen = t.inLen
  inMem : s.inMem = t.inMem

/-- Both give the same value, or raise the same fault, and go on to agree on what a decision reads. -/
abbrev SameReading {α : Type} : Res State α → Res State α → Prop := Res.Same SamePredictor SamePredictor

theorem SamePredictor.refilled {s t : State} (h : SamePredictor s t) :
    SamePredictor (Machine.refilled s) (Machine.refilled t) where
  probs := h.probs
  code := by simp [Machine.refilled, refill, State.readIn, h.inMem, h.inPos, h.code]
  inPos := by simp [Machine.refilled, h.inPos]
  inLen := h.inLen
  inMem := h.inMem

theorem SamePredictor.decide1 {s t : State} (h : SamePredictor s t) (c : Nat) :
    SamePredictor (Machine.decide1 c s) (Machine.decide1 c t) where
  probs := State.probs_ext fun i _ => by
    simp only [decide1_getProb, State.getProb_congr h.probs, h.code]
  code := by simp only [decide1_code, State.getProb_congr h.probs, h.code]
  inPos := by simpa using h.inPos
  inLen := by simpa using h.inLen
  inMem := by simpa using h.inMem

theorem SamePredictor.trans {s t u : State} (h : SamePredictor s t) (h' : SamePredictor t u) : SamePredictor s u :=
  ⟨h.probs.trans h'.probs, h.code.trans h'.code, h.inPos.trans h'.inPos, h.inLen.trans h'.inLen,
    h.inMem.trans h'.inMem⟩

theorem renormalise_same {s t : State} (h : SamePredictor s t) : SameReading (renormalise s) (renormalise t) := by
  induction s using renormalise_induction generalizing t with
  | done s hc =>
    rw [renormalise_of_ge hc, renormalise_of_ge (h.code ▸ hc)]
    exact ⟨rfl, h⟩
  | dry s hc hl =>
    rw [renormalise_truncated hc hl, renormalise_truncated (h.code ▸ hc) (h.inLen ▸ h.inPos ▸ hl)]
    exact ⟨rfl, h⟩
  | more s hc hl ih =>
    rw [renormalise_refill hc hl, renormalise_refill (s := t) (h.code ▸ hc) (h.inLen ▸ h.inPos ▸ hl)]
    exact ih h.refilled

theorem decodeBit_same (c : Nat) {s t : State} (h : SamePredictor s t) :
    SameReading (decodeBit c s) (decodeBit c t) :=
  (renormalise_same h).andThen fun _ _ _ hu =>
    ⟨by rw [hu.code, State.getProb_congr hu.probs], hu.decide1 c⟩

/-- The same decisions can be gone through, to states that agree again. -/
theorem follow_same {ds : List Decision} {s s' t : State} (hp : SamePredictor s s') (h : follow ds s = some t) :
    ∃ t', follow ds s' = some t' ∧ SamePredictor t t' := by
  induction ds generalizing s s' with
  | nil => obtain rfl := Option.some.inj h; exact ⟨s', rfl, hp⟩
  | cons d ds ih =>
    obtain ⟨c, b⟩ := d
    obtain ⟨u, hb, h⟩ := follow_cons_machine.1 h
    have hsame := decodeBit_same c hp
    rw [hb] at hsame
    cases hb' : decodeBit c s' with
    | raise f u' => rw [hb'] at hsame; exact hsame.elim
    | ok b' u' =>
      rw [hb'] at hsame
      obtain ⟨rfl, hu⟩ := hsame
      obtain ⟨t', h', ht⟩ := ih hu h
      exact ⟨t', follow_cons_machine.2 ⟨u', hb', h'⟩, ht⟩

/-! ### Literals -/

/-- What literals leave: the predictor as their decisions left it, and their bytes after those written before. -/
structure EmittedFrom (s t : State) (bs : List Byte) (u : State) : Prop where
  status : u.status = .run
  predictor : SamePredictor t u
  offset : u.offset = s.offset
  outCap : u.outCap = s.outCap
  wf : Memory.wf u.outMem = true
  outPos : u.outPos.toNat = s.outPos.toNat + bs.length
  others : ∀ a, a < s.outPos.toNat ∨ s.outPos.toNat + bs.length ≤ a → u.readOut a = s.readOut a
  bytes : ∀ i, i < bs.length → bs[i]? = some (u.readOut (s.outPos.toNat + i))

/-- One literal of the stream: the step writes its byte where its decisions end (R96). -/
theorem step_of_follow_literal {s t : State} {b : Byte} (hs : s.status = .run) (hw : Memory.wf s.outMem = true)
    (room : s.outPos.toNat < s.outCap.toNat) (h : follow ((0, false) :: encodeLiteral Config.upkr b) s = some t) :
    ∃ u, step s = .next u ∧ EmittedFrom s t [b] u := by
  obtain ⟨hpos, hoff, -, hst, -, -, hcap, -, hmem, -⟩ := (follow_onlyPredictor h).fields
  have hroom : t.outPos.toNat < t.outCap.toNat := by rwa [hpos, hcap]
  have hstep := (streamRunsTheEncodedSymbol s t (.lit b) _ hs rfl rfl rfl h).2
  have hread (a : Nat) : (clearPwm (putByte b t)).readOut a = if a = s.outPos.toNat then b else s.readOut a := by
    rw [← hpos, show s.readOut a = t.readOut a by rw [State.readOut, State.readOut, hmem]]
    exact putByte_readOut (hmem ▸ hw) a
  refine ⟨clearPwm (putByte b t), hstep.trans ((Completes.lit b hroom).exec_eq (hst.trans hs) rfl), ?_⟩
  refine ⟨hst.trans hs, ⟨rfl, rfl, rfl, rfl, rfl⟩, hoff, hcap, putByte_wf (hmem ▸ hw), ?_, fun a ha => ?_,
    fun i hi => ?_⟩
  · rw [← hpos]; exact putByte_outPos_toNat hroom
  · rw [List.length_singleton] at ha
    rw [hread, if_neg (by omega)]
  · obtain rfl : i = 0 := by simpa using hi
    rw [hread, if_pos (Nat.add_zero _)]; rfl

/-- The bytes of one string of literals after those of another. -/
theorem EmittedFrom.trans {s t u v w : State} {bs cs : List Byte} (h : EmittedFrom s t bs u)
    (h' : EmittedFrom u v cs w) {t' : State} (ht : SamePredictor t' v) : EmittedFrom s t' (bs ++ cs) w := by
  have hpos := h.outPos
  have hpos' := h'.outPos
  refine ⟨h'.status, ht.trans h'.predictor, h'.offset.trans h.offset, h'.outCap.trans h.outCap, h'.wf, ?_,
    fun a ha => ?_, fun i hi => ?_⟩
  · rw [List.length_append]; omega
  · rw [List.length_append] at ha
    rw [h'.others a (by omega), h.others a (by omega)]
  · rw [List.length_append] at hi
    by_cases hlt : i < bs.length
    · rw [List.getElem?_append_left hlt, h.bytes i hlt, h'.others _ (by omega)]
    · obtain ⟨j, rfl⟩ := Nat.exists_eq_add_of_le (Nat.not_lt.1 hlt)
      rw [List.getElem?_append_right (by omega), Nat.add_sub_cancel_left, h'.bytes j (by omega), hpos, Nat.add_assoc]

/-- A run of literals, by induction on them: the step of the first leaves a state that agrees with the one where its
decisions end on all that the decisions of the others read. -/
theorem runSymbols_literals (bs : List Byte) {s t : State} (hs : s.status = .run) (hw : Memory.wf s.outMem = true)
    (room : s.outPos.toNat + bs.length ≤ s.outCap.toNat)
    (h : follow (bs.flatMap fun b => (0, false) :: encodeLiteral Config.upkr b) s = some t) :
    EmittedFrom s t bs (runSymbols bs.length s) := by
  induction bs generalizing s t with
  | nil =>
    obtain rfl := Option.some.inj h
    exact ⟨hs, ⟨rfl, rfl, rfl, rfl, rfl⟩, rfl, rfl, hw, rfl, fun _ _ => rfl,
      fun i hi => absurd hi (Nat.not_lt_zero i)⟩
  | cons b bs ih =>
    rw [List.length_cons] at room ⊢
    rw [List.flatMap_cons] at h
    obtain ⟨u, hfirst, hrest⟩ := follow_append_machine.1 h
    obtain ⟨v, hstep, hv⟩ := step_of_follow_literal hs hw (by omega) hfirst
    obtain ⟨w, hrest, hsame⟩ := follow_same hv.predictor hrest
    have hpos : v.outPos.toNat = s.outPos.toNat + 1 := hv.outPos
    rw [runSymbols_succ_of_step _ hs hstep]
    exact hv.trans (ih hv.status hv.wf (by rw [hpos, hv.outCap]; omega) hrest) hsame

/-- Settles O33: `runSymbols_literals`, clause by clause. -/
theorem literalPurity : Obligations.LiteralPurity := by
  intro bs s t hs hw room h
  obtain ⟨hst, hpred, hoff, -, -, hpos, hother, hbytes⟩ := runSymbols_literals bs hs hw room h
  exact ⟨_, rfl, hst, hpred.probs.symm, hpred.code.symm, hpred.inPos.symm, hoff, hpos, hother, hbytes⟩

end Sys2Proof.Machine
end

section
/-! PROOF. What a step, and an instruction executed on its own, can do to the state of a run, and what follows for
every run: the invariant, the bounds of the output and the bound on the number of symbols (spec 10_state.md R12 to R18,
43_symbol_grammar.md R103, 60_exceptions.md R132, R138). -/

namespace Sys2Proof.Machine

/-! ### All that an instruction executed on its own can do -/

theorem OnlyPredictor.setOffset_self {s t : State} (h : OnlyPredictor s t) :
    OnlyPredictor s (t.setOffset s.offset) := by
  obtain ⟨-, hoff, -⟩ := h.fields
  rw [← hoff]
  exact h

/-- What an instruction executed on its own during a run leaves, where it answers a next state. -/
inductive RunsTo (s : State) (i : Instr) (t : State) : Prop
  | symbol (h : Completes s i t)
  | decoded (C : Nat → Prop) (v : Word) (u : State) (h : ReadKeeps C s u) (ht : t = u.setRet v)
  | copied (o l : Word) (nonzero : 1 ≤ o.toNat) (reach : o.toNat ≤ s.outPos.toNat)
      (room : s.outPos.toNat + l.toNat ≤ s.outCap.toNat) (ht : t = copyBytes o l.toNat s)
  | faulted (f : FaultName) (u : State) (h : OnlyPredictor s (u.setOffset s.offset)) (ht : t = takeFault f u)

/-- A micro-operation that decodes ends in a reading and its value in RET, or in a fault its reading raised. -/
theorem RunsTo.of_settleValue {C : Nat → Prop} {P : Nat → State → Prop} {i : Instr} {s t : State}
    {r : Res State Nat}
    (hr : r.Post (fun v u => P v u ∧ ReadKeeps C s u) (fun f u => OnlyPredictor s u ∧ RaisedAt f u))
    (h : settleValue r = .next t) : RunsTo s i t := by
  cases r with
  | ok v u => exact .decoded C _ u hr.2 (Host.Outcome.next.inj h).symm
  | raise f u => exact .faulted f u hr.1.setOffset_self (Host.Outcome.next.inj h).symm

theorem RunsTo.of_symbol {i : Instr} {s t : State} (hs : s.status = .run) (hm : i.existsInMode s.pwm = true)
    (h : exec i s = .next t) : RunsTo s i t := by
  rcases exec_symbol_cases hs hm h with hc | ⟨f, u, hu, ht⟩
  · exact .symbol hc
  · refine .faulted f u ?_ ht
    rcases hu with rfl | ⟨o, rfl⟩ <;> exact .refl _

/-- DECODE_BIT as a micro-operation: its value is 0 or 1 (R71). -/
theorem decodeBit_value_post (c : Nat) (s : State) :
    ((decodeBit c s).andThen fun b u => .ok b.toNat u).Post (fun v u => v ≤ 1 ∧ ReadKeeps (· = c) s u)
      (fun f u => OnlyPredictor s u ∧ f = .truncatedInput ∧ u.code.toNat < 4096 ∧ u.inLen.toNat ≤ u.inPos.toNat) :=
  ((decodeBit_keeps c s (· = c) rfl).mono (fun _ _ h => h) fun _ _ ⟨hf, hp, hr⟩ => ⟨hp, hf, hr⟩).andThen
    fun b _ hk => ⟨Bool.toNat_le b, hk⟩

/-- DECODE_LITERAL as a micro-operation: its value is a byte (R90). -/
theorem decodeLiteral_value_post (s : State) :
    ((decodeLiteral s).andThen fun b u => .ok b.toNat u).Post
      (fun v u => v < 256 ∧ ReadKeeps (fun i => 1 ≤ i ∧ i ≤ 255) s u)
      (fun f u => OnlyPredictor s u ∧ RaisedAt f u) :=
  (decodeLiteral_post s).andThen fun b _ hk => ⟨b.isLt, hk⟩

/-- A form of the stream executed in the mode in which it does not exist stops the machine (log 11). -/
theorem exec_absent {i : Instr} {s : State} (hs : s.status = .run) (hm : i.existsInMode s.pwm ≠ true)
    (hsym : encode i ≠ none) : exec i s = .fault .formAbsentInMode := by
  cases i <;> simp only [Instr.existsInMode, Bool.not_eq_true', ne_eq, not_true] at hm
  case matchnPwm0 => simp [exec, execMatchnPwm0, whileRunning_run hs, inMode_ne hm]
  case matchnPwm1 => simp [exec, execMatchnPwm1, whileRunning_run hs, inMode_ne hm]
  case matchr => simp [exec, execMatchr, whileRunning_run hs, inMode_ne hm]
  case endPwm0 => simp [exec, execEndPwm0, whileRunning_run hs, inMode_ne hm]
  case endPwm1 => simp [exec, execEndPwm1, whileRunning_run hs, inMode_ne hm]
  all_goals exact absurd rfl hsym

/-- All that an instruction executed on its own during a run can do (R26). -/
theorem exec_run_cases {i : Instr} {s t : State} (hs : s.status = .run) (h : exec i s = .next t) : RunsTo s i t := by
  by_cases hm : i.existsInMode s.pwm = true
  · exact .of_symbol hs hm h
  · cases i
    case decodeBit c =>
      simp only [exec, execDecodeBit, whileRunning_run hs] at h
      exact .of_settleValue ((decodeBit_value_post c s).mono (fun _ _ h => h)
        fun _ _ ⟨hp, hf, hr⟩ => ⟨hp, .inl ⟨hf, hr⟩⟩) h
    case decodeUint b =>
      simp only [exec, execDecodeUint, whileRunning_run hs] at h
      exact .of_settleValue (decodeUint_post b s) h
    case decodeLiteral =>
      simp only [exec, execDecodeLiteral, whileRunning_run hs] at h
      exact .of_settleValue (decodeLiteral_value_post s) h
    case copyMatch o l =>
      simp only [exec, execCopyMatch, whileRunning_run hs] at h
      rcases copyMatch_cases o l s with ⟨-, e⟩ | ⟨-, -, -, e⟩ | ⟨h1, h2, h3, e⟩ <;> rw [e] at h
      · exact .faulted _ s (.refl s) (Host.Outcome.next.inj h).symm
      · exact .faulted _ s (.refl s) (Host.Outcome.next.inj h).symm
      · exact .copied o l h1 h2 h3 (Host.Outcome.next.inj h).symm
    case start =>
      simp [exec, execStart, hs] at h
    all_goals
      rw [exec_absent hs hm (by simp [encode, encodeSymbol])] at h
      cases h

/-! ### The output -/

/-- What a state after `s` has written: bytes of OUT from OUT_POS on and below OUT_CAP only, with OUT_POS moved past
them (R18, R132). -/
structure OutputGrows (s t : State) : Prop where
  wf : Memory.wf t.outMem = true
  forward : s.outPos.toNat ≤ t.outPos.toNat
  within : s.outPos.toNat ≤ s.outCap.toNat → t.outPos.toNat ≤ s.outCap.toNat
  others : ∀ a, a < s.outPos.toNat ∨ s.outCap.toNat ≤ a → t.readOut a = s.readOut a

theorem OutputGrows.of_eq {s t : State} (hw : Memory.wf s.outMem = true) (hpos : t.outPos = s.outPos)
    (hmem : t.outMem = s.outMem) : OutputGrows s t :=
  ⟨hmem ▸ hw, by rw [hpos], fun h => by rwa [hpos], fun a _ => by rw [State.readOut, State.readOut, hmem]⟩

theorem OutputGrows.trans {s t u : State} (h : OutputGrows s t) (hcap : t.outCap = s.outCap) (h' : OutputGrows t u) :
    OutputGrows s u := by
  have hf := h.forward
  refine ⟨h'.wf, hf.trans h'.forward, fun hle => hcap ▸ h'.within (hcap ▸ h.within hle), fun a ha => ?_⟩
  rw [h'.others a (by rw [hcap]; omega), h.others a ha]

/-- The bytes a copy writes lie below OUT_CAP (R111, R112). -/
theorem copyBytes_output {o l : Word} {s : State} (hw : Memory.wf s.outMem = true) (nonzero : 1 ≤ o.toNat)
    (reach : o.toNat ≤ s.outPos.toNat) (room : s.outPos.toNat + l.toNat ≤ s.outCap.toNat) :
    OutputGrows s (copyBytes o l.toNat s) := by
  obtain ⟨hpos, hwf, hothers, -⟩ := copyBytes_spec nonzero l.toNat s reach room hw
  exact ⟨hwf, by omega, fun _ => by omega, fun a ha => hothers a (by omega)⟩

theorem putByte_output {b : Byte} {s : State} (hw : Memory.wf s.outMem = true)
    (room : s.outPos.toNat < s.outCap.toNat) : OutputGrows s (putByte b s) := by
  have hpos := putByte_outPos_toNat (v := b) room
  refine ⟨putByte_wf hw, by omega, fun _ => by omega, fun a ha => ?_⟩
  rw [putByte_readOut hw, if_neg (by omega)]

theorem Completes.output {s t : State} {i : Instr} (hw : Memory.wf s.outMem = true) (h : Completes s i t) :
    OutputGrows s t := by
  cases h with
  | lit b room => exact (putByte_output hw room).trans rfl (.of_eq (putByte_wf hw) rfl rfl)
  | copied i o l form nonzero reach room =>
    have hc := copyBytes_output (s := s.setOffset o) hw nonzero reach room
    exact ⟨hc.wf, hc.forward, hc.within, hc.others⟩
  | ended i form => exact .of_eq hw rfl rfl

/-- Nothing of the buffers outside OUT below OUT_CAP has changed (R132, R138). -/
def OutsideKept (s t : State) : Prop :=
  t.inMem = s.inMem ∧ t.inLen = s.inLen ∧ t.outCap = s.outCap ∧
    ∀ a, s.outCap.toNat ≤ a → t.readOut a = s.readOut a

theorem OutsideKept.takeFault {f : FaultName} {s u : State} (hw : Memory.wf s.outMem = true)
    (h : OnlyPredictor s (u.setOffset s.offset)) : OutsideKept s (takeFault f u) := by
  obtain ⟨-, -, -, -, -, hlen, hcap, hin, hout, -⟩ := h.fields
  refine ⟨?_, ?_, ?_, fun a ha => ?_⟩
  · rw [takeFault_inMem]; exact hin
  · rw [takeFault_inLen]; exact hlen
  · rw [takeFault_outCap]; exact hcap
  · change u.outCap = s.outCap at hcap
    change u.outMem = s.outMem at hout
    rw [takeFault_readOut (by rwa [hout]) (by rwa [hcap]), State.readOut, State.readOut, hout]

theorem Completes.outsideKept {s t : State} {i : Instr} (hw : Memory.wf s.outMem = true) (h : Completes s i t) :
    OutsideKept s t := by
  obtain ⟨-, -, -, -, hlen, hcap, hin, -⟩ := h.frame
  exact ⟨hin, hlen, hcap, fun a ha => (h.output hw).others a (.inr ha)⟩

theorem step_outsideKept {s t : State} (hs : s.status = .run) (hw : Memory.wf s.outMem = true)
    (h : step s = .next t) : OutsideKept s t := by
  rcases step_run_cases hs h with ⟨i, u, -, -, -, hk, hc⟩ | ⟨f, u, hp, rfl⟩
  · obtain ⟨-, -, -, -, hlen, hcap, hin, hout, -⟩ := hk.fields
    obtain ⟨h1, h2, h3, h4⟩ := hc.outsideKept (by rwa [hout])
    refine ⟨h1.trans hin, h2.trans hlen, h3.trans hcap, fun a ha => ?_⟩
    rw [h4 a (by rwa [hcap]), State.readOut, State.readOut, hout]
  · exact .takeFault hw hp

theorem RunsTo.outsideKept {s t : State} {i : Instr} (hw : Memory.wf s.outMem = true) (h : RunsTo s i t) :
    OutsideKept s t := by
  cases h with
  | symbol h => exact h.outsideKept hw
  | decoded C v u h ht =>
    obtain ⟨-, -, -, -, -, hlen, hcap, hin, hout, -⟩ := h.only.fields
    subst ht
    exact ⟨hin, hlen, hcap, fun a _ => congrArg (Memory.read · a) hout⟩
  | copied o l nonzero reach room ht =>
    obtain ⟨-, -, -, -, -, -, -, hlen, hcap, hin, -⟩ := (copyBytes_onlyOut o l.toNat s).fields
    subst ht
    exact ⟨hin, hlen, hcap, fun a ha => (copyBytes_output hw nonzero reach room).others a (.inr ha)⟩
  | faulted f u h ht => exact ht ▸ .takeFault hw h

/-- Settles O42: in every case of a step and of an instruction on its own. -/
theorem noByteOutsideTheBuffer : Obligations.NoByteOutsideTheBuffer := by
  rintro s t hs hw (h | ⟨i, h⟩)
  · exact step_outsideKept hs hw h
  · exact (exec_run_cases hs h).outsideKept hw

/-- Settles O43: the fetch moves IN_POS forward and the symbol OUT_POS; a byte written lies from OUT_POS on. -/
theorem outputOnlyGrows : Obligations.OutputOnlyGrows := by
  intro s t hi hs h hf
  obtain ⟨i, u, -, -, hk, hc⟩ := step_run_completes hs h hf
  obtain ⟨hpos, -, -, -, hlen, hcap, -, hout, -⟩ := hk.fields
  obtain ⟨-, -, hinPos, -, hlen', hcap', -⟩ := hc.frame
  have hgrow : OutputGrows s u := .of_eq hi.outMem hpos hout
  obtain ⟨-, hfwd, hwithin, hothers⟩ := hgrow.trans hcap (hc.output (by rw [hout]; exact hi.outMem))
  refine ⟨?_, ?_, hfwd, ?_, fun a ha => hothers a (.inl ha)⟩
  · rw [hinPos]; exact hk.read.forward
  · rw [hinPos, hlen']; exact hk.read.inPos (hi.inPos hs)
  · rw [hcap', hcap]; exact hwithin (hi.outPos hs)

/-! ### The invariant -/

section Invariant

variable {s t : State}

/-- What the invariant says of OFFSET after a match is the only clause about PWM. -/
theorem Inv.setPwm (h : Inv (clearPwm s)) {p : Bool}
    (hp : p = true → 1 ≤ s.offset.toNat ∧ s.offset.toNat ≤ s.outPos.toNat) : Inv (s.setPwm p) :=
  ⟨h.inMem, h.outMem, h.probs, h.code, h.offset, fun _ => hp, h.inPos, h.outPos, h.cause_live, h.cause_fault⟩

theorem Inv.clearPwm (h : Inv s) : Inv (clearPwm s) :=
  ⟨h.inMem, h.outMem, h.probs, h.code, h.offset, fun _ hp => (Bool.false_ne_true hp).elim, h.inPos, h.outPos,
    h.cause_live, h.cause_fault⟩

theorem Inv.setOffset (h : Inv (Machine.clearPwm s)) {o : Word} (ho : o.toNat ≤ 2 ^ 32 - 2) :
    Inv (Machine.clearPwm (s.setOffset o)) :=
  ⟨h.inMem, h.outMem, h.probs, h.code, fun _ => ho, fun _ hp => (Bool.false_ne_true hp).elim, h.inPos, h.outPos,
    h.cause_live, h.cause_fault⟩

theorem Inv.setRet (h : Inv s) (v : Word) : Inv (s.setRet v) :=
  ⟨h.inMem, h.outMem, h.probs, h.code, h.offset, h.match_offset, h.inPos, h.outPos, h.cause_live, h.cause_fault⟩

/-- END ends the run and leaves a live call (R99). -/
theorem Inv.setDone (h : Inv s) (hs : s.status = .run) : Inv (s.setStatus .done) where
  inMem := h.inMem
  outMem := h.outMem
  probs := fun _ => h.probs (.inl hs)
  code := fun _ => h.code (.inl hs)
  offset := fun _ => h.offset (.inl hs)
  match_offset := fun _ => h.match_offset (.inl hs)
  inPos := fun hr => Status.noConfusion hr
  outPos := fun hr => Status.noConfusion hr
  cause_live := fun _ => h.cause_live (.inl hs)
  cause_fault := fun hf => Status.noConfusion hf

/-- Decisions keep the invariant of a run (R12, R14, R17). -/
theorem Inv.read {C : Nat → Prop} (h : Inv s) (hs : s.status = .run) (hk : ReadKeeps C s t) : Inv t := by
  obtain ⟨hpos, hoff, hpwm, hst, hcause, hlen, hcap, hin, hout, -⟩ := hk.only.fields
  have hl : Live s := .inl hs
  exact {
    inMem := hin ▸ h.inMem
    outMem := hout ▸ h.outMem
    probs := fun _ => hk.range (h.probs hl)
    code := fun _ => hk.code (h.code hl)
    offset := fun _ => hoff ▸ h.offset hl
    match_offset := fun _ hp => by rw [hoff, hpos]; exact h.match_offset hl (hpwm ▸ hp)
    inPos := fun _ => hk.inPos (h.inPos hs)
    outPos := fun _ => by rw [hpos, hcap]; exact h.outPos hs
    cause_live := fun _ => hcause.trans (h.cause_live hl)
    cause_fault := fun hf => by rw [hst, hs] at hf; cases hf }

/-- Bytes written below OUT_CAP keep the invariant of a run (R18). -/
theorem Inv.write (h : Inv s) (hs : s.status = .run) (ho : OnlyOut s t) (hw : OutputGrows s t) : Inv t := by
  obtain ⟨hprobs, hcode, hinPos, hoff, hpwm, hst, hcause, hlen, hcap, hin, -⟩ := ho.fields
  have hl : Live s := .inl hs
  have hf := hw.forward
  exact {
    inMem := hin ▸ h.inMem
    outMem := hw.wf
    probs := fun _ i hi => by rw [State.getProb_congr hprobs]; exact h.probs hl i hi
    code := fun _ => hcode ▸ h.code hl
    offset := fun _ => hoff ▸ h.offset hl
    match_offset := fun _ hp => by
      have := h.match_offset hl (hpwm ▸ hp)
      rw [hoff]; omega
    inPos := fun _ => by rw [hinPos, hlen]; exact h.inPos hs
    outPos := fun _ => by rw [hcap]; exact hw.within (h.outPos hs)
    cause_live := fun _ => hcause.trans (h.cause_live hl)
    cause_fault := fun hf => by rw [hst, hs] at hf; cases hf }

theorem OnlyOut.clearPwm (h : OnlyOut s t) : OnlyOut (Machine.clearPwm s) (Machine.clearPwm t) :=
  congrArg Machine.clearPwm h

/-- A completed symbol keeps the invariant, but that what it says of OFFSET after a match is needed before END only:
LIT clears PWM, and a match sets OFFSET and PWM anew (R96, R99, R101). -/
theorem Completes.inv {i : Instr} (hw : i.wf = true) (hs : s.status = .run) (hi : Inv (Machine.clearPwm s))
    (hend : i = .endPwm0 ∨ i = .endPwm1 → Inv s) (h : Completes s i t) : Inv t := by
  cases h with
  | lit b room =>
    exact hi.write hs (putByte_onlyOut b s).clearPwm (putByte_output (s := Machine.clearPwm s) hi.outMem room)
  | copied i o l form nonzero reach room =>
    have ho : o.toNat ≤ 2 ^ 32 - 2 := by
      rcases form with rfl | rfl | ⟨rfl, rfl⟩
      · simp only [Instr.wf, Instr.offsetOk, Bool.and_eq_true, decide_eq_true_eq] at hw; exact hw.1.2
      · simp only [Instr.wf, Instr.offsetOk, Bool.and_eq_true, decide_eq_true_eq] at hw; exact hw.1.2
      · exact hi.offset (.inl hs)
    have hcopy := copyBytes_onlyOut o l.toNat (s.setOffset o)
    have hout := copyBytes_output (s := s.setOffset o) hi.outMem nonzero reach room
    have hcopied : Inv (Machine.clearPwm (copyBytes o l.toNat (s.setOffset o))) :=
      (hi.setOffset ho).write hs hcopy.clearPwm ⟨hout.wf, hout.forward, hout.within, hout.others⟩
    obtain ⟨-, -, -, hoff, -⟩ := hcopy.fields
    refine hcopied.setPwm fun _ => ?_
    rw [hoff]
    exact ⟨nonzero, reach.trans hout.forward⟩
  | ended i form => exact (hend form).setDone hs

theorem Inv.fault {f : FaultName} {u : State} (h : Inv s) (hp : OnlyPredictor s (u.setOffset s.offset)) :
    Inv (Machine.takeFault f u) := by
  obtain ⟨-, -, -, -, -, -, -, hin, hout, -⟩ := hp.fields
  change u.inMem = s.inMem at hin
  change u.outMem = s.outMem at hout
  exact .takeFault (hin ▸ h.inMem) (hout ▸ h.outMem)

/-- The fetch keeps the invariant, but that a MATCHN has put its offset in OFFSET (R98). -/
theorem Inv.fetch {C : Nat → Prop} (h : Inv s) (hs : s.status = .run) (hk : FetchKeeps C s t) :
    Inv (Machine.clearPwm t) := by
  have hread : Inv (t.setOffset s.offset) := h.read hs hk.read
  refine hread.clearPwm.setOffset (s := t.setOffset s.offset) (o := t.offset) ?_
  rcases hk.offset with he | he
  · rw [he]; exact h.offset (.inl hs)
  · simp only [Instr.offsetOk, Bool.and_eq_true, decide_eq_true_eq] at he; exact he.2

theorem Inv.step_run (h : Inv s) (hs : s.status = .run) (ht : step s = .next t) : Inv t := by
  rcases step_run_cases hs ht with ⟨i, u, hf, hw, hm, hk, hc⟩ | ⟨f, u, hp, rfl⟩
  · obtain ⟨-, -, hst, -⟩ := hk.fields
    refine hc.inv hw (hst.trans hs) (h.fetch hs hk) fun hend => ?_
    have hoff : u.offset = s.offset := by
      rcases fetchSymbol_offset hf with ⟨o, l, he, -⟩ | ⟨-, he⟩
      · rcases hend with rfl | rfl <;> simp at he
      · exact he
    have hread := hk.read
    rw [← hoff] at hread
    exact h.read hs hread
  · exact h.fault hp

/-- A write of the host keeps the invariant: outside a run it claims nothing of IN_LEN and OUT_CAP (R23, R26). -/
theorem Inv.hostWrite (h : Inv s) (hs : s.status ≠ .run) (w : HostWrite) : Inv (hostWrite w s) := by
  have keep (m n : Memory) (l c : Word) (hm : Memory.wf m = true) (hn : Memory.wf n = true) :
      Inv { s with inMem := m, outMem := n, inLen := l, outCap := c } :=
    ⟨hm, hn, h.probs, h.code, h.offset, h.match_offset, fun hr => absurd hr hs, fun hr => absurd hr hs, h.cause_live,
      h.cause_fault⟩
  cases w with
  | inLen v => exact keep _ _ _ _ h.inMem h.outMem
  | outCap v => exact keep _ _ _ _ h.inMem h.outMem
  | inByte a b => exact keep _ _ _ _ (Memory.wf_write h.inMem a.isLt b) h.outMem
  | outByte a b => exact keep _ _ _ _ h.inMem (Memory.wf_write h.outMem a.isLt b)

theorem Inv.setHostQ (h : Inv s) (q : List HostCmd) : Inv (s.setHostQ q) :=
  ⟨h.inMem, h.outMem, h.probs, h.code, h.offset, h.match_offset, h.inPos, h.outPos, h.cause_live, h.cause_fault⟩

theorem Inv.runsTo {i : Instr} (h : Inv s) (hs : s.status = .run) (hw : i.wf = true) (ht : RunsTo s i t) : Inv t := by
  cases ht with
  | symbol hc => exact hc.inv hw hs h.clearPwm fun _ => h
  | decoded C v u hk ht => exact ht ▸ (h.read hs hk).setRet v
  | copied o l nonzero reach room ht =>
    exact ht ▸ h.write hs (copyBytes_onlyOut o l.toNat s) (copyBytes_output h.outMem nonzero reach room)
  | faulted f u hp ht => exact ht ▸ h.fault hp

end Invariant

/-- Settles O40: in RUN by the cases of a symbol; outside it a step is a move of the host, or nothing. -/
theorem stepKeepsInvariant : Obligations.StepKeepsInvariant := by
  intro s t h ht
  by_cases hs : s.status = .run
  · exact h.step_run hs ht
  · rcases step_idle_cases hs ht with ⟨-, rfl⟩ | ⟨q, -, rfl⟩ | ⟨w, q, -, rfl⟩
    · exact h
    · exact .startCall h.inMem h.outMem
    · exact (h.setHostQ q).hostWrite hs w

theorem exec_of_not_run {i : Instr} {s : State} (hs : s.status ≠ .run) (hi : i ≠ .start) : exec i s = .next s := by
  cases i
  case start => exact absurd rfl hi
  all_goals exact whileRunning_not_run hs _

/-- Settles O41: in RUN by the cases of an instruction on its own; outside it only START acts. -/
theorem execKeepsInvariant : Obligations.ExecKeepsInvariant := by
  intro i s t hw h ht
  by_cases hs : s.status = .run
  · exact h.runsTo hs hw (exec_run_cases hs ht)
  · by_cases hi : i = .start
    · subst hi
      exact eq_startCall_of_exec ht ▸ .startCall h.inMem h.outMem
    · rw [exec_of_not_run hs hi] at ht
      exact Host.Outcome.next.inj ht ▸ h

/-! ### Every run ends -/

theorem copyBytes_outPos {o : Word} {n : Nat} {s : State} (room : s.outPos.toNat + n ≤ s.outCap.toNat) :
    (copyBytes o n s).outPos.toNat = s.outPos.toNat + n := by
  induction n generalizing s with
  | zero => rfl
  | succ n ih =>
    have hpos (v : Byte) : (putByte v s).outPos.toNat = s.outPos.toNat + 1 := putByte_outPos_toNat (by omega)
    rw [copyBytes, ih (by rw [hpos, putByte_outCap]; omega), hpos]
    omega

/-- Every symbol but END writes at least one byte, below OUT_CAP (R103). -/
theorem Completes.progress {i : Instr} {s t : State} (hw : i.wf = true) (h : Completes s i t)
    (ht : t.status = .run) : s.outPos.toNat < t.outPos.toNat ∧ t.outPos.toNat ≤ t.outCap.toNat := by
  obtain ⟨-, -, -, -, -, hcap, -⟩ := h.frame
  rw [hcap]
  cases h with
  | lit b room =>
    have hpos : (clearPwm (putByte b s)).outPos.toNat = s.outPos.toNat + 1 := putByte_outPos_toNat room
    omega
  | copied i o l form nonzero reach room =>
    have hlen : 1 ≤ l.toNat := by
      rcases form with rfl | rfl | ⟨rfl, -⟩ <;>
        simp only [Instr.wf, Instr.lengthOk, Bool.and_eq_true, decide_eq_true_eq] at hw
      · exact hw.2
      · exact hw.2
      · exact hw
    have hpos : (raisePwm (copyBytes o l.toNat (s.setOffset o))).outPos.toNat = s.outPos.toNat + l.toNat :=
      copyBytes_outPos (s := s.setOffset o) room
    omega
  | ended i form => cases ht

/-- A step of a run ends the run, or moves OUT_POS forward and leaves it within OUT_CAP. -/
theorem step_run_progress {s t : State} (hs : s.status = .run) (h : step s = .next t) :
    (t.status = .done ∨ t.status = .fault) ∨
      t.status = .run ∧ t.outCap = s.outCap ∧ s.outPos.toNat < t.outPos.toNat ∧ t.outPos.toNat ≤ s.outCap.toNat := by
  rcases step_run_cases hs h with ⟨i, u, -, hw, -, hk, hc⟩ | ⟨f, u, -, rfl⟩
  · by_cases ht : t.status = .run
    · obtain ⟨hpos, -, -, -, -, hcap, -⟩ := hk.fields
      obtain ⟨-, -, -, -, -, hcap', -⟩ := hc.frame
      obtain ⟨h1, h2⟩ := hc.progress hw ht
      rw [hpos] at h1
      rw [hcap'.trans hcap] at h2
      exact .inr ⟨ht, hcap'.trans hcap, h1, h2⟩
    · obtain ⟨-, -, hst, -⟩ := hk.fields
      cases hc with
      | lit b room => exact absurd (hst.trans hs) ht
      | copied i o l form nonzero reach room =>
        obtain ⟨-, -, -, -, -, hst', -⟩ := (copyBytes_onlyOut o l.toNat (u.setOffset o)).fields
        exact absurd (hst'.trans (hst.trans hs)) ht
      | ended i form => exact .inl (.inl rfl)
  · exact .inl (.inr (takeFault_status f u))

theorem runSymbols_ends (n : Nat) {s : State} (hs : s.status = .run) (hn : s.outCap.toNat < s.outPos.toNat + n)
    (hpos : 0 < n) : (runSymbols n s).status = .done ∨ (runSymbols n s).status = .fault := by
  induction n generalizing s with
  | zero => exact absurd hpos (lt_irrefl 0)
  | succ n ih =>
    obtain ⟨t, ht⟩ := step_run_next hs
    rw [runSymbols_succ_of_step n hs ht]
    rcases step_run_progress hs ht with hend | ⟨hrun, hcap, hlt, hle⟩
    · rw [runSymbols_of_not_run n (by rcases hend with h | h <;> simp [h])]
      exact hend
    · exact ih hrun (by rw [hcap]; omega) (by omega)

/-- An integer of 32 bits has at most 63 decisions (R63). -/
theorem length_encodeUint_le (order : BitOrder) (base : Nat) {v : Nat} (hv : v < 2 ^ 32) :
    (encodeUint order base v).length ≤ 63 := by
  rw [length_encodeUint]
  by_cases h0 : v = 0
  · subst h0; decide
  · have := (Nat.log2_lt h0).2 hv
    omega

theorem length_encode_le {i : Instr} {ds : List Decision} (hw : i.wf = true) (he : encode i = some ds) :
    ds.length ≤ 128 := by
  have hlen (l : Word) : (encodeUint Config.upkr.order Config.upkr.ctxLen l.toNat).length ≤ 63 :=
    length_encodeUint_le _ _ l.isLt
  have hoff (o : Word) (ho : Instr.offsetOk o = true) :
      (encodeUint Config.upkr.order Config.upkr.ctxOff (o.toNat + 1)).length ≤ 63 := by
    simp only [Instr.offsetOk, Bool.and_eq_true, decide_eq_true_eq] at ho
    exact length_encodeUint_le _ _ (by omega)
  cases i <;> simp only [encode, encodeSymbol, Option.some.injEq, reduceCtorEq] at he <;> subst he <;>
    simp only [List.length_cons, List.length_append, length_encodeLiteral]
  case lit => omega
  case matchnPwm0 o l =>
    simp only [Instr.wf, Bool.and_eq_true] at hw
    have := hlen l; have := hoff o hw.1; omega
  case matchnPwm1 o l =>
    simp only [Instr.wf, Bool.and_eq_true] at hw
    have := hlen l; have := hoff o hw.1; omega
  case matchr l => have := hlen l; omega
  case endPwm0 =>
    have := length_encodeUint_le Config.upkr.order Config.upkr.ctxOff (v := Config.endValue) (by decide); omega
  case endPwm1 =>
    have := length_encodeUint_le Config.upkr.order Config.upkr.ctxOff (v := Config.endValue) (by decide); omega

/-- Settles O39: OUT_POS moves forward with every symbol that does not end the run, and stays within OUT_CAP. -/
theorem everyRunEnds : Obligations.EveryRunEnds :=
  ⟨fun _ hs => runSymbols_ends _ hs (by omega) (by omega), fun _ _ => length_encode_le⟩

end Sys2Proof.Machine
end

section
/-! PROOF. The split of CODE can be undone (spec 40_bit_predictor.md R75), so that the bytes built for a string of
decisions are read back as those decisions (95_test_vectors.md section 7, informative; log 21). -/

namespace Sys2Proof

open Machine

/-! ### The split and its inverse -/

theorem bitShare_range {p : Nat} (h1 : 1 ≤ p) (h2 : p ≤ 255) (b : Bool) : 1 ≤ bitShare p b ∧ bitShare p b ≤ 255 := by
  cases b <;> simp only [bitShare, Bool.false_eq_true, if_false, if_true] <;> omega

/-- The decision at `p` of the value built for a bit is that bit, and leaves what the value was built from. -/
theorem split_unsplit {c : Word} {p : Byte} {b : Bool} {x : Nat} (hp : 1 ≤ p.toNat)
    (hc : c.toNat = unsplit x p.toNat b) : decision c p = b ∧ (codeAfter c p).toNat = x := by
  have hlt := p.isLt
  obtain ⟨hhigh, hlow⟩ := unsplit_parts (y := x) (b := b) hp (show p.toNat ≤ 255 by omega)
  obtain ⟨hshare, -⟩ := bitShare_range hp (show p.toNat ≤ 255 by omega) b
  rw [← hc] at hhigh hlow
  have hx := Nat.div_add_mod x (bitShare p.toNat b)
  have hmod := Nat.mod_lt x hshare
  cases b
  case true =>
    simp only [bitShare, if_true] at hhigh hlow hx hmod
    have hbelow : c.toNat % 256 < p.toNat := by omega
    refine ⟨(decision_iff c p).2 hbelow, ?_⟩
    rw [codeAfter_one hbelow, hhigh, hlow, mul_comm]
    omega
  case false =>
    simp only [bitShare, Bool.false_eq_true, if_false] at hhigh hlow hx hmod
    have hnot : ¬ c.toNat % 256 < p.toNat := by omega
    refine ⟨by rwa [← Bool.not_eq_true, decision_iff], ?_⟩
    rw [(codeAfter_zero (Nat.not_lt.1 hnot)).1, hhigh]
    have hsub : (256 - p.toNat) * (x / (256 - p.toNat)) + p.toNat * (x / (256 - p.toNat)) =
        256 * (x / (256 - p.toNat)) := by rw [← add_mul]; congr 1; omega
    rw [mul_add]
    omega

/-- What a decision leaves, and the decision, give back the value of CODE (R75). -/
theorem unsplit_split (c : Word) {p : Byte} (hp : 1 ≤ p.toNat) :
    unsplit (codeAfter c p).toNat p.toNat (decision c p) = c.toNat := by
  have hlt := p.isLt
  cases hd : decision c p
  case true =>
    have hbelow := (decision_iff c p).1 hd
    rw [codeAfter_one hbelow]
    simp only [unsplit, if_true]
    rw [Nat.add_mul_div_right _ _ hp, Nat.div_eq_of_lt hbelow, Nat.add_mul_mod_self_right, Nat.mod_eq_of_lt hbelow]
    omega
  case false =>
    have hnot : p.toNat ≤ c.toNat % 256 := by
      rw [← Nat.not_lt, ← decision_iff, hd]; exact Bool.false_ne_true
    have hrest : (codeAfter c p).toNat = (c.toNat % 256 - p.toNat) + c.toNat / 256 * (256 - p.toNat) := by
      have hsub : c.toNat / 256 * (256 - p.toNat) + p.toNat * (c.toNat / 256) = 256 * (c.toNat / 256) := by
        rw [mul_comm, ← add_mul]; congr 1; omega
      rw [(codeAfter_zero hnot).1, mul_add]
      omega
    have hbelow : c.toNat % 256 - p.toNat < 256 - p.toNat := by omega
    rw [hrest]
    simp only [unsplit, Bool.false_eq_true, if_false]
    rw [Nat.add_mul_div_right _ _ (by omega), Nat.div_eq_of_lt hbelow, Nat.add_mul_mod_self_right,
      Nat.mod_eq_of_lt hbelow]
    omega

theorem unsplit_lt {p x : Nat} (h1 : 1 ≤ p) (h2 : p ≤ 255) (b : Bool) (hx : x < 2 ^ 24) : unsplit x p b < 2 ^ 32 := by
  have hhigh := (unsplit_parts (y := x) (b := b) h1 h2).1
  have := Nat.div_le_self x (bitShare p b)
  omega

/-- Settles O10: the value of CODE is a function of the decision and of what it leaves, and that function is onto. -/
theorem splitIsReversible : Obligations.SplitIsReversible := by
  intro p hp
  refine ⟨fun c d hbit hafter => ?_, fun b x hx => ?_⟩
  · apply BitVec.eq_of_toNat_eq
    rw [← unsplit_split c hp, ← unsplit_split d hp, hbit, hafter]
  · have hlt := p.isLt
    have hfit := unsplit_lt hp (show p.toNat ≤ 255 by omega) b hx
    exact ⟨BitVec.ofNat 32 (unsplit x p.toNat b),
      split_unsplit hp (by rw [BitVec.toNat_ofNat, Nat.mod_eq_of_lt hfit])⟩

/-! ### Bytes to come -/

/-- The bytes of IN from IN_POS to IN_LEN are these. -/
structure Upcoming (bs : List Byte) (s : State) : Prop where
  length : s.inPos.toNat + bs.length = s.inLen.toNat
  bytes : ∀ j, j < bs.length → bs[j]? = some (s.readIn (s.inPos.toNat + j))

theorem Upcoming.lt {b : Byte} {bs : List Byte} {s : State} (h : Upcoming (b :: bs) s) :
    s.inPos.toNat < s.inLen.toNat := by
  have := h.length
  rw [List.length_cons] at this
  omega

/-- A refill takes the first of them (R33, R70). -/
theorem Upcoming.next {b : Byte} {bs : List Byte} {s : State} (h : Upcoming (b :: bs) s)
    (hc : s.code.toNat < 4096) :
    renormalise s = renormalise (refilled s) ∧ Upcoming bs (refilled s) ∧
      (refilled s).code.toNat = s.code.toNat * 256 + b.toNat := by
  have hlt := h.lt
  have hpos := refilled_inPos_toNat hlt
  have hlen := h.length
  rw [List.length_cons] at hlen
  refine ⟨renormalise_refill hc hlt, ⟨by rw [hpos, refilled_inLen]; omega, fun j hj => ?_⟩, ?_⟩
  · have hb := h.bytes (j + 1) (by rw [List.length_cons]; omega)
    rw [List.getElem?_cons_succ] at hb
    rw [hb, hpos, State.readIn, State.readIn, refilled_inMem, add_assoc, add_comm 1]
  · have hb : b = s.readIn s.inPos.toNat := Option.some.inj (h.bytes 0 (by simp))
    rw [refilled_code_toNat hc, hb]

/-- The renormalise loop ends with this value in CODE and these bytes to come. -/
def RenormalisesTo (x : Nat) (bs : List Byte) (s : State) : Prop :=
  ∃ u, renormalise s = .ok () u ∧ OnlyCursor s u ∧ u.code.toNat = x ∧ Upcoming bs u

theorem Upcoming.renormalisesTo_of_ge {bs : List Byte} {s : State} (h : Upcoming bs s) (hc : 4096 ≤ s.code.toNat) :
    RenormalisesTo s.code.toNat bs s :=
  ⟨s, renormalise_of_ge hc, .refl s, rfl, h⟩

theorem Upcoming.renormalisesTo_cons {b : Byte} {bs cs : List Byte} {s : State} {x : Nat} (h : Upcoming (b :: bs) s)
    (hc : s.code.toNat < 4096) (hr : RenormalisesTo x cs (refilled s)) : RenormalisesTo x cs s := by
  obtain ⟨u, hu, honly, hx, hup⟩ := hr
  exact ⟨u, (h.next hc).1.trans hu, (refilled_onlyCursor s).trans honly, hx, hup⟩

/-- One byte shifted out of the coder's state comes back with one refill. -/
theorem Upcoming.renormalisesTo_byte {y : Nat} {bs : List Byte} {s : State}
    (h : Upcoming (BitVec.ofNat 8 y :: bs) s) (hy : 4096 ≤ y) (hy' : y < 2 ^ 20)
    (hc : s.code.toNat = y >>> 8) : RenormalisesTo y bs s := by
  rw [Nat.shiftRight_eq_div_pow] at hc
  have hlt : s.code.toNat < 4096 := by omega
  obtain ⟨-, hup, hcode⟩ := h.next hlt
  rw [BitVec.toNat_ofNat, hc] at hcode
  have hcode : (refilled s).code.toNat = y := by omega
  exact h.renormalisesTo_cons hlt (hcode ▸ hup.renormalisesTo_of_ge (by omega))

/-- The coder's state laid out in two or three bytes primes CODE with it (R70). -/
theorem Upcoming.renormalisesTo_flush {y : Nat} {bs : List Byte} {s : State} (h : Upcoming (flushBytes y ++ bs) s)
    (hy : 4096 ≤ y) (hy' : y < 2 ^ 20) (hc : s.code.toNat = 0) : RenormalisesTo y bs s := by
  have first (z : Nat) (cs : List Byte) (hup : Upcoming (BitVec.ofNat 8 z :: cs) s) :
      Upcoming cs (refilled s) ∧ (refilled s).code.toNat = z % 256 := by
    obtain ⟨-, hup', hcode⟩ := hup.next (by omega)
    rw [hc, BitVec.toNat_ofNat] at hcode
    exact ⟨hup', by omega⟩
  unfold flushBytes at h
  split at h
  next hsmall =>
    obtain ⟨hup, hcode⟩ := first _ _ h
    have hshift : y >>> 8 = y / 256 := Nat.shiftRight_eq_div_pow y 8
    exact h.renormalisesTo_cons (by omega) (hup.renormalisesTo_byte hy hy' (by omega))
  next hlarge =>
    obtain ⟨hup, hcode⟩ := first _ _ h
    have hshift : y >>> 8 = y / 256 := Nat.shiftRight_eq_div_pow y 8
    have hshift' : y >>> 16 = y / 65536 := Nat.shiftRight_eq_div_pow y 16
    obtain ⟨-, hup', hcode'⟩ := hup.next (by omega)
    rw [BitVec.toNat_ofNat] at hcode'
    exact h.renormalisesTo_cons (by omega)
      (hup.renormalisesTo_cons (by omega) (hup'.renormalisesTo_byte hy hy' (by omega)))

/-! ### Reading back -/

/-- The coder's table of probabilities is that of the machine, in the range of R12. -/
structure SameTable (probs : Nat → Byte) (s : State) : Prop where
  range : ∀ i, 7 ≤ (probs i).toNat ∧ (probs i).toNat ≤ 249
  entries : ∀ i, i < Config.nprobs → s.getProb i = probs i

/-- The coder's table after a decision. -/
def adaptAt (probs : Nat → Byte) (c : Nat) (b : Bool) (i : Nat) : Byte := if i = c then adapt (probs c) b else probs i

theorem SameTable.decodeBit {probs : Nat → Byte} {s t : State} {c : Nat} {b : Bool} (h : SameTable probs s)
    (hc : c < Config.nprobs) (hd : Machine.decodeBit c s = .ok b t) : SameTable (adaptAt probs c b) t := by
  obtain ⟨-, -, hothers, hsame, -⟩ := (decodeBit_post c s).ok_of hd
  refine ⟨fun i => ?_, fun i hi => ?_⟩ <;> by_cases e : i = c
  · simpa only [adaptAt, e, if_true] using adapt_range (h.range c) b
  · simpa only [adaptAt, e, if_false] using h.range i
  · subst e; simp only [adaptAt, if_true]; rw [hsame hc, h.entries i hi]
  · simp only [adaptAt, e, if_false]; rw [hothers i e, h.entries i hi]

/-- The coder shifts no byte out for the last decision: its state there is 4096, and no share is below 7. -/
theorem encodeFrom_nil_lt {p : Nat} (h : 7 ≤ p ∧ p ≤ 249) (b : Bool) (probs : Nat → Byte) :
    (encodeFrom probs []).1 < 4096 * bitShare p b := by
  change 4096 < _
  cases b <;> simp only [bitShare, Bool.false_eq_true, if_false, if_true] <;> omega

theorem encodeFrom_cons (probs : Nat → Byte) (c : Nat) (b : Bool) (ds : List Decision) :
    encodeFrom probs ((c, b) :: ds) =
      if 4096 * bitShare (probs c).toNat b ≤ (encodeFrom (adaptAt probs c b) ds).1 then
        (unsplit ((encodeFrom (adaptAt probs c b) ds).1 >>> 8) (probs c).toNat b,
          BitVec.ofNat 8 (encodeFrom (adaptAt probs c b) ds).1 :: (encodeFrom (adaptAt probs c b) ds).2)
      else (unsplit (encodeFrom (adaptAt probs c b) ds).1 (probs c).toNat b, (encodeFrom (adaptAt probs c b) ds).2) :=
  rfl

/-- The machine at the coder's state before a decision makes that decision and is at the coder's state after it; the
last decision leaves CODE at 4096 and no byte. -/
theorem decodeBit_of_encodeFrom {probs : Nat → Byte} {c : Nat} {b : Bool} {ds : List Decision} {s : State}
    (ht : SameTable probs s) (hc : c < Config.nprobs)
    (h : RenormalisesTo (encodeFrom probs ((c, b) :: ds)).1 (encodeFrom probs ((c, b) :: ds)).2 s) :
    ∃ t, decodeBit c s = .ok b t ∧ SameTable (adaptAt probs c b) t ∧
      RenormalisesTo (encodeFrom (adaptAt probs c b) ds).1 (encodeFrom (adaptAt probs c b) ds).2 t ∧
      (ds = [] → t.code.toNat = 4096 ∧ Upcoming [] t) := by
  obtain ⟨u, hu, honly, hcode, hup⟩ := h
  have hentry : u.getProb c = probs c := (honly.getProb c).trans (ht.entries c hc)
  have hrange := ht.range c
  have step {x : Nat} (hx : u.code.toNat = unsplit x (probs c).toNat b) :
      decodeBit c s = .ok b (decide1 c u) ∧ (decide1 c u).code.toNat = x := by
    obtain ⟨hbit, hafter⟩ := split_unsplit (p := probs c) (by omega) hx
    rw [decide1_code, hentry]
    exact ⟨decodeBit_eq_ok.2 ⟨u, hu, by rw [hentry, hbit], rfl⟩, hafter⟩
  have hnext {cs : List Byte} (h : Upcoming cs u) : Upcoming cs (decide1 c u) :=
    ⟨by simpa using h.length, by simpa [State.readIn] using h.bytes⟩
  rw [encodeFrom_cons] at hcode hup
  split at hcode
  next hout =>
    rw [if_pos hout] at hup
    obtain ⟨hd, hx⟩ := step hcode
    have hlast : ds ≠ [] := by
      rintro rfl
      exact absurd hout (Nat.not_le.2 (encodeFrom_nil_lt hrange b _))
    have htable := ht.decodeBit hc hd
    obtain ⟨hy, hy'⟩ := encodeFrom_range ds _ htable.range
    exact ⟨_, hd, htable, (hnext hup).renormalisesTo_byte hy hy' hx, fun h => absurd h hlast⟩
  next hkeep =>
    rw [if_neg hkeep] at hup
    obtain ⟨hd, hx⟩ := step hcode
    have htable := ht.decodeBit hc hd
    obtain ⟨hy, -⟩ := encodeFrom_range ds _ htable.range
    refine ⟨_, hd, htable, hx ▸ (hnext hup).renormalisesTo_of_ge (by omega), ?_⟩
    rintro rfl
    exact ⟨hx, hnext hup⟩

/-- The machine at the coder's state before a string of decisions goes through them to the last byte. -/
theorem follow_of_encodeFrom {ds : List Decision} {probs : Nat → Byte} {s : State} (ht : SameTable probs s)
    (hctx : ∀ d ∈ ds, d.1 < Config.nprobs) (h : RenormalisesTo (encodeFrom probs ds).1 (encodeFrom probs ds).2 s) :
    ∃ t, follow ds s = some t ∧ (ds ≠ [] → t.code.toNat = 4096 ∧ Upcoming [] t) := by
  induction ds generalizing probs s with
  | nil => exact ⟨s, rfl, fun h => absurd rfl h⟩
  | cons d ds ih =>
    obtain ⟨c, b⟩ := d
    obtain ⟨u, hd, htable, hnext, hlast⟩ := decodeBit_of_encodeFrom ht (hctx _ List.mem_cons_self) h
    obtain ⟨t, hf, hend⟩ := ih htable (fun d hd => hctx d (List.mem_cons_of_mem _ hd)) hnext
    refine ⟨t, follow_cons_machine.2 ⟨u, hd, hf⟩, fun _ => ?_⟩
    by_cases hnil : ds = []
    · subst hnil
      obtain rfl := Option.some.inj hf
      exact hlast rfl
    · exact hend hnil

/-- The bytes of a call, as START finds them (R37, R120). -/
theorem upcoming_freshCall {bs : List Byte} (hlen : bs.length < 2 ^ 32) (s : State) : Upcoming bs (freshCall bs s) where
  length := by
    simp only [freshCall, startCall_inPos, startCall_inLen, State.setInLen_inLen, BitVec.toNat_ofNat]
    omega
  bytes := fun j hj => by
    have hread : (freshCall bs s).readIn j = bs[j]?.getD Memory.unlisted := by
      change Memory.read (Memory.writeList bs 0 []) j = _
      simp [Memory.read_writeList (m := []) rfl (show 0 + bs.length ≤ 2 ^ 32 by omega), Memory.read]
    have hzero : (freshCall bs s).inPos.toNat + j = j := Nat.zero_add j
    rw [hzero, hread, List.getElem?_eq_getElem hj]
    rfl

/-- Settles O50: START's table is the coder's, the flushed bytes prime CODE with the coder's state, and each decision
keeps machine and coder together. -/
theorem bytesOfDecisionsAreReadBack : Obligations.BytesOfDecisionsAreReadBack := by
  intro ds s hctx hlen hne
  have htable : SameTable (fun _ => Config.probInit) (freshCall (encodeBytes ds) s) :=
    ⟨fun _ => by decide, fun i hi => startCall_getProb _ hi⟩
  obtain ⟨hy, hy'⟩ := encodeFrom_range ds _ htable.range
  obtain ⟨t, hf, hend⟩ := follow_of_encodeFrom htable hctx
    ((upcoming_freshCall hlen s).renormalisesTo_flush hy hy' rfl)
  obtain ⟨hcode, hup⟩ := hend hne
  obtain ⟨-, -, -, -, -, hinLen, -⟩ := (follow_onlyPredictor hf).fields
  refine ⟨t, hf, BitVec.eq_of_toNat_eq hcode, ?_⟩
  have htotal := (upcoming_freshCall hlen s).length
  have hzero : (freshCall (encodeBytes ds) s).inPos.toNat = 0 := rfl
  have hused := hup.length
  rw [hinLen] at hused
  rw [List.length_nil] at hused
  omega

end Sys2Proof
end

section
/-! PROOF. The Bit Predictor (spec 40_bit_predictor.md): the arithmetic of a decision (R73, R74), DECODE_BIT on its own
(R71), how many bytes a refill takes (R70), and the ranges of CODE and PROBS over steps (10_state.md R12, R14). -/

namespace Sys2Proof.Machine

/-! ### The arithmetic of a decision -/

/-- CODE after a 0, as the sum R73 gives for it. -/
theorem codeAfter_zero_eq_add {c : Word} {p : Byte} (h : p.toNat ≤ c.toNat % 256) :
    (codeAfter c p).toNat = c.toNat / 256 * (256 - p.toNat) + (c.toNat % 256 - p.toNat) := by
  have hp := p.isLt
  have hsub : c.toNat / 256 * (256 - p.toNat) + c.toNat / 256 * p.toNat = c.toNat / 256 * 256 := by
    rw [← mul_add]; congr 1; omega
  rw [(codeAfter_zero h).1, mul_add, mul_comm p.toNat]
  omega

theorem decision_eq_false {c : Word} {p : Byte} (h : p.toNat ≤ c.toNat % 256) : decision c p = false := by
  rw [← Bool.not_eq_true, decision_iff]
  omega

/-- Settles O8: the bounds on the two parts of CODE bound the products; the exact values are those of the laws. -/
theorem decisionArithmeticIsExact : Obligations.DecisionArithmeticIsExact := by
  intro c p hge hlt hp
  have hp' := p.isLt
  have hone : c.toNat / 256 * p.toNat ≤ 4095 * 255 := Nat.mul_le_mul (by omega) (by omega)
  have hzero : p.toNat * (c.toNat / 256 + 1) ≤ 255 * 4096 := Nat.mul_le_mul (by omega) (by omega)
  refine ⟨codeHigh_eq c, codeLow_eq c, by omega, by omega, hone, hzero, fun h => ?_, fun h => ?_⟩
  · exact ⟨(decision_iff c p).2 h, codeAfter_one h, (codeAfter_le c p).trans_lt hlt⟩
  · exact ⟨decision_eq_false h, (codeAfter_zero h).2, (codeAfter_zero h).1, codeAfter_zero_eq_add h⟩

/-- With CODE renormalised and no entry 0, a decision makes CODE smaller (R74). -/
theorem codeAfter_lt {c : Word} {p : Byte} (hc : 4096 ≤ c.toNat) (hp : 1 ≤ p.toNat) :
    (codeAfter c p).toNat < c.toNat := by
  by_cases h : c.toNat % 256 < p.toNat
  · have := high_mul_le c p
    rw [codeAfter_one h]
    omega
  · obtain ⟨hafter, hle⟩ := codeAfter_zero (Nat.not_lt.1 h)
    have : 1 * (c.toNat / 256 + 1) ≤ p.toNat * (c.toNat / 256 + 1) := Nat.mul_le_mul_right _ hp
    omega

/-- A loop that ends with IN_POS where it was has taken no byte: CODE was renormalised (R70). -/
theorem renormalise_still {s t : State} (h : renormalise s = .ok () t) (hpos : t.inPos.toNat = s.inPos.toNat) :
    4096 ≤ s.code.toNat ∧ t = s := by
  by_cases hc : 4096 ≤ s.code.toNat
  · rw [renormalise_of_ge hc] at h
    exact ⟨hc, (Res.ok.inj h).2.symm⟩
  · by_cases hl : s.inPos.toNat < s.inLen.toNat
    · rw [renormalise_refill (by omega) hl] at h
      obtain ⟨-, -, hfwd, -⟩ := (renormalise_post (refilled s)).ok_of h
      rw [refilled_inPos_toNat hl] at hfwd
      omega
    · rw [renormalise_truncated (by omega) (by omega)] at h
      cases h

/-- Decisions that take no byte each make CODE smaller, so CODE bounds their number (R74). -/
theorem length_le_code_of_follow {ds : List Decision} {s t : State} (hp : ∀ i, i < 385 → 1 ≤ (s.getProb i).toNat)
    (hctx : ∀ d ∈ ds, d.1 < 385) (h : follow ds s = some t) (hpos : t.inPos = s.inPos) :
    ds.length ≤ s.code.toNat := by
  induction ds generalizing s with
  | nil => exact Nat.zero_le _
  | cons d ds ih =>
    obtain ⟨c, b⟩ := d
    obtain ⟨u, hd, hrest⟩ := follow_cons_machine.1 h
    have hk := (decodeBit_keeps c s (fun _ => True) trivial).ok_of hd
    have hfwd := hk.forward
    have hfwd' := (follow_keeps (fun _ => True) (fun _ _ => trivial) hrest).forward
    rw [hpos] at hfwd'
    obtain ⟨v, hv, -, rfl⟩ := decodeBit_eq_ok.1 hd
    rw [decide1_inPos] at hfwd hfwd'
    obtain ⟨hc, rfl⟩ := renormalise_still hv (by omega)
    have hless := codeAfter_lt hc (hp c (hctx _ List.mem_cons_self))
    have := ih (hk.positive hp) (fun d hd => hctx d (List.mem_cons_of_mem _ hd)) hrest (by rw [hpos, decide1_inPos])
    rw [decide1_code] at this
    rw [List.length_cons]
    omega

/-- Settles O9: one decision by the exact values, a list of them by `length_le_code_of_follow`. -/
theorem everyDecisionShrinksCode : Obligations.EveryDecisionShrinksCode := by
  refine ⟨fun c p hc hp => ⟨codeAfter_lt hc hp, fun h => ?_, fun h => ?_⟩,
    fun ds s t hp hctx h hpos => length_le_code_of_follow hp hctx h hpos⟩
  · have hone := codeAfter_one ((decision_iff c p).1 h)
    have : c.toNat / 256 * 1 ≤ c.toNat / 256 * p.toNat := Nat.mul_le_mul_left _ hp
    omega
  · have hnot : ¬ c.toNat % 256 < p.toNat := by rw [← decision_iff, h]; exact Bool.false_ne_true
    obtain ⟨hafter, hle⟩ := codeAfter_zero (Nat.not_lt.1 hnot)
    have : 1 * (c.toNat / 256 + 1) ≤ p.toNat * (c.toNat / 256 + 1) := Nat.mul_le_mul_right _ hp
    omega

/-! ### DECODE_BIT on its own -/

theorem exec_decodeBit {s : State} (hs : s.status = .run) (c : Fin Config.nprobs) :
    exec (.decodeBit c) s = settleValue ((decodeBit c.val s).andThen fun b t => .ok b.toNat t) := by
  simp only [exec, execDecodeBit, whileRunning_run hs]

theorem getProb_of_fin (s : State) (c : Fin Config.nprobs) : s.getProb c.val = s.probs[c] := by
  simp [State.getProb]

/-- With CODE renormalised DECODE_BIT decides at once (R71). -/
theorem exec_decodeBit_of_ge {s : State} (hs : s.status = .run) (hc : 4096 ≤ s.code.toNat) (c : Fin Config.nprobs) :
    exec (.decodeBit c) s = .next { s with
      code := codeAfter s.code s.probs[c]
      probs := s.probs.set c (adapt s.probs[c] (decision s.code s.probs[c]))
      ret := BitVec.ofNat 32 (decision s.code s.probs[c]).toNat } := by
  rw [exec_decodeBit hs, decodeBit_of_ge hc, Res.andThen_ok, settleValue_ok, ← getProb_of_fin]
  simp [decide1, State.setProb, State.setRet, State.setCode]

theorem refilled_eq {s : State} (hc : s.code.toNat < 4096) :
    refilled s = { s with
      code := BitVec.ofNat 32 (s.code.toNat * 256 + (s.readIn s.inPos.toNat).toNat)
      inPos := BitVec.ofNat 32 (s.inPos.toNat + 1) } := by
  have hcode : (refilled s).code = BitVec.ofNat 32 (s.code.toNat * 256 + (s.readIn s.inPos.toNat).toNat) := by
    rw [← refilled_code_toNat hc, BitVec.ofNat_toNat, BitVec.setWidth_eq]
  rw [← hcode]
  rfl

/-- Settles O11: at once where CODE is renormalised; else after one more iteration of the loop, or not at all. -/
theorem decodeBitDecides : Obligations.DecodeBitDecides := by
  intro s c hs
  refine ⟨fun hc hlt => ?_, fun hc hle => ?_, fun hc hl => ?_, fun hc hl => ?_⟩
  · have hd := (decision_iff s.code s.probs[c]).2 hlt
    rw [exec_decodeBit_of_ge hs hc c, hd]
    simp only [codeAfter, hd, if_true, codeLow_eq, codeHigh_eq, adapt, probUp, Config.adaptUpBias, Config.adaptShift,
      Nat.shiftRight_eq_div_pow]
    rfl
  · have hd := decision_eq_false hle
    rw [exec_decodeBit_of_ge hs hc c, hd]
    simp only [codeAfter, hd, Bool.false_eq_true, if_false, codeHigh_eq, adapt, probDown, Config.adaptDnBias,
      Config.adaptShift, Nat.shiftRight_eq_div_pow]
    rfl
  · rw [← refilled_eq hc, exec_decodeBit hs, exec_decodeBit (s := refilled s) hs, decodeBit_refill hc hl]
  · rw [exec_decodeBit hs, decodeBit_truncated hc hl, Res.andThen_raise, settleValue_raise]

/-! ### How many bytes a refill takes -/

section RefillCount

variable {s t : State}

/-- A loop that ends from below 4096 has taken one byte and ends from there. -/
theorem renormalise_ok_refill (h : renormalise s = .ok () t) (hc : s.code.toNat < 4096) :
    renormalise (refilled s) = .ok () t ∧ (refilled s).inPos.toNat = s.inPos.toNat + 1 ∧
      (refilled s).code.toNat = s.code.toNat * 256 + (s.readIn s.inPos.toNat).toNat := by
  by_cases hl : s.inPos.toNat < s.inLen.toNat
  · exact ⟨renormalise_refill hc hl ▸ h, refilled_inPos_toNat hl, refilled_code_toNat hc⟩
  · rw [renormalise_truncated hc (by omega)] at h
    cases h

theorem renormalise_ok_of_ge (h : renormalise s = .ok () t) (hc : 4096 ≤ s.code.toNat) : t = s :=
  (Res.ok.inj ((renormalise_of_ge hc).symm.trans h)).2.symm

theorem renormalise_takes_one (h : renormalise s = .ok () t) (h16 : 16 ≤ s.code.toNat) (hc : s.code.toNat < 4096) :
    t.inPos.toNat = s.inPos.toNat + 1 := by
  obtain ⟨h, hpos, hcode⟩ := renormalise_ok_refill h hc
  rw [renormalise_ok_of_ge h (by omega), hpos]

theorem renormalise_takes_two (h : renormalise s = .ok () t) (h1 : 1 ≤ s.code.toNat) (hc : s.code.toNat < 16) :
    t.inPos.toNat = s.inPos.toNat + 2 := by
  obtain ⟨h, hpos, hcode⟩ := renormalise_ok_refill h (by omega)
  have hb := (s.readIn s.inPos.toNat).isLt
  rw [renormalise_takes_one h (by omega) (by omega), hpos]

/-- From CODE = 0 the loop takes `k` zero bytes, then the first nonzero byte and one or two more. -/
def TakesFromZero (s t : State) (k : Nat) : Prop :=
  (∀ j, j < k → s.readIn (s.inPos.toNat + j) = 0#8) ∧ s.readIn (s.inPos.toNat + k) ≠ 0#8 ∧
    t.inPos.toNat = s.inPos.toNat + k + (if 16 ≤ (s.readIn (s.inPos.toNat + k)).toNat then 2 else 3)

/-- The byte just taken was 0, so CODE is 0 again: count the zeros from the next byte on. -/
theorem TakesFromZero.succ {k : Nat} (hpos : (refilled s).inPos.toNat = s.inPos.toNat + 1)
    (hb : s.readIn s.inPos.toNat = 0#8) (h : TakesFromZero (refilled s) t k) : TakesFromZero s t (k + 1) := by
  obtain ⟨hzeros, hfirst, hcount⟩ := h
  have hread (j : Nat) : (refilled s).readIn ((refilled s).inPos.toNat + j) = s.readIn (s.inPos.toNat + (j + 1)) := by
    rw [hpos, State.readIn, State.readIn, refilled_inMem, add_assoc, add_comm 1]
  rw [hread] at hfirst hcount
  refine ⟨fun j hj => ?_, hfirst, by omega⟩
  cases j with
  | zero => exact hb
  | succ j => rw [← hread]; exact hzeros j (by omega)

theorem renormalise_from_zero (h : renormalise s = .ok () t) (hc : s.code.toNat = 0) : ∃ k, TakesFromZero s t k := by
  induction s using renormalise_induction with
  | done s h4096 => omega
  | dry s hlt hl =>
    rw [renormalise_truncated hlt hl] at h
    cases h
  | more s hlt hl ih =>
    obtain ⟨hnext, hpos, hcode⟩ := renormalise_ok_refill h hlt
    have hb := (s.readIn s.inPos.toNat).isLt
    by_cases hzero : s.readIn s.inPos.toNat = 0#8
    · obtain ⟨k, hk⟩ := ih hnext (by rw [hcode, hc, hzero]; rfl)
      exact ⟨k + 1, hk.succ hpos hzero⟩
    · have hpositive : (s.readIn s.inPos.toNat).toNat ≠ 0 := fun h => hzero (BitVec.eq_of_toNat_eq h)
      refine ⟨0, fun j hj => absurd hj (Nat.not_lt_zero j), hzero, ?_⟩
      rw [Nat.add_zero]
      by_cases h16 : 16 ≤ (s.readIn s.inPos.toNat).toNat
      · rw [if_pos h16, renormalise_takes_one hnext (by omega) (by omega), hpos]
      · rw [if_neg h16, renormalise_takes_two hnext (by omega) (by omega), hpos]

theorem renormalise_only_zeros (hc : s.code.toNat = 0)
    (hz : ∀ a, s.inPos.toNat ≤ a → a < s.inLen.toNat → s.readIn a = 0#8) :
    ∃ t, renormalise s = .raise .truncatedInput t := by
  induction s using renormalise_induction with
  | done s h4096 => omega
  | dry s hlt hl => exact ⟨s, renormalise_truncated hlt hl⟩
  | more s hlt hl ih =>
    rw [renormalise_refill hlt hl]
    refine ih (by rw [refilled_code_toNat hlt, hc, hz _ le_rfl hl]; rfl) fun a ha hl' => ?_
    rw [refilled_inPos_toNat hl] at ha
    exact hz a (by omega) hl'

end RefillCount

/-- Settles O12: one more iteration at a time, from 4096 down to 0. -/
theorem refillCounts : Obligations.RefillCounts := by
  refine fun s => ⟨fun t h => ?_, fun hc hz => renormalise_only_zeros hc hz⟩
  obtain ⟨honly, hge, -⟩ := (renormalise_post s).ok_of h
  exact ⟨honly, hge, renormalise_ok_of_ge h, renormalise_takes_one h, renormalise_takes_two h,
    renormalise_from_zero h⟩

/-! ### Ranges over the steps of a call -/

/-- What a step between live states does to PROBS and CODE: START's values, or those a reading leaves (R26). -/
theorem step_live_cases {s t : State} (hl : Live s) (h : step s = .next t) (hl' : Live t) :
    (∃ u, t = startCall u) ∨
      ∃ (C : Nat → Prop) (u : State), ReadKeeps C s u ∧ t.probs = u.probs ∧ t.code = u.code := by
  by_cases hs : s.status = .run
  · rcases step_run_cases hs h with ⟨i, u, -, -, -, hk, hc⟩ | ⟨f, u, -, rfl⟩
    · obtain ⟨hprobs, hcode, -⟩ := hc.frame
      exact .inr ⟨_, _, hk.read, hprobs, hcode⟩
    · rcases hl' with h | h <;> simp at h
  · rcases step_idle_cases hs h with ⟨-, rfl⟩ | ⟨q, -, rfl⟩ | ⟨w, q, -, rfl⟩
    · exact .inr ⟨fun _ => True, _, .refl _ _, rfl, rfl⟩
    · exact .inl ⟨_, rfl⟩
    · exact .inr ⟨fun _ => True, s, .refl _ s, by cases w <;> rfl, by cases w <;> rfl⟩

/-- Settles O13: START sets CODE to 0, a reading keeps the bound, a decision does not increase CODE. -/
theorem codeStaysBelowTwentyBits : Obligations.CodeStaysBelowTwentyBits := by
  refine ⟨fun s t h => ?start, fun s t hl hc h hl' => ?step, fun b s hc => ?refill, codeAfter_le,
    fun s t hc h => ?renormalise⟩
  case start => rw [eq_startCall_of_exec h, startCall_code]; decide
  case step =>
    rcases step_live_cases hl h hl' with ⟨u, rfl⟩ | ⟨C, u, hk, -, hcode⟩
    · rw [startCall_code]; decide
    · rw [hcode]; exact hk.code hc
  case refill =>
    have hb := b.isLt
    rw [refill_code_toNat hc]
    omega
  case renormalise =>
    obtain ⟨-, hge, -, hlt, -⟩ := (renormalise_post s).ok_of h
    exact ⟨hge, hlt hc⟩

/-- An update moves an entry by at most 16, and keeps it above 0 (R12, R72). -/
theorem adapt_near {p : Byte} (hp : 1 ≤ p.toNat) (b : Bool) :
    1 ≤ (adapt p b).toNat ∧ (adapt p b).toNat ≤ p.toNat + 16 ∧ p.toNat ≤ (adapt p b).toNat + 16 := by
  have hlt := p.isLt
  cases b
  · simp only [adapt, Bool.false_eq_true, if_false, probDown_toNat]; omega
  · simp only [adapt, if_true, probUp_toNat]; omega

/-- Settles O14: by the laws of one update, by START's table, and by what a reading keeps. -/
theorem probabilitiesStayInRange : Obligations.ProbabilitiesStayInRange := by
  have start (s : State) (i : Nat) (hi : i < 385) :
      7 ≤ ((startCall s).getProb i).toNat ∧ ((startCall s).getProb i).toNat ≤ 249 := by
    rw [startCall_getProb s hi]; decide
  refine ⟨fun p b hp => ?update, fun s t h i hi => ?start, fun s t hl hp h hl' i hi => ?positive,
    fun s t hl hp h hl' i hi => ?range⟩
  case update =>
    obtain ⟨h1, h2, h3⟩ := adapt_near hp b
    exact ⟨h1, h2, h3, fun h7 h249 => adapt_range ⟨h7, h249⟩ b, probUp_eq_self_iff p, probDown_eq_self_iff p⟩
  case start => rw [eq_startCall_of_exec h]; exact start s i hi
  case positive =>
    have hlt := (t.getProb i).isLt
    rcases step_live_cases hl h hl' with ⟨u, rfl⟩ | ⟨C, u, hk, hprobs, -⟩
    · have := start u i hi
      omega
    · have := hk.positive hp i hi
      rw [← State.getProb_congr hprobs] at this
      omega
  case range =>
    rcases step_live_cases hl h hl' with ⟨u, rfl⟩ | ⟨C, u, hk, hprobs, -⟩
    · exact start u i hi
    · rw [State.getProb_congr hprobs]; exact hk.range hp i hi

end Sys2Proof.Machine
end

section
/-! PROOF. DECODE_UINT and DECODE_LITERAL on their own (spec 41_integer_decoder.md, 42_literal_tree.md): what they read,
what they leave unchanged, and where they complete (10_state.md R26, 40_bit_predictor.md R70). -/

namespace Sys2Proof.Machine

theorem exec_decodeUint {s : State} (hs : s.status = .run) (b : UintBase) :
    exec (.decodeUint b) s = settleValue (decodeUint b s) := by
  simp only [exec, execDecodeUint, whileRunning_run hs]

theorem exec_decodeLiteral {s : State} (hs : s.status = .run) :
    exec .decodeLiteral s = settleValue ((decodeLiteral s).andThen fun b t => .ok b.toNat t) := by
  simp only [exec, execDecodeLiteral, whileRunning_run hs]

/-! ### What they read -/

theorem decodeUint_of_follow {b : UintBase} {v : Nat} {s t : State} (h1 : 1 ≤ v) (h2 : v < 2 ^ 32)
    (h : follow (encodeUint .msbFirst (uintBase Config.upkr b) v) s = some t) : decodeUint b s = .ok v t :=
  readUint_of_follow h1 h2 (by rwa [follow_machine])

theorem follow_of_decodeUint {b : UintBase} {v : Nat} {s t : State} (h : decodeUint b s = .ok v t) :
    1 ≤ v ∧ v < 2 ^ 32 ∧ follow (encodeUint .msbFirst (uintBase Config.upkr b) v) s = some t := by
  rw [← follow_machine]
  exact follow_of_readUint h

/-- Settles O15: a source that goes through the code of `v` reads `v`. -/
theorem uintReadsItsCode : Obligations.UintReadsItsCode := by
  intro b v s t hs h1 h2 h
  rw [exec_decodeUint hs, decodeUint_of_follow h1 h2 h]
  rfl

/-- Settles O18: a source that goes through the path of `b` reads `b`. -/
theorem literalReadsItsCode : Obligations.LiteralReadsItsCode := by
  intro b s t hs h
  have hread : decodeLiteral s = .ok b t := readLiteral_of_follow (by rwa [follow_machine])
  rw [exec_decodeLiteral hs, hread, Res.andThen_ok, settleValue_ok, BitVec.ofNat_toNat]
  rfl

theorem encodeUint_one (order : BitOrder) (base : Nat) : encodeUint order base 1 = [(base, false)] := rfl

/-- Settles O16: the code of 1 is one decision, and a value read has gone through its code. -/
theorem uintIsOneOnAFirstZero : Obligations.UintIsOneOnAFirstZero := by
  intro b s hs hc
  have hfirst := decodeBit_of_ge (c := uintBase Config.upkr b) hc
  refine ⟨fun hle => ?zero, fun hlt => ?one⟩
  case zero =>
    rw [decision_eq_false hle] at hfirst
    have hone : decodeUint b s = .ok 1 (decide1 (uintBase Config.upkr b) s) :=
      decodeUint_of_follow le_rfl (by norm_num)
        (by rw [encodeUint_one]; exact follow_cons_machine.2 ⟨_, hfirst, rfl⟩)
    rw [exec_decodeUint hs, hone]
    rfl
  case one =>
    rw [(decision_iff _ _).2 hlt] at hfirst
    rw [exec_decodeUint hs]
    cases hd : decodeUint b s with
    | raise f t => exact ⟨_, rfl, fun h => by simp at h⟩
    | ok v t =>
      obtain ⟨hpos, hv, hf⟩ := follow_of_decodeUint hd
      have hne : v ≠ 1 := by
        rintro rfl
        rw [encodeUint_one] at hf
        obtain ⟨u, hzero, -⟩ := follow_cons_machine.1 hf
        rw [hfirst] at hzero
        cases hzero
      refine ⟨_, rfl, fun _ => ?_⟩
      rw [State.setRet_ret, BitVec.toNat_ofNat]
      omega

/-- As many pairs with continue bit 1 as there are positions left end in UintOverflow, whatever the value bits (R83). -/
theorem readUintFrom_overflow {σ : Type} {src : Source σ} {order : BitOrder} {base left pos m : Nat} {s t : σ}
    {ds : List Decision} (hlen : ds.length = 2 * left)
    (hds : ∀ i, i < left → ds[2 * i]? = some (base + 2 * (pos + i), true) ∧
      ∃ d, ds[2 * i + 1]? = some (base + 2 * (pos + i) + 1, d))
    (h : src.follow ds s = some t) : readUintFrom order src base left pos m s = .raise .uintOverflow t := by
  induction left generalizing pos m s ds with
  | zero =>
    obtain rfl := List.length_eq_zero_iff.1 hlen
    obtain rfl := Option.some.inj h
    rfl
  | succ left ih =>
    obtain ⟨c, v, rest, rfl⟩ : ∃ c v rest, ds = c :: v :: rest := by
      match ds, hlen with
      | c :: v :: rest, _ => exact ⟨c, v, rest, rfl⟩
    obtain ⟨hc, d, hv⟩ := hds 0 (by omega)
    obtain rfl := Option.some.inj hc
    obtain rfl := Option.some.inj hv
    obtain ⟨u, hcont, h⟩ := follow_cons.1 h
    obtain ⟨w, hval, h⟩ := follow_cons.1 h
    have hrest := ih (pos := pos + 1) (m := foldValueBit order m pos d)
      (by simp only [List.length_cons] at hlen; omega) (fun i hi => ?_) h
    · simp only [readUintFrom, continueCtx, valueCtx]
      rw [show src.bit (base + 2 * pos) s = .ok true u from hcont, Res.andThen_ok, if_pos rfl,
        show src.bit (base + 2 * pos + 1) u = .ok d w from hval, Res.andThen_ok, hrest]
    · have hi := hds (i + 1) (by omega)
      rwa [show 2 * (i + 1) = 2 * i + 1 + 1 by omega, List.getElem?_cons_succ, List.getElem?_cons_succ,
        List.getElem?_cons_succ, List.getElem?_cons_succ, show pos + (i + 1) = pos + 1 + i by omega] at hi

/-- The code of 2^32 - 1: 31 pairs of ones and a 0 (R83). -/
theorem encodeUint_top (b : UintBase) :
    encodeUint .msbFirst (uintBase Config.upkr b) (2 ^ 32 - 1) =
      (List.range 62).map (fun k => (uintBase Config.upkr b + k, true)) ++
        [(uintBase Config.upkr b + 62, false)] := by
  cases b <;> rfl

/-- Settles O17: 32 pairs leave no position; a value read touches its region only; 2^32 - 1 has its own code. -/
theorem uintStaysInItsRegion : Obligations.UintStaysInItsRegion := by
  refine ⟨fun b ds s t hs hlen hds h => ?overflow, fun b v s t h => ?region, fun b s t h => ?top⟩
  case overflow =>
    have hraise : decodeUint b s = .raise .uintOverflow t :=
      readUintFrom_overflow hlen (by simpa only [Nat.zero_add] using hds) (by rwa [follow_machine])
    exact ⟨hraise, by rw [exec_decodeUint hs, hraise, settleValue_raise]⟩
  case region =>
    obtain ⟨⟨hpos, hlt⟩, hk⟩ := (decodeUint_post b s).ok_of h
    exact ⟨⟨hpos, by omega⟩, fun i hi => hk.others i (by simp only [Config.uintSlots]; omega)⟩
  case top => exact decodeUint_of_follow (by norm_num) (by norm_num) (by rwa [encodeUint_top])

/-! ### What they leave unchanged -/

/-- What a decoding micro-operation ends in: a value with `P` in RET and nothing but PROBS (at contexts of `C`), CODE
and IN_POS changed, or a fault with `E` (R26). -/
def DecodesTo (C : Nat → Prop) (P : Nat → Prop) (E : FaultName → Prop) (s t : State) : Prop :=
  (t = { s with probs := t.probs, code := t.code, inPos := t.inPos, ret := t.ret } ∧ P t.ret.toNat ∧
    ∀ i, ¬ C i → t.getProb i = s.getProb i) ∨
  (t.status = .fault ∧ ∃ f, t.cause = some f ∧ E f)

theorem settleValue_decodesTo {C P : Nat → Prop} {E : FaultName → Prop} {s : State} {r : Res State Nat}
    (hr : r.Post (fun v u => (v < 2 ^ 32 ∧ P v) ∧ ReadKeeps C s u) (fun f _ => E f)) :
    ∃ t, settleValue r = .next t ∧ DecodesTo C P E s t := by
  cases r with
  | raise f u => exact ⟨_, rfl, .inr ⟨takeFault_status f u, f, takeFault_cause f u, hr⟩⟩
  | ok v u =>
    obtain ⟨⟨hlt, hv⟩, hk⟩ := hr
    refine ⟨_, rfl, .inl ⟨?_, ?_, hk.others⟩⟩
    · have honly := hk.only
      unfold OnlyPredictor at honly
      rw [honly]
      rfl
    · rwa [State.setRet_ret, BitVec.toNat_ofNat, Nat.mod_eq_of_lt hlt]

theorem decodeBit_value (c : Nat) (s : State) :
    ((decodeBit c s).andThen fun b u => .ok b.toNat u).Post
      (fun v u => (v < 2 ^ 32 ∧ v ≤ 1) ∧ ReadKeeps (· = c) s u) (fun f _ => f = .truncatedInput) :=
  (decodeBit_value_post c s).mono (fun v _ ⟨hv, hk⟩ => ⟨⟨by omega, hv⟩, hk⟩) fun _ _ ⟨_, hf, _⟩ => hf

theorem decodeUint_value (b : UintBase) (s : State) :
    (decodeUint b s).Post
      (fun v u => (v < 2 ^ 32 ∧ 1 ≤ v) ∧
        ReadKeeps (fun i => uintBase Config.upkr b ≤ i ∧ i < uintBase Config.upkr b + Config.uintSlots) s u)
      (fun f _ => f = .truncatedInput ∨ f = .uintOverflow) :=
  (decodeUint_post b s).mono (fun _ _ ⟨hv, hk⟩ => ⟨hv.symm, hk⟩) fun _ _ ⟨_, hf⟩ => hf.imp And.left id

/-- A byte has no positions to run out of: DECODE_LITERAL raises TruncatedInput only (R90, R131). -/
theorem decodeLiteral_value (s : State) :
    ((decodeLiteral s).andThen fun b u => .ok b.toNat u).Post
      (fun v u => (v < 2 ^ 32 ∧ v < 256) ∧ ReadKeeps (fun i => 1 ≤ i ∧ i ≤ 255) s u)
      (fun f _ => f = .truncatedInput) := by
  refine Res.Post.andThen (P := fun _ => ReadKeeps (fun i => 1 ≤ i ∧ i ≤ 255) s) ?_
    fun b u hk => ⟨⟨by have := b.isLt; omega, b.isLt⟩, hk⟩
  refine readLiteral_post (C := fun i => 1 ≤ i ∧ i ≤ 255) (I := ReadKeeps _ s) (fun n h1 h2 => ?_)
    (fun c t hc ht => ?_) (.refl _ s)
  · simp only [nodeCtx, Config.upkr, Config.nLit] at *
    omega
  · exact (decodeBit_keeps c t _ hc).mono (fun _ _ h => ht.trans h) fun _ _ h => h.1

/-- Settles O19: each micro-operation ends in its value or in one of its faults. -/
theorem decodersOutcomes : Obligations.DecodersOutcomes := by
  refine fun s hs => ⟨fun c => ?bit, fun b => ?uint, ?literal⟩
  case bit =>
    obtain ⟨t, ht, hd⟩ := settleValue_decodesTo (decodeBit_value c s)
    refine ⟨t, (exec_decodeBit hs c).trans ht, ?_⟩
    rcases hd with hd | ⟨hst, f, hcause, rfl⟩
    · exact .inl hd
    · exact .inr ⟨hst, hcause⟩
  case uint =>
    obtain ⟨t, ht, hd⟩ := settleValue_decodesTo (decodeUint_value b s)
    refine ⟨t, (exec_decodeUint hs b).trans ht, ?_⟩
    rcases hd with ⟨heq, hv, hothers⟩ | ⟨hst, f, hcause, hf⟩
    · exact .inl ⟨heq, hv, fun i hi => hothers i (by simp only [Config.uintSlots]; omega)⟩
    · exact .inr ⟨hst, by rcases hf with rfl | rfl <;> simp [hcause]⟩
  case literal =>
    obtain ⟨t, ht, hd⟩ := settleValue_decodesTo (decodeLiteral_value s)
    refine ⟨t, (exec_decodeLiteral hs).trans ht, ?_⟩
    rcases hd with ⟨heq, hv, hothers⟩ | ⟨hst, f, hcause, rfl⟩
    · exact .inl ⟨heq, hv, fun i hi => hothers i (by omega)⟩
    · exact .inr ⟨hst, hcause⟩

/-! ### Where they complete -/

theorem NonzeroInput.mono {m n : Nat} {s : State} (h : NonzeroInput m s) (hn : n ≤ m) : NonzeroInput n s :=
  ⟨by have := h.1; omega, fun j hj => h.2 j (by omega)⟩

theorem NonzeroInput.refilled {n : Nat} {s : State} (h : NonzeroInput (n + 1) s) :
    s.inPos.toNat < s.inLen.toNat ∧ 1 ≤ (s.readIn s.inPos.toNat).toNat ∧ NonzeroInput n (refilled s) := by
  obtain ⟨hlen, hbytes⟩ := h
  have hl : s.inPos.toNat < s.inLen.toNat := by omega
  have hpos := refilled_inPos_toNat hl
  refine ⟨hl, ?_, by rw [hpos, refilled_inLen]; omega, fun j hj => ?_⟩
  · have hne := hbytes 0 (by omega)
    rw [ne_eq, ← BitVec.toNat_inj] at hne
    exact Nat.one_le_iff_ne_zero.2 hne
  · have hne := hbytes (j + 1) (by omega)
    rwa [add_comm j, ← add_assoc, ← hpos] at hne

theorem NonzeroInput.decide1 {n : Nat} {s : State} (h : NonzeroInput n s) (c : Nat) :
    NonzeroInput n (decide1 c s) := by
  simpa [NonzeroInput, State.readIn] using h

/-- `k` bytes are enough where they bring CODE to 4096, whatever they are: no fault is raised, so any `E` holds of it. -/
theorem renormalise_of_bytes {E : FaultName → State → Prop} {k n : Nat} {s : State} (hc : 4096 ≤ s.code.toNat * 256 ^ k)
    (h : NonzeroInput (n + k) s) : (renormalise s).Post (fun _ t => NonzeroInput n t) E := by
  induction k generalizing s with
  | zero =>
    rw [renormalise_of_ge (by omega)]
    exact h
  | succ k ih =>
    by_cases hge : 4096 ≤ s.code.toNat
    · rw [renormalise_of_ge hge]
      exact h.mono (by omega)
    · obtain ⟨hl, -, hnext⟩ := NonzeroInput.refilled (n := n + k) h
      rw [renormalise_refill (by omega) hl]
      refine ih (hc.trans ?_) hnext
      rw [refilled_code_toNat (by omega), pow_succ', ← mul_assoc]
      exact Nat.mul_le_mul_right _ (Nat.le_add_right _ _)

/-- The loop takes at most three bytes when none is 0: one that makes CODE nonzero, and two (R70). -/
theorem renormalise_of_nonzero {E : FaultName → State → Prop} {n : Nat} {s : State} (h : NonzeroInput (n + 3) s) :
    (renormalise s).Post (fun _ t => NonzeroInput n t) E := by
  by_cases hc : 1 ≤ s.code.toNat
  · exact renormalise_of_bytes (k := 2) (by omega) (h.mono (by omega))
  · obtain ⟨hl, hb, hnext⟩ := NonzeroInput.refilled (n := n + 2) h
    rw [renormalise_refill (by omega) hl]
    exact renormalise_of_bytes (k := 2) (by rw [refilled_code_toNat (by omega)]; omega) hnext

theorem decodeBit_of_nonzero {E : FaultName → State → Prop} {n : Nat} {s : State} (c : Nat) (h : NonzeroInput (n + 3) s) :
    (decodeBit c s).Post (fun _ t => NonzeroInput n t) E :=
  (renormalise_of_nonzero h).andThen fun _ _ ht => ht.decide1 c

theorem readTree_of_nonzero {k node : Nat} {s : State} (h : NonzeroInput (3 * k) s) :
    (readTree Config.upkr machineSource k node s).Post (fun _ _ => True) (fun _ _ => False) := by
  induction k generalizing node s with
  | zero => trivial
  | succ k ih => exact (decodeBit_of_nonzero _ h).andThen fun _ _ ht => ih ht

theorem decodeLiteral_of_nonzero {s : State} (h : NonzeroInput 24 s) :
    (decodeLiteral s).Post (fun _ _ => True) (fun _ _ => False) :=
  (readTree_of_nonzero (k := 8) h).andThen fun _ _ _ => trivial

theorem readUintFrom_of_nonzero {order : BitOrder} {base left pos m : Nat} {s : State}
    (h : NonzeroInput (6 * left) s) :
    (readUintFrom order machineSource base left pos m s).Post (fun _ _ => True) (fun f _ => f = .uintOverflow) := by
  induction left generalizing pos m s with
  | zero => exact rfl
  | succ left ih =>
    refine (decodeBit_of_nonzero (n := 6 * left + 3) _ h).andThen fun c t ht => ?_
    cases c
    · trivial
    · exact (decodeBit_of_nonzero _ ht).andThen fun d u hu => ih hu

theorem Res.Post.and {σ α : Type} {P P' : α → σ → Prop} {E E' : FaultName → σ → Prop} {r : Res σ α}
    (h : r.Post P E) (h' : r.Post P' E') : r.Post (fun a s => P a s ∧ P' a s) (fun e s => E e s ∧ E' e s) := by
  cases r
  · exact ⟨h, h'⟩
  · exact ⟨h, h'⟩

/-- A micro-operation that raises no fault but those of `F` completes, or takes one of them. -/
theorem settleValue_completes {C P : Nat → Prop} {E F : FaultName → Prop} {s : State} {r : Res State Nat}
    (hs : s.status = .run) (hr : r.Post (fun v u => (v < 2 ^ 32 ∧ P v) ∧ ReadKeeps C s u) (fun f _ => E f))
    (hF : r.Post (fun _ _ => True) (fun f _ => F f)) :
    ∃ t, settleValue r = .next t ∧ ((t.status = .run ∧ P t.ret.toNat) ∨ ∃ f, t.cause = some f ∧ F f) := by
  obtain ⟨t, ht, ⟨heq, hv, -⟩ | ⟨-, f, hcause, -, hf⟩⟩ :=
    settleValue_decodesTo ((hr.and hF).mono (fun _ _ h => h.1) fun _ _ h => h)
  · exact ⟨t, ht, .inl ⟨by rw [heq]; exact hs, hv⟩⟩
  · exact ⟨t, ht, .inr ⟨f, hcause, hf⟩⟩

/-- Settles O20: three nonzero bytes are enough for a decision, of which a byte has 8 and an integer at most 64. -/
theorem decodersCompleteOnNonzeroInput : Obligations.DecodersCompleteOnNonzeroInput := by
  refine fun s hs => ⟨fun c h => ?bit, fun h => ?literal, fun b h => ?uint⟩
  case bit =>
    have hno : ((decodeBit c.val s).andThen fun b u => .ok b.toNat u).Post (fun _ _ => True) (fun _ _ => False) :=
      (decodeBit_of_nonzero (n := 0) c.val h).andThen fun _ _ _ => trivial
    obtain ⟨t, ht, hd | ⟨f, -, hf⟩⟩ := settleValue_completes hs (decodeBit_value c.val s) hno
    · exact ⟨t, (exec_decodeBit hs c).trans ht, hd⟩
    · exact hf.elim
  case literal =>
    have hno : ((decodeLiteral s).andThen fun b u => .ok b.toNat u).Post (fun _ _ => True) (fun _ _ => False) :=
      (decodeLiteral_of_nonzero h).andThen fun _ _ _ => trivial
    obtain ⟨t, ht, hd | ⟨f, -, hf⟩⟩ := settleValue_completes hs (decodeLiteral_value s) hno
    · exact ⟨t, (exec_decodeLiteral hs).trans ht, hd⟩
    · exact hf.elim
  case uint =>
    obtain ⟨t, ht, hd⟩ := settleValue_completes hs (decodeUint_value b s) (readUintFrom_of_nonzero (left := 32) h)
    refine ⟨t, (exec_decodeUint hs b).trans ht, hd.imp id ?_⟩
    rintro ⟨f, hcause, rfl⟩
    exact hcause

end Sys2Proof.Machine
end

section
/-! PROOF. COPY_MATCH and the symbols on their own: what each leaves where it completes, and the faults of a match in
their order (spec 43_symbol_grammar.md R96 to R101, 44_copy_engine.md R110 to R112). -/

namespace Sys2Proof.Machine

theorem exec_copyMatch {s : State} (hs : s.status = .run) (o l : Word) :
    exec (.copyMatch o l) s = settle (copyMatch o l s) := by
  simp only [exec, execCopyMatch, whileRunning_run hs]

/-! ### What a copy leaves -/

/-- `n` bytes from OUT_POS on repeat the `o` bytes before it, and every other byte is as before (R112). -/
structure Repeats (o n : Nat) (s t : State) : Prop where
  outPos : t.outPos.toNat = s.outPos.toNat + n
  others : ∀ a, a < s.outPos.toNat ∨ s.outPos.toNat + n ≤ a → t.readOut a = s.readOut a
  bytes : ∀ i, i < n → t.readOut (s.outPos.toNat + i) = s.readOut (s.outPos.toNat - o + i % o)

/-- Each byte of a copy equals the one `o` before it, copied or not. -/
theorem Repeats.self_reference {o n : Nat} {s t : State} (h : Repeats o n s t) (hreach : o ≤ s.outPos.toNat)
    {j : Nat} (h1 : s.outPos.toNat ≤ j) (h2 : j < s.outPos.toNat + n) : t.readOut j = t.readOut (j - o) := by
  obtain ⟨i, rfl⟩ := Nat.exists_eq_add_of_le h1
  rw [h.bytes i (by omega)]
  by_cases hi : i < o
  · rw [h.others _ (by omega), Nat.mod_eq_of_lt hi]
    congr 1
    omega
  · obtain ⟨k, rfl⟩ := Nat.exists_eq_add_of_le (Nat.not_lt.1 hi)
    rw [show s.outPos.toNat + (o + k) - o = s.outPos.toNat + k by omega, h.bytes k (by omega), Nat.add_mod_left]

theorem copyBytes_repeats {o l : Word} {s : State} (hw : Memory.wf s.outMem = true) (nonzero : 1 ≤ o.toNat)
    (reach : o.toNat ≤ s.outPos.toNat) (room : s.outPos.toNat + l.toNat ≤ s.outCap.toNat) :
    Repeats o.toNat l.toNat s (copyBytes o l.toNat s) := by
  obtain ⟨hpos, -, hothers, hbytes⟩ := copyBytes_spec nonzero l.toNat s reach room hw
  exact ⟨hpos, hothers, hbytes⟩

/-- Settles O21: the closed form is the copy's, and the self-reference follows from it. -/
theorem copyRepeatsThePattern : Obligations.CopyRepeatsThePattern := by
  intro s o l hs hw nonzero reach room
  have hrep := copyBytes_repeats hw nonzero reach room
  refine ⟨copyBytes o l.toNat s, ?_, copyBytes_onlyOut o l.toNat s, hrep.outPos, hrep.others, hrep.bytes,
    fun j h1 h2 => hrep.self_reference reach h1 h2⟩
  rw [exec_copyMatch hs, copyMatch_ok nonzero reach room, settle_ok]

/-! ### The checks of a match -/

/-- A fault of COPY_MATCH is taken by the micro-operation and by each match, before any byte moves (R111). -/
theorem exec_match_fault {s : State} {o l : Word} {f : FaultName} (hs : s.status = .run)
    (hf : ∀ p, copyMatch o l (s.setOffset p) = .raise f (s.setOffset p)) :
    exec (.copyMatch o l) s = .next (takeFault f s) ∧
    (s.pwm = false → exec (.matchnPwm0 o l) s = .next (takeFault f { s with offset := o })) ∧
    (s.pwm = true → exec (.matchnPwm1 o l) s = .next (takeFault f { s with offset := o })) ∧
    (s.pwm = false → s.offset = o → exec (.matchr l) s = .next (takeFault f s)) := by
  have hself : copyMatch o l s = .raise f s := hf s.offset
  have hnew : newMatch o l s = .raise f (s.setOffset o) := by simp [newMatch, matchTail, hf]
  refine ⟨?_, fun hp => ?_, fun hp => ?_, fun hp ho => ?_⟩
  · rw [exec_copyMatch hs, hself, settle_raise]
  · simp only [exec, execMatchnPwm0, whileRunning_run hs, inMode_eq hp, hnew]; rfl
  · simp only [exec, execMatchnPwm1, whileRunning_run hs, inMode_eq hp, hnew]; rfl
  · subst ho
    simp only [exec, execMatchr, whileRunning_run hs, inMode_eq hp, matchTail_eq_newMatch, hnew]; rfl

/-- Settles O22: COPY_MATCH's two checks, then its bound on the bytes it writes. -/
theorem copyChecksInOrder : Obligations.CopyChecksInOrder := by
  intro s o l hs
  refine ⟨fun bad => ?invalid, fun nonzero reach full => ?overflow, fun nonzero reach room => ?room⟩
  case invalid => exact exec_match_fault hs fun _ => copyMatch_invalid bad
  case overflow => exact exec_match_fault hs fun _ => copyMatch_overflow nonzero reach full
  case room =>
    obtain ⟨-, -, -, -, -, hst, -⟩ := (copyBytes_onlyOut o l.toNat s).fields
    refine ⟨copyBytes o l.toNat s, ?_, hst.trans hs, copyBytes_outPos room,
      fun hw a ha => (copyBytes_output hw nonzero reach room).others a (.inr ha)⟩
    rw [exec_copyMatch hs, copyMatch_ok nonzero reach room, settle_ok]

/-! ### The symbols -/

/-- Settles O23: Emit writes one byte at OUT_POS, or raises where there is no room. -/
theorem litEmitsItsByte : Obligations.LitEmitsItsByte := by
  refine fun s b hs => ⟨fun hw room => ?_, fun full => ?_⟩
  · exact ⟨clearPwm (putByte b s), (Completes.lit b room).exec_eq hs rfl, rfl, putByte_outPos_toNat room,
      putByte_readOut hw⟩
  · simp only [exec, execLit, whileRunning_run hs, emit_of_le full, Res.andThen_raise, settle_raise]

/-- A match of either kind, executed in its mode: OFFSET, PWM and the copy, and nothing else (R101). -/
theorem exec_match_copies {s : State} {i : Instr} {o l : Word} (hs : s.status = .run)
    (hm : i.existsInMode s.pwm = true)
    (form : i = .matchnPwm0 o l ∨ i = .matchnPwm1 o l ∨ (i = .matchr l ∧ o = s.offset))
    (hw : Memory.wf s.outMem = true) (nonzero : 1 ≤ o.toNat) (reach : o.toNat ≤ s.outPos.toNat)
    (room : s.outPos.toNat + l.toNat ≤ s.outCap.toNat) :
    ∃ t, exec i s = .next t ∧ t = { s with offset := o, outPos := t.outPos, outMem := t.outMem, pwm := true } ∧
      Repeats o.toNat l.toNat s t := by
  have hrep := copyBytes_repeats (s := s.setOffset o) hw nonzero reach room
  have honly := copyBytes_onlyOut o l.toNat (s.setOffset o)
  refine ⟨_, (Completes.copied i o l form nonzero reach room).exec_eq hs hm, ?_, hrep.outPos, hrep.others, hrep.bytes⟩
  unfold OnlyOut at honly
  rw [honly]
  rfl

/-- Settles O24: both forms are the match with a new offset, each in its mode. -/
theorem newOffsetMatchCopies : Obligations.NewOffsetMatchCopies := by
  intro s i o l hs hi hw nonzero reach room
  have hm : i.existsInMode s.pwm = true := by
    rcases hi with ⟨rfl, hp⟩ | ⟨rfl, hp⟩ <;> rw [hp] <;> rfl
  have form : i = .matchnPwm0 o l ∨ i = .matchnPwm1 o l ∨ (i = .matchr l ∧ o = s.offset) :=
    hi.imp And.left (.inl ·.1)
  obtain ⟨t, ht, heq, hrep⟩ := exec_match_copies hs hm form hw nonzero reach room
  exact ⟨t, ht, heq, hrep.outPos, hrep.others, hrep.bytes⟩

/-- Settles O25: the match whose offset is OFFSET. -/
theorem repeatMatchReusesOffset : Obligations.RepeatMatchReusesOffset := by
  intro s l hs hp hw nonzero reach room
  obtain ⟨t, ht, heq, hrep⟩ :=
    exec_match_copies hs (i := .matchr l) (by rw [hp]; rfl) (.inr (.inr ⟨rfl, rfl⟩)) hw nonzero reach room
  exact ⟨t, ht, heq, hrep.outPos, hrep.others, hrep.bytes⟩

end Sys2Proof.Machine
end

section
/-! PROOF. The fetch of a symbol and the step that runs it (spec 10_state.md R26, 43_symbol_grammar.md R97, R102,
R103, 60_exceptions.md R131). -/

namespace Sys2Proof.Machine

/-- Settles O34: the fetch's frame, with OFFSET as the symbol says. -/
theorem fetchTouchesOnlyThePredictor : Obligations.FetchTouchesOnlyThePredictor := by
  intro s i t h
  obtain ⟨⟨hw, -⟩, hk⟩ := (fetchSymbol_post s).ok_of h
  refine ⟨hw, ?_, hk.read.forward, fetchSymbol_offset h⟩
  exact congrArg (State.setOffset · t.offset) hk.read.only

/-- Settles O37: what the reading of a symbol raises is raised where `RaisedAt` says. -/
theorem readingRaisesOnlyWhenItMust : Obligations.ReadingRaisesOnlyWhenItMust :=
  fun s _ _ h => ((fetchSymbol_post s).raise_of h).2

/-- Settles O38: in RUN a symbol or a fault, outside it a move of the host, of which START is accepted. -/
theorem stepAlwaysAnswers : Obligations.StepAlwaysAnswers := by
  intro s
  by_cases hs : s.status = .run
  · exact step_run_next hs
  · simp only [step, hs, if_false]
    match s.hostQ with
    | [] => exact ⟨_, rfl⟩
    | .start :: q => exact ⟨_, exec_start_of_not_run (s := s.setHostQ q) hs⟩
    | .write w :: q => exact ⟨_, rfl⟩

/-- Settles O36: a completed match sets PWM, and no MATCHR is fetched while PWM = 1. -/
theorem repeatMatchesAreNeverAdjacent : Obligations.RepeatMatchesAreNeverAdjacent := by
  intro s s1 t u i j l hs hi hmatch ht hrun hj
  obtain ⟨i', s1', hi', -, -, hc⟩ := step_run_completes hs ht (by simp [hrun])
  obtain ⟨rfl, rfl⟩ := Res.ok.inj (hi.symm.trans hi')
  have hpwm : t.pwm = true := by
    cases hc with
    | lit b room => simp at hmatch
    | copied i o l form nonzero reach room => rfl
    | ended i form => rcases form with rfl | rfl <;> simp at hmatch
  refine ⟨hpwm, ?_⟩
  rintro rfl
  obtain ⟨⟨-, hm⟩, -⟩ := (fetchSymbol_post t).ok_of hj
  rw [hpwm] at hm
  cases hm

/-! ### The entry at CTX_OFFSEL -/

theorem setProb_comm (s : State) {i j : Nat} (h : i ≠ j) (p q : Byte) :
    (s.setProb i p).setProb j q = (s.setProb j q).setProb i p := by
  unfold State.setProb
  by_cases hi : i < Config.nprobs <;> by_cases hj : j < Config.nprobs <;> simp [hi, hj, Vector.set_comm _ _ h]

/-- A decision at another context neither reads nor writes the entry at `k`. -/
theorem decide1_setProb {c k : Nat} (h : c ≠ k) (s : State) (p : Byte) :
    decide1 c (s.setProb k p) = (decide1 c s).setProb k p := by
  have hread : (s.setProb k p).getProb c = s.getProb c := by
    rw [State.getProb_setProb, if_neg fun h' => h h'.1.symm]
  have hcode (v : Word) : (s.setProb k p).setCode v = (s.setCode v).setProb k p := by
    unfold State.setProb
    split <;> rfl
  rw [decide1, hread, State.setProb_code, hcode, setProb_comm _ h.symm]
  rfl

/-- The same state but for the entry at `k`. -/
def ButEntry (k : Nat) (p : Byte) (s t : State) : Prop := t = s.setProb k p

theorem refilled_setProb (k : Nat) (p : Byte) (s : State) : refilled (s.setProb k p) = (refilled s).setProb k p := by
  unfold State.setProb
  split <;> rfl

theorem renormalise_butEntry (k : Nat) (p : Byte) (s : State) :
    Res.Same (ButEntry k p) (fun _ _ => True) (renormalise s) (renormalise (s.setProb k p)) := by
  induction s using renormalise_induction with
  | done s hc =>
    rw [renormalise_of_ge hc, renormalise_of_ge (by simpa using hc)]
    exact ⟨rfl, rfl⟩
  | dry s hc hl =>
    rw [renormalise_truncated hc hl, renormalise_truncated (by simpa using hc) (by simpa using hl)]
    exact ⟨rfl, trivial⟩
  | more s hc hl ih =>
    rw [renormalise_refill hc hl,
      renormalise_refill (s := s.setProb k p) (by simpa using hc) (by simpa using hl), refilled_setProb]
    exact ih

theorem decodeBit_butEntry {c k : Nat} (h : c ≠ k) (p : Byte) {s t : State} (ht : ButEntry k p s t) :
    Res.Same (ButEntry k p) (fun _ _ => True) (decodeBit c s) (decodeBit c t) := by
  subst ht
  refine (renormalise_butEntry k p s).andThen fun _ u _ hu => ?_
  subst hu
  refine ⟨?_, decide1_setProb h u p⟩
  rw [State.getProb_setProb, if_neg fun h' => h h'.1.symm, State.setProb_code]

/-- With PWM = 1 the entry at CTX_OFFSEL takes no part in the fetch (R97). -/
theorem fetchSymbol_butEntry {s : State} (hp : s.pwm = true) (p : Byte) :
    Res.Same (ButEntry 256 p) (fun _ _ => True) (fetchSymbol s) (fetchSymbol (s.setProb 256 p)) := by
  unfold fetchSymbol
  rw [State.setProb_pwm, hp]
  refine readSymbol_same (C := fun c => c ≠ 256) (by decide) (fun h => Bool.noConfusion h) (fun n h1 h2 => ?_)
    (fun k hk => ?_) (fun k hk => ?_) (fun c s t hc ht => decodeBit_butEntry hc p ht) (fun _ _ _ => trivial)
    (fun o s t ht => ?_) rfl
  · simp only [nodeCtx, Config.upkr, Config.nLit] at *; omega
  · simp only [Config.upkr, Config.uintSlots] at *; omega
  · simp only [Config.upkr, Config.uintSlots] at *; omega
  · subst ht
    change (s.setProb 256 p).setOffset o = (s.setOffset o).setProb 256 p
    unfold State.setProb
    split <;> rfl

/-- Settles O35: the two fetches go in step, and the contexts of a symbol after a match leave 256 out. -/
theorem offsetChoiceIsSkippedAfterAMatch : Obligations.OffsetChoiceIsSkippedAfterAMatch := by
  intro s t i p hp h
  obtain ⟨-, hk⟩ := (fetchSymbol_post s).ok_of h
  refine ⟨hk.read.others 256 fun hc => hc.2 hp rfl, ?_⟩
  have hsame := fetchSymbol_butEntry hp p
  rw [h] at hsame
  cases h' : fetchSymbol (s.setProb 256 p) with
  | raise f u => rw [h'] at hsame; exact hsame.elim
  | ok j u =>
    rw [h'] at hsame
    obtain ⟨rfl, rfl⟩ := hsame
    rfl

end Sys2Proof.Machine
end

section
/-! PROOF. Reset, the host, the entry of a fault, and words written out from the spec (70_reset_and_hazards.md R150,
45_host_interface.md R120 to R124, 60_exceptions.md R130 to R138). -/

namespace Sys2Proof.Machine

/-- Outside a run with no move of the host pending, a step does nothing (R150). -/
theorem step_of_no_move {s : State} (hs : s.status ≠ .run) (hq : s.hostQ = []) : step s = .next s := by
  simp [step, hs, hq]

theorem step_of_write {s : State} {w : HostWrite} {q : List HostCmd} (hs : s.status ≠ .run)
    (hq : s.hostQ = .write w :: q) : step s = .next (hostWrite w (s.setHostQ q)) := by
  simp [step, hs, hq]

theorem step_of_start {s : State} {q : List HostCmd} (hs : s.status ≠ .run) (hq : s.hostQ = .start :: q) :
    step s = exec .start (s.setHostQ q) := by
  simp [step, hs, hq]

/-- Settles O1: reset is outside a run and no move is pending. -/
theorem resetIsIdle : Obligations.ResetIsIdle :=
  ⟨rfl, rfl, step_of_no_move (by decide) rfl⟩

/-- Settles O2: both memories are empty, and reset is neither live nor faulted. -/
theorem invariantHoldsAtReset : Obligations.InvariantHoldsAtReset := by
  have hlive : ¬ Live State.reset := by rintro (h | h) <;> cases h
  exact {
    inMem := rfl
    outMem := rfl
    probs := fun h => absurd h hlive
    code := fun h => absurd h hlive
    offset := fun h => absurd h hlive
    match_offset := fun h => absurd h hlive
    inPos := fun h => by cases h
    outPos := fun h => by cases h
    cause_live := fun h => absurd h hlive
    cause_fault := fun h => by cases h }

/-- Settles O3: no move to land, and every instruction but START is guarded by `whileRunning`. -/
theorem nothingActsOutsideRun : Obligations.NothingActsOutsideRun :=
  fun _ hs => ⟨step_of_no_move hs, fun _ hi => exec_of_not_run hs hi⟩

/-- Settles O4: the step lands the move at the head of the queue; a byte is read back by `read_write`. -/
theorem hostMovesLandOutsideRun : Obligations.HostMovesLandOutsideRun := by
  intro s q hs
  refine ⟨fun v hq => step_of_write hs hq, fun v hq => step_of_write hs hq, fun a b hq hw => ?_, fun a b hq hw => ?_,
    fun hq => step_of_start hs hq⟩
  · exact ⟨_, step_of_write hs hq, rfl, fun x => Memory.read_write hw a.toNat x b⟩
  · exact ⟨_, step_of_write hs hq, rfl, fun x => Memory.read_write hw a.toNat x b⟩

/-- Settles O6: the guard of START; every step gives a next state. -/
theorem startWhileRunningIsRefused : Obligations.StartWhileRunningIsRefused := by
  refine ⟨fun s hs => by simp [exec, execStart, hs], fun s r h => ?_⟩
  obtain ⟨t, ht⟩ := stepAlwaysAnswers s
  rw [ht] at h
  cases h

/-- Settles O46: what fault entry sets and keeps, and the codes. -/
theorem faultEntry : Obligations.FaultEntry :=
  ⟨fun f s => ⟨takeFault_status f s, takeFault_cause f s, takeFault_inMem f s, takeFault_inLen f s,
    takeFault_outCap f s, fun hw _ ha => takeFault_readOut hw ha⟩, rfl, rfl, rfl, rfl, rfl, rfl, rfl, rfl, rfl⟩

/-- A completed symbol that ends the run is END: it writes STATUS only (R99). -/
theorem Completes.eq_setDone {i : Instr} {s t : State} (hs : s.status = .run) (h : Completes s i t)
    (ht : t.status = .done) : t = s.setStatus .done := by
  cases h with
  | lit b room => exact absurd (ht.symm.trans hs) (by decide)
  | copied i o l form nonzero reach room =>
    obtain ⟨-, -, -, -, -, hst, -⟩ := (copyBytes_onlyOut o l.toNat (s.setOffset o)).fields
    exact absurd (ht.symm.trans (hst.trans hs)) (by decide)
  | ended i form => rfl

/-- Settles O48: the ending step has changed the predictor and STATUS; the rest is what the host reads. -/
theorem resultAfterEnd : Obligations.ResultAfterEnd := by
  intro s t hs h ht
  obtain ⟨i, u, -, -, hk, hc⟩ := step_run_completes hs h (by simp [ht])
  obtain ⟨hpos, -, hst, -, -, -, -, hout, -⟩ := hk.fields
  have htu := hc.eq_setDone (hst.trans hs) ht
  have hpos' : t.outPos = s.outPos := by rw [htu]; exact hpos
  have hout' : t.outMem = s.outMem := by rw [htu]; exact hout
  refine ⟨by simp [hostRead, ht, statusBits], by simp [hostRead, ht], by simp [hostRead, ht], hpos', hout',
    (List.range t.outPos.toNat).map t.readOut, by simp [resultBytes, ht], by simp, fun a ha => ?_⟩
  rw [List.getElem?_map, List.getElem?_range ha, Option.map_some, State.readOut, State.readOut, hout']

end Sys2Proof.Machine

namespace Sys2Proof

/-- Settles O49: each string and each word is decoded by evaluation. -/
theorem wordsDecode : Obligations.WordsDecode :=
  ⟨by decide, by decide, by decide, by decide, by decide, by decide⟩

end Sys2Proof
end
